-- ==== Sys2Proof/Word.lean ====
section
/-! DEFINITION. The value types every file shares: bytes, bus words, 16-byte values and byte strings.
The byte-order and slicing helpers over them stand in Machine/Bytes.lean. -/

namespace Sys2Proof

/-- One byte of a buffer or of a byte string (R8). -/
abbrev Byte := BitVec 8

/-- A 16-bit register field or header field (R38, R47). -/
abbrev Half := BitVec 16

/-- A 32-bit bus word, register or command word (R7, R83, R120). -/
abbrev Word := BitVec 32

/-- A 16-byte value (`B16` of R8): token, key, iv, digest, cipher block.
Byte 0 is the most significant byte, which is the packing of R41. -/
abbrev Block := BitVec 128

/-- A finite byte string (`B*` of R8), byte 0 first. -/
abbrev Bytes := List Byte

end Sys2Proof
end

