-- ==== Sys2Proof/Config.lean ====
section
/-! DEFINITION. What an implementation fixes (the parameters of R5) and the values the spec leaves open.  An `opaque`
constant here has no body: nothing can be proved about its value, so a claim holds whatever it is. -/

namespace Sys2Proof

/-- How strictly padding is checked on decryption (`PAD_CHECK` of R5). -/
inductive PadCheck
  | strict
  | lastByte
deriving DecidableEq, Repr

/-- Which buffer a byte belongs to (R52). -/
inductive Buffer
  | input
  | output
deriving DecidableEq, Repr

/-- The implementation parameters of R5.  Every meaning is written over a `Params`, so that a claim can be stated for
every instantiation (U11); `Machine/Hardware.lean` gives the values for this hardware. -/
structure Params where
  /-- `BASE`: bus address of offset 0x0000 -/
  base : Nat
  /-- `BUF_BYTES`: size in bytes of each buffer -/
  bufBytes : Nat
  /-- `IRQ_LINE`: the platform interrupt input that `IRQ` drives -/
  irqLine : Nat
  /-- `HDR_RSVD`: header bytes 4 to 7 of every data frame the block builds -/
  hdrRsvd : Word
  /-- `PAD_CHECK` -/
  padCheck : PadCheck
  /-- `Digest128` (R150) -/
  digest : Bytes → Block
  /-- `Enc128` (R151), key first -/
  enc : Block → Block → Block
  /-- `Dec128` (R151), key first -/
  dec : Block → Block → Block

namespace Config

/-- `BUF_BYTES` = 4096 for this hardware (R5, D6; log 7). -/
def bufBytes : Nat := 4096

/-- `HDR_RSVD` = 0x00000000 for this hardware (R5, D18; log 7). -/
def hdrRsvd : Word := 0x00000000

/-- `PAD_CHECK` = `STRICT` for this hardware (R5, D19; log 7). -/
def padCheck : PadCheck := .strict

/-- `BASE` is open, any 64 KiB-aligned address (R5): the number of the 64 KiB page is a free constant (log 8). -/
opaque basePage : Nat

/-- `IRQ_LINE` is open (R5): a free constant (log 8). -/
opaque irqLine : Nat

/-- A byte of IN or OUT that nothing has written since reset (R93, R383): draw number `n` for byte `i` of buffer `b` is
a free value (log 3). -/
opaque freeByte (b : Buffer) (i n : Nat) : Byte

end Config

end Sys2Proof
end

