-- ==== Sys2Proof/Machine/Bytes.lean ====
section
/-! DEFINITION. Byte strings and big-endian numbers (R8, R9, R41): the one place where byte order is decided. -/

namespace Sys2Proof

/-- `s[a:b]` of R8. -/
def slice (s : Bytes) (a b : Nat) : Bytes := (s.drop a).take (b - a)

/-- The `n`-byte big-endian encoding of `v`, byte 0 most significant (R9). -/
def beBytes : Nat → Nat → Bytes
  | 0, _ => []
  | n + 1, v => beBytes n (v / 256) ++ [BitVec.ofNat 8 v]

/-- The number whose big-endian encoding is `s` (R9). -/
def beNat (s : Bytes) : Nat := s.foldl (fun acc b => acc * 256 + b.toNat) 0

/-- `be16` of R9. -/
def be16 (v : Half) : Bytes := beBytes 2 v.toNat

/-- `be32` of R9. -/
def be32 (v : Word) : Bytes := beBytes 4 v.toNat

/-- The 16 bytes of a 16-byte value, in the packing of R41. -/
def be128 (v : Block) : Bytes := beBytes 16 v.toNat

/-- `rd16(s, o)` of R9. -/
def rd16 (s : Bytes) (o : Nat) : Half := BitVec.ofNat 16 (beNat (slice s o (o + 2)))

/-- `rd32(s, o)` of R9. -/
def rd32 (s : Bytes) (o : Nat) : Word := BitVec.ofNat 32 (beNat (slice s o (o + 4)))

/-- The 16-byte value at `s[o:o+16]`. -/
def rd128 (s : Bytes) (o : Nat) : Block := BitVec.ofNat 128 (beNat (slice s o (o + 16)))

/-- Word `k` of a 16-byte register: `Xk` = rd32(s, 4k) (R41). -/
def wordOf (x : Block) (k : Nat) : Word := rd32 (be128 x) (4 * k)

/-- The string of `n` pieces of `k` bytes that `s` begins with. -/
def pieces (k : Nat) : Nat → Bytes → List Bytes
  | 0, _ => []
  | n + 1, s => s.take k :: pieces k n (s.drop k)

end Sys2Proof
end

