-- ==== Sys2Proof/Machine/Cipher.lean ====
section
/-! DEFINITION. AES-128, the reference instantiation of `Enc128` and `Dec128` (R173 to R176; general knowledge by the
spec's own mark, K2; log 6). -/

namespace Sys2Proof

/-- SBOX of R173, a list of rows: row x, column y is the entry of byte 16x + y. -/
def sboxTable : List Bytes :=
  [[0x63, 0x7c, 0x77, 0x7b, 0xf2, 0x6b, 0x6f, 0xc5, 0x30, 0x01, 0x67, 0x2b, 0xfe, 0xd7, 0xab, 0x76],
   [0xca, 0x82, 0xc9, 0x7d, 0xfa, 0x59, 0x47, 0xf0, 0xad, 0xd4, 0xa2, 0xaf, 0x9c, 0xa4, 0x72, 0xc0],
   [0xb7, 0xfd, 0x93, 0x26, 0x36, 0x3f, 0xf7, 0xcc, 0x34, 0xa5, 0xe5, 0xf1, 0x71, 0xd8, 0x31, 0x15],
   [0x04, 0xc7, 0x23, 0xc3, 0x18, 0x96, 0x05, 0x9a, 0x07, 0x12, 0x80, 0xe2, 0xeb, 0x27, 0xb2, 0x75],
   [0x09, 0x83, 0x2c, 0x1a, 0x1b, 0x6e, 0x5a, 0xa0, 0x52, 0x3b, 0xd6, 0xb3, 0x29, 0xe3, 0x2f, 0x84],
   [0x53, 0xd1, 0x00, 0xed, 0x20, 0xfc, 0xb1, 0x5b, 0x6a, 0xcb, 0xbe, 0x39, 0x4a, 0x4c, 0x58, 0xcf],
   [0xd0, 0xef, 0xaa, 0xfb, 0x43, 0x4d, 0x33, 0x85, 0x45, 0xf9, 0x02, 0x7f, 0x50, 0x3c, 0x9f, 0xa8],
   [0x51, 0xa3, 0x40, 0x8f, 0x92, 0x9d, 0x38, 0xf5, 0xbc, 0xb6, 0xda, 0x21, 0x10, 0xff, 0xf3, 0xd2],
   [0xcd, 0x0c, 0x13, 0xec, 0x5f, 0x97, 0x44, 0x17, 0xc4, 0xa7, 0x7e, 0x3d, 0x64, 0x5d, 0x19, 0x73],
   [0x60, 0x81, 0x4f, 0xdc, 0x22, 0x2a, 0x90, 0x88, 0x46, 0xee, 0xb8, 0x14, 0xde, 0x5e, 0x0b, 0xdb],
   [0xe0, 0x32, 0x3a, 0x0a, 0x49, 0x06, 0x24, 0x5c, 0xc2, 0xd3, 0xac, 0x62, 0x91, 0x95, 0xe4, 0x79],
   [0xe7, 0xc8, 0x37, 0x6d, 0x8d, 0xd5, 0x4e, 0xa9, 0x6c, 0x56, 0xf4, 0xea, 0x65, 0x7a, 0xae, 0x08],
   [0xba, 0x78, 0x25, 0x2e, 0x1c, 0xa6, 0xb4, 0xc6, 0xe8, 0xdd, 0x74, 0x1f, 0x4b, 0xbd, 0x8b, 0x8a],
   [0x70, 0x3e, 0xb5, 0x66, 0x48, 0x03, 0xf6, 0x0e, 0x61, 0x35, 0x57, 0xb9, 0x86, 0xc1, 0x1d, 0x9e],
   [0xe1, 0xf8, 0x98, 0x11, 0x69, 0xd9, 0x8e, 0x94, 0x9b, 0x1e, 0x87, 0xe9, 0xce, 0x55, 0x28, 0xdf],
   [0x8c, 0xa1, 0x89, 0x0d, 0xbf, 0xe6, 0x42, 0x68, 0x41, 0x99, 0x2d, 0x0f, 0xb0, 0x54, 0xbb, 0x16]]

/-- INV_SBOX of R173, a list of rows. -/
def invSboxTable : List Bytes :=
  [[0x52, 0x09, 0x6a, 0xd5, 0x30, 0x36, 0xa5, 0x38, 0xbf, 0x40, 0xa3, 0x9e, 0x81, 0xf3, 0xd7, 0xfb],
   [0x7c, 0xe3, 0x39, 0x82, 0x9b, 0x2f, 0xff, 0x87, 0x34, 0x8e, 0x43, 0x44, 0xc4, 0xde, 0xe9, 0xcb],
   [0x54, 0x7b, 0x94, 0x32, 0xa6, 0xc2, 0x23, 0x3d, 0xee, 0x4c, 0x95, 0x0b, 0x42, 0xfa, 0xc3, 0x4e],
   [0x08, 0x2e, 0xa1, 0x66, 0x28, 0xd9, 0x24, 0xb2, 0x76, 0x5b, 0xa2, 0x49, 0x6d, 0x8b, 0xd1, 0x25],
   [0x72, 0xf8, 0xf6, 0x64, 0x86, 0x68, 0x98, 0x16, 0xd4, 0xa4, 0x5c, 0xcc, 0x5d, 0x65, 0xb6, 0x92],
   [0x6c, 0x70, 0x48, 0x50, 0xfd, 0xed, 0xb9, 0xda, 0x5e, 0x15, 0x46, 0x57, 0xa7, 0x8d, 0x9d, 0x84],
   [0x90, 0xd8, 0xab, 0x00, 0x8c, 0xbc, 0xd3, 0x0a, 0xf7, 0xe4, 0x58, 0x05, 0xb8, 0xb3, 0x45, 0x06],
   [0xd0, 0x2c, 0x1e, 0x8f, 0xca, 0x3f, 0x0f, 0x02, 0xc1, 0xaf, 0xbd, 0x03, 0x01, 0x13, 0x8a, 0x6b],
   [0x3a, 0x91, 0x11, 0x41, 0x4f, 0x67, 0xdc, 0xea, 0x97, 0xf2, 0xcf, 0xce, 0xf0, 0xb4, 0xe6, 0x73],
   [0x96, 0xac, 0x74, 0x22, 0xe7, 0xad, 0x35, 0x85, 0xe2, 0xf9, 0x37, 0xe8, 0x1c, 0x75, 0xdf, 0x6e],
   [0x47, 0xf1, 0x1a, 0x71, 0x1d, 0x29, 0xc5, 0x89, 0x6f, 0xb7, 0x62, 0x0e, 0xaa, 0x18, 0xbe, 0x1b],
   [0xfc, 0x56, 0x3e, 0x4b, 0xc6, 0xd2, 0x79, 0x20, 0x9a, 0xdb, 0xc0, 0xfe, 0x78, 0xcd, 0x5a, 0xf4],
   [0x1f, 0xdd, 0xa8, 0x33, 0x88, 0x07, 0xc7, 0x31, 0xb1, 0x12, 0x10, 0x59, 0x27, 0x80, 0xec, 0x5f],
   [0x60, 0x51, 0x7f, 0xa9, 0x19, 0xb5, 0x4a, 0x0d, 0x2d, 0xe5, 0x7a, 0x9f, 0x93, 0xc9, 0x9c, 0xef],
   [0xa0, 0xe0, 0x3b, 0x4d, 0xae, 0x2a, 0xf5, 0xb0, 0xc8, 0xeb, 0xbb, 0x3c, 0x83, 0x53, 0x99, 0x61],
   [0x17, 0x2b, 0x04, 0x7e, 0xba, 0x77, 0xd6, 0x26, 0xe1, 0x69, 0x14, 0x63, 0x55, 0x21, 0x0c, 0x7d]]

/-- SBOX[a] of R173. -/
def subByte (a : Byte) : Byte := (sboxTable.getD (a.toNat / 16) []).getD (a.toNat % 16) 0

/-- INV_SBOX[a] of R173. -/
def invSubByte (a : Byte) : Byte := (invSboxTable.getD (a.toNat / 16) []).getD (a.toNat % 16) 0

/-- `xtime(a)` of R173: doubling modulo x^8 + x^4 + x^3 + x + 1. -/
def xtime (a : Byte) : Byte := if a.msb then (a <<< 1) ^^^ 0x1B else a <<< 1

/-- The exclusive or of xtime^j(a) over the bits j set in the `n` low bits of b. -/
def gmulBits : Nat → Byte → Byte → Byte
  | 0, _, _ => 0
  | n + 1, b, a =>
    if b = 0 then 0 else if b.getLsbD 0 then a ^^^ gmulBits n (b >>> 1) (xtime a) else gmulBits n (b >>> 1) (xtime a)

/-- `gmul(b, a)` of R173, the field product. -/
def gmul (b a : Byte) : Byte := gmulBits 8 b a

/-- `AddRoundKey` of R175, bytewise exclusive or. -/
def xorBytes (s t : Bytes) : Bytes := List.zipWith (· ^^^ ·) s t

/-- RCON of R174. -/
def rcon : List Byte := [0x01, 0x02, 0x04, 0x08, 0x10, 0x20, 0x40, 0x80, 0x1B, 0x36]

/-- RotWord, SubWord and Rcon of R174: the word t before an index i = 4(r + 1). -/
def keyCore (r : Nat) (t : Bytes) : Bytes :=
  [subByte (t.getD 1 0) ^^^ rcon.getD r 0, subByte (t.getD 2 0), subByte (t.getD 3 0), subByte (t.getD 0 0)]

/-- Round key r + 1 from round key r: words w[4r+4] .. w[4r+7] of R174. -/
def nextRoundKey (r : Nat) (rk : Bytes) : Bytes :=
  let w4 := xorBytes (slice rk 0 4) (keyCore r (slice rk 12 16))
  let w5 := xorBytes (slice rk 4 8) w4
  let w6 := xorBytes (slice rk 8 12) w5
  let w7 := xorBytes (slice rk 12 16) w6
  w4 ++ w5 ++ w6 ++ w7

/-- RK[r] of R174. -/
def roundKey (k : Bytes) : Nat → Bytes
  | 0 => k
  | r + 1 => nextRoundKey r (roundKey k r)

/-- `SubBytes` of R175. -/
def subBytes (s : Bytes) : Bytes := s.map subByte

/-- `InvSubBytes` of R175. -/
def invSubBytes (s : Bytes) : Bytes := s.map invSubByte

/-- `ShiftRows` of R175: entry r + 4c is s[r + 4((c + r) mod 4)]. -/
def shiftRows (s : Bytes) : Bytes :=
  (List.range 16).map fun i => s.getD (i % 4 + 4 * ((i / 4 + i % 4) % 4)) 0

/-- `InvShiftRows` of R175: entry r + 4c is s[r + 4((c - r) mod 4)]. -/
def invShiftRows (s : Bytes) : Bytes :=
  (List.range 16).map fun i => s.getD (i % 4 + 4 * ((i / 4 + 4 - i % 4) % 4)) 0

/-- Entry r + 4c of the column mix of R175 whose coefficients for a_r .. a_{r+3} are k0 .. k3. -/
def mixEntry (k0 k1 k2 k3 : Byte) (s : Bytes) (i : Nat) : Byte :=
  let a := fun j => s.getD ((i + j) % 4 + 4 * (i / 4)) 0
  gmul k0 (a 0) ^^^ gmul k1 (a 1) ^^^ gmul k2 (a 2) ^^^ gmul k3 (a 3)

/-- `MixColumns` of R175. -/
def mixColumns (s : Bytes) : Bytes := (List.range 16).map (mixEntry 2 3 1 1 s)

/-- `InvMixColumns` of R175. -/
def invMixColumns (s : Bytes) : Bytes := (List.range 16).map (mixEntry 14 11 13 9 s)

/-- Rounds 1 .. n of the cipher of R176. -/
def encRounds (k : Bytes) : Nat → Bytes → Bytes
  | 0, s => s
  | n + 1, s => xorBytes (mixColumns (shiftRows (subBytes (encRounds k n s)))) (roundKey k (n + 1))

/-- Rounds n down to 1 of the inverse cipher of R176. -/
def decRounds (k : Bytes) : Nat → Bytes → Bytes
  | 0, s => s
  | n + 1, s =>
    decRounds k n (invMixColumns (xorBytes (invSubBytes (invShiftRows s)) (roundKey k (n + 1))))

/-- `AES128Enc(k, b)` of R176. -/
def aes128Enc (key block : Block) : Block :=
  let k := be128 key
  let s := encRounds k 9 (xorBytes (be128 block) (roundKey k 0))
  rd128 (xorBytes (shiftRows (subBytes s)) (roundKey k 10)) 0

/-- `AES128Dec(k, c)` of R176. -/
def aes128Dec (key block : Block) : Block :=
  let k := be128 key
  let s := decRounds k 9 (xorBytes (be128 block) (roundKey k 10))
  rd128 (xorBytes (invSubBytes (invShiftRows s)) (roundKey k 0)) 0

end Sys2Proof
end

