-- ==== Sys2Proof/Machine/Digest.lean ====
section
/-! DEFINITION. MD5, the reference instantiation of `Digest128` (R170 to R172; general knowledge by the spec's own
mark, K1; log 6). -/

namespace Sys2Proof

/-- `le32(s, o)` of R170. -/
def le32 (s : Bytes) (o : Nat) : Word := BitVec.ofNat 32 (beNat (slice s o (o + 4)).reverse)

/-- The `n`-byte little-endian encoding of `v`: `le32bytes`, `le64bytes` of R170. -/
def leBytes (n v : Nat) : Bytes := (beBytes n v).reverse

/-- `rotl32(x, n)` of R170. -/
def rotl32 (x : Word) (n : Nat) : Word := x <<< n + x >>> (32 - n)

/-- The shift amounts S of R171. -/
def md5Shift (i : Nat) : Nat :=
  if i ≤ 15 then [7, 12, 17, 22].getD (i % 4) 0
  else if i ≤ 31 then [5, 9, 14, 20].getD (i % 4) 0
  else if i ≤ 47 then [4, 11, 16, 23].getD (i % 4) 0
  else [6, 10, 15, 21].getD (i % 4) 0

/-- The additive constants K of R171, eight per row as the rule lists them. -/
def md5Table : List (List Word) :=
  [[0xd76aa478, 0xe8c7b756, 0x242070db, 0xc1bdceee, 0xf57c0faf, 0x4787c62a, 0xa8304613, 0xfd469501],
   [0x698098d8, 0x8b44f7af, 0xffff5bb1, 0x895cd7be, 0x6b901122, 0xfd987193, 0xa679438e, 0x49b40821],
   [0xf61e2562, 0xc040b340, 0x265e5a51, 0xe9b6c7aa, 0xd62f105d, 0x02441453, 0xd8a1e681, 0xe7d3fbc8],
   [0x21e1cde6, 0xc33707d6, 0xf4d50d87, 0x455a14ed, 0xa9e3e905, 0xfcefa3f8, 0x676f02d9, 0x8d2a4c8a],
   [0xfffa3942, 0x8771f681, 0x6d9d6122, 0xfde5380c, 0xa4beea44, 0x4bdecfa9, 0xf6bb4b60, 0xbebfbc70],
   [0x289b7ec6, 0xeaa127fa, 0xd4ef3085, 0x04881d05, 0xd9d4d039, 0xe6db99e5, 0x1fa27cf8, 0xc4ac5665],
   [0xf4292244, 0x432aff97, 0xab9423a7, 0xfc93a039, 0x655b59c3, 0x8f0ccc92, 0xffeff47d, 0x85845dd1],
   [0x6fa87e4f, 0xfe2ce6e0, 0xa3014314, 0x4e0811a1, 0xf7537e82, 0xbd3af235, 0x2ad7d2bb, 0xeb86d391]]

/-- K[i] of R171. -/
def md5K (i : Nat) : Word := (md5Table.getD (i / 8) []).getD (i % 8) 0

/-- The four working words (A, B, C, D) of R172. -/
structure Md5Words where
  a : Word
  b : Word
  c : Word
  d : Word
deriving DecidableEq, Repr

/-- The function F of step `i`, before the additions. -/
def md5F (i : Nat) (x : Md5Words) : Word :=
  if i ≤ 15 then (x.b &&& x.c) ||| (~~~x.b &&& x.d)
  else if i ≤ 31 then (x.d &&& x.b) ||| (~~~x.d &&& x.c)
  else if i ≤ 47 then x.b ^^^ x.c ^^^ x.d
  else x.c ^^^ (x.b ||| ~~~x.d)

/-- The message word index g of step `i`. -/
def md5G (i : Nat) : Nat :=
  if i ≤ 15 then i
  else if i ≤ 31 then (5 * i + 1) % 16
  else if i ≤ 47 then (3 * i + 5) % 16
  else (7 * i) % 16

/-- One pass of the inner loop of R172 over the message words `m`; all four right-hand sides read the old words. -/
def md5Step (m : List Word) (x : Md5Words) (i : Nat) : Md5Words :=
  let f := md5F i x + x.a + md5K i + m.getD (md5G i) 0
  { a := x.d, b := x.b + rotl32 f (md5Shift i), c := x.b, d := x.c }

/-- One 64-byte block `s` of the message (R172). -/
def md5Block (x : Md5Words) (s : Bytes) : Md5Words :=
  let m := (List.range 16).map fun w => le32 s (4 * w)
  let y := (List.range 64).foldl (md5Step m) x
  { a := x.a + y.a, b := x.b + y.b, c := x.c + y.c, d := x.d + y.d }

/-- The padded message m' of R172; the number of zero bytes is the least z with (len + 1 + z) mod 64 = 56. -/
def md5Pad (s : Bytes) : Bytes :=
  s ++ [0x80#8] ++ List.replicate ((119 - s.length % 64) % 64) 0#8 ++ leBytes 8 (8 * s.length)

/-- `MD5` of R172. -/
def md5 (s : Bytes) : Block :=
  let t := md5Pad s
  let x := (pieces 64 (t.length / 64) t).foldl md5Block
    { a := 0x67452301, b := 0xEFCDAB89, c := 0x98BADCFE, d := 0x10325476 }
  rd128 (leBytes 4 x.a.toNat ++ leBytes 4 x.b.toNat ++ leBytes 4 x.c.toNat ++ leBytes 4 x.d.toNat) 0

end Sys2Proof
end

