-- ==== Sys2Proof/Machine/Hardware.lean ====
section
/-! DEFINITION. The parameters of this hardware: the last column of the table of R5. -/

namespace Sys2Proof.Machine

/-- The parameters of this hardware (R5; logs 6, 7, 8). -/
def hw : Params where
  base := Config.basePage * 65536
  bufBytes := Config.bufBytes
  irqLine := Config.irqLine
  hdrRsvd := Config.hdrRsvd
  padCheck := Config.padCheck
  digest := md5
  enc := aes128Enc
  dec := aes128Dec

end Sys2Proof.Machine
end

