-- ==== Sys2Proof/Syntax.lean ====
section
/-! DEFINITION. The names of the machine: the 13 commands, the fields of a command word, the registers and bus
targets, the events that may happen to the block, the replies of the bus, and the host notation. -/

namespace Sys2Proof

/-- The commands of R122, one constructor per row of spec/opcode_table.json.  No command has an operand field (R125,
R126).  `sealFrame`, `openFrame` and `openFrameV` are SEAL, OPEN and OPEN.V, whose own names are words of Lean. -/
inductive Instr
  | derive
  | close
  | encrypt
  | decrypt
  | mac
  | encFrame
  | decHdr
  | decHdrV
  | parseHello
  | probe
  | sealFrame
  | openFrame
  | openFrameV
deriving DecidableEq, Repr

/-- The fields of the one format `CMD32` (R120). -/
structure Cmd32 where
  /-- bits 7:0, the operation code -/
  opc : BitVec 8
  /-- bit 8, verify the checksum of the input frame -/
  v : Bool
  /-- bits 31:9, reserved -/
  rsvd : BitVec 23
deriving DecidableEq, Repr

/-- The registers of the map of R22.  A 16-byte register is four words, word `k` of R41. -/
inductive Reg
  | id
  | ctrl
  | status
  | cmd
  | result
  | inLen
  | outCap
  | outLen
  | token (k : Fin 4)
  | key (k : Fin 4)
  | iv (k : Fin 4)
  | devid
  | stamp
  | rxMagic
  | rxTotlen
  | rxDevid
  | rxStamp
  | rxCksum (k : Fin 4)
  | digest (k : Fin 4)
  | bufsize
deriving DecidableEq, Repr

/-- What a bus offset names (R81), and the `target` of the host notation (R131): a register, or the word of the IN or
OUT window that starts at byte `n` of the buffer. -/
inductive Target
  | reg (r : Reg)
  | inAt (n : Nat)
  | outAt (n : Nat)
deriving DecidableEq, Repr

/-- The events of R331: the only things that change the block. -/
inductive Event
  /-- `BusRead(off, size)` by the host (R82) -/
  | read (off : BitVec 16) (size : Nat)
  /-- `BusWrite(off, size, d)` by the host (R82) -/
  | write (off : BitVec 16) (size : Nat) (d : Word)
  /-- `Complete` by the engine (R335); enabled only while `STATUS.BUSY` = 1 -/
  | complete
  /-- `Reset` (R380) -/
  | reset
deriving DecidableEq, Repr

/-- What the bus answers to one transaction (R82). -/
inductive Reply
  /-- the data word of a read -/
  | data (w : Word)
  /-- `OK`, for a write -/
  | ok
  /-- `BUSERR` -/
  | busErr
deriving DecidableEq, Repr

/-- One line of the host notation: the bus operations of R131 and the pseudo-instructions of R132. -/
inductive HostLine
  | wr (t : Target) (value : Word)
  | rd (t : Target) (states : Option Word)
  | cmd (i : Instr)
  | wait
  | run (i : Instr)
  | loadTok (t : Block)
  | loadIn (s : Bytes)
  | setCap (n : Word)
  | ack
deriving DecidableEq, Repr

end Sys2Proof
end

