-- ==== Sys2Proof/Decode.lean ====
section
/-! DEFINITION. The decoder and the encoder of the one format CMD32 (R120 to R124). -/

namespace Sys2Proof

/-- Why a word is no command (R123, R124); `tooShort` is for a byte string shorter than a command word (R121). -/
inductive DecodeError
  | reservedBits
  | unknownOpc
  | verifyNotAllowed
  | tooShort
deriving DecidableEq, Repr

/-- The three fields of a command word (R120). -/
def cmdFields (w : Word) : Cmd32 :=
  { opc := w.extractLsb' 0 8, v := w.getLsbD 8, rsvd := w.extractLsb' 9 23 }

/-- The word with these fields (R120). -/
def packFields (c : Cmd32) : Word := c.rsvd ++ BitVec.ofBool c.v ++ c.opc

/-- The opcode map of R122, rows with V = 0. -/
def plainCommand (opc : BitVec 8) : Option Instr :=
  match opc with
  | 0x01#8 => some .derive
  | 0x02#8 => some .close
  | 0x10#8 => some .encrypt
  | 0x11#8 => some .decrypt
  | 0x20#8 => some .mac
  | 0x21#8 => some .encFrame
  | 0x22#8 => some .decHdr
  | 0x23#8 => some .parseHello
  | 0x30#8 => some .probe
  | 0x40#8 => some .sealFrame
  | 0x41#8 => some .openFrame
  | _ => none

/-- The opcode map of R122, rows with V = 1. -/
def verifyCommand (opc : BitVec 8) : Option Instr :=
  match opc with
  | 0x22#8 => some .decHdrV
  | 0x41#8 => some .openFrameV
  | _ => none

/-- The decoder: a command word to its command, or the first reason why it is illegal (R123). -/
def decode (w : Word) : Except DecodeError Instr :=
  let c := cmdFields w
  if c.rsvd ≠ 0 then .error .reservedBits
  else match plainCommand c.opc with
    | none => .error .unknownOpc
    | some i =>
      if c.v then
        match verifyCommand c.opc with
        | some j => .ok j
        | none => .error .verifyNotAllowed
      else .ok i

/-- The fields of a command's word (R122). -/
def instrFields : Instr → Cmd32
  | .derive => ⟨0x01, false, 0⟩
  | .close => ⟨0x02, false, 0⟩
  | .encrypt => ⟨0x10, false, 0⟩
  | .decrypt => ⟨0x11, false, 0⟩
  | .mac => ⟨0x20, false, 0⟩
  | .encFrame => ⟨0x21, false, 0⟩
  | .decHdr => ⟨0x22, false, 0⟩
  | .decHdrV => ⟨0x22, true, 0⟩
  | .parseHello => ⟨0x23, false, 0⟩
  | .probe => ⟨0x30, false, 0⟩
  | .sealFrame => ⟨0x40, false, 0⟩
  | .openFrame => ⟨0x41, false, 0⟩
  | .openFrameV => ⟨0x41, true, 0⟩

/-- The encoder: `word(m)` of R132. -/
def encode (i : Instr) : Word := packFields (instrFields i)

/-- A command word as the four bytes of a bus word, byte 0 in bits 31:24 (R90; log 15). -/
def encodeBytes (i : Instr) : Bytes := be32 (encode i)

/-- The decoder on bytes: every command is exactly four of them (R121); the rest of the string is returned. -/
def decodeBytes : Bytes → Except DecodeError (Instr × Bytes)
  | b0 :: b1 :: b2 :: b3 :: rest =>
    match decode (rd32 [b0, b1, b2, b3] 0) with
    | .ok i => .ok (i, rest)
    | .error e => .error e
  | _ => .error .tooShort

/-- The command that the decoder reads from the word `w` of an `nbits`-bit table row, the bits above `nbits` zero. -/
def decodeTableWord (nbits w : Nat) : Option Instr :=
  if w % 2 ^ nbits < 2 ^ 32 then
    match decodeBytes (beBytes 4 (w % 2 ^ nbits)) with
    | .ok (i, _) => some i
    | .error _ => none
  else none

end Sys2Proof
end

