-- ==== Sys2Proof/Machine/State.lean ====
section
/-! DEFINITION. The machine state (R20, R22), its memories, its reset value (R381), and the ways a step can stop.
The registers `ID` and `BUFSIZE` are constants (R23, R51): they have no field and stand in the register read.
`IRQ` is a function of the registers (R54): `State.irq` in Flags.lean. -/

namespace Sys2Proof.Machine

/-- The error codes of R336 other than 0x00.  Their numbers are `errorByte` in Flags.lean. -/
inductive ErrorCode
  | invalidToken
  | frameShort
  | helloLen
  | cksumMismatch
  | decAlign
  | decPad
  | closed
  | noHandshake
  | outCap
  | badLen
  | illegalCmd
deriving DecidableEq, Repr

/-- Reasons for the machine to stop with a fault.  There is none, and no meaning raises one: R330 (no traps), R334 (no
command and no input can make the engine hang) and R348 (a bus error is a reply to one transaction).  Log 12; exact, so
neither safe nor unsafe. -/
inductive Fault
deriving DecidableEq, Repr

/-- Reasons to give an instruction no meaning. -/
inductive Refusal
  /-- An instruction without a meaning, rejected by name in `exec`; safe.  No arm of `exec` raises it. -/
  | notModelled (mnemonic : String)
deriving DecidableEq, Repr

/-- The written bytes of a buffer, each with its index.  A byte that is not listed has not been written since reset
(R93); what it reads as is `State.unwritten` in Ops.lean. -/
abbrev Memory := List Host.Cell

/-- The canonical form: indexes strictly rising.  An unlisted byte has no stored value, so nothing else is required for
equal memories to be equal lists. -/
abbrev Memory.wf (m : Memory) : Prop := m.Pairwise (fun c d => c.1 < d.1)

/-- Every index lies inside a buffer of `n` bytes (R52). -/
abbrev Memory.within (n : Nat) (m : Memory) : Prop := ∀ c ∈ m, c.1 < n

/-- The state of the block (R20), and three fields of the model's own: `events`, `replies`, `draws`. -/
structure State where
  /-- `CTRL.IRQ_EN` (R24) -/
  irqEn : Bool
  /-- `CTRL.HS_ONESHOT` (R24) -/
  hsOneshot : Bool
  /-- `STATUS.BUSY` (R27) -/
  busy : Bool
  /-- `STATUS.DONE` (R28) -/
  done : Bool
  /-- `STATUS.ERR` (R29) -/
  err : Bool
  /-- `STATUS.CMD_OVR` (R30) -/
  cmdOvr : Bool
  /-- `STATUS.BUSY_WR` (R31) -/
  busyWr : Bool
  /-- `STATUS.CONN` (R32) -/
  conn : Bool
  /-- `STATUS.HS_VALID` (R33) -/
  hsValid : Bool
  /-- `STATUS.TOKEN_WR` (R34) -/
  tokenWr : BitVec 4
  /-- `CMDLATCH` (R53) -/
  cmdLatch : Word
  /-- `RESULT.CODE` (R37) -/
  resCode : Byte
  /-- `RESULT.OPC` (R37) -/
  resOpc : Byte
  /-- `RESULT.V` (R37) -/
  resV : Bool
  /-- `IN_LEN` (R38) -/
  inLen : Half
  /-- `OUT_CAP` (R39) -/
  outCap : Half
  /-- `OUT_LEN` (R40) -/
  outLen : Half
  /-- `TOKEN0` (R42) -/
  token0 : Word
  /-- `TOKEN1` (R42) -/
  token1 : Word
  /-- `TOKEN2` (R42) -/
  token2 : Word
  /-- `TOKEN3` (R42) -/
  token3 : Word
  /-- `TOK` (R43) -/
  tok : Block
  /-- `KEY` (R44) -/
  key : Block
  /-- `IV` (R45) -/
  iv : Block
  /-- `DEVID` (R46) -/
  devid : Word
  /-- `STAMP` (R46) -/
  stamp : Word
  /-- `RX_MAGIC` (R47) -/
  rxMagic : Half
  /-- `RX_TOTLEN` (R47) -/
  rxTotlen : Half
  /-- `RX_DEVID` (R48) -/
  rxDevid : Word
  /-- `RX_STAMP` (R48) -/
  rxStamp : Word
  /-- `RX_CKSUM` (R49) -/
  rxCksum : Block
  /-- `DIGEST` (R50) -/
  digest : Block
  /-- the IN buffer (R52) -/
  inBuf : Memory
  /-- the OUT buffer (R52) -/
  outBuf : Memory
  /-- the model's own: the events still to come, first one first (R97, R331; log 1) -/
  events : List Event
  /-- the model's own: the replies the bus gave, newest first (R82; log 5) -/
  replies : List Reply
  /-- the model's own: the index of the current draw of unwritten bytes (R93; log 4) -/
  draws : Nat
deriving DecidableEq, Repr

/-- The state after reset: the values of R381; nothing written in IN and OUT (R383); no event to come, no reply given
and draw 0, which are the model's own (logs 1, 4, 5). -/
def State.reset : State where
  irqEn := false
  hsOneshot := true
  busy := false
  done := false
  err := false
  cmdOvr := false
  busyWr := false
  conn := false
  hsValid := false
  tokenWr := 0
  cmdLatch := 0
  resCode := 0
  resOpc := 0
  resV := false
  inLen := 0
  outCap := BitVec.ofNat 16 Config.bufBytes
  outLen := 0
  token0 := 0
  token1 := 0
  token2 := 0
  token3 := 0
  tok := 0
  key := 0
  iv := 0
  devid := 0
  stamp := 0
  rxMagic := 0
  rxTotlen := 0
  rxDevid := 0
  rxStamp := 0
  rxCksum := 0
  digest := 0
  inBuf := []
  outBuf := []
  events := []
  replies := []
  draws := 0

end Sys2Proof.Machine
end

