-- ==== Sys2Proof/Machine/Flags.lean ====
section
/-! DEFINITION. The status, control and result words, the numbers of the error codes, the interrupt output, and how
each event changes the flags of STATUS (R24 to R37, R54, R335, R336). -/

namespace Sys2Proof.Machine

/-- The number of an error code (R336). -/
def errorByte : ErrorCode → Byte
  | .invalidToken => 0x11
  | .frameShort => 0x21
  | .helloLen => 0x22
  | .cksumMismatch => 0x23
  | .decAlign => 0x31
  | .decPad => 0x32
  | .closed => 0x41
  | .noHandshake => 0x42
  | .outCap => 0x43
  | .badLen => 0x44
  | .illegalCmd => 0x4F

/-- The CTRL register as read (R24): bits 31:2 read as 0. -/
def State.ctrlWord (s : State) : Word := 0#30 ++ BitVec.ofBool s.hsOneshot ++ BitVec.ofBool s.irqEn

/-- The STATUS register as read (R26): the reserved fields read as 0. -/
def State.statusWord (s : State) : Word :=
  0#16 ++ s.tokenWr ++ 0#2 ++ BitVec.ofBool s.hsValid ++ BitVec.ofBool s.conn ++ 0#3 ++ BitVec.ofBool s.busyWr ++
    BitVec.ofBool s.cmdOvr ++ BitVec.ofBool s.err ++ BitVec.ofBool s.done ++ BitVec.ofBool s.busy

/-- The RESULT register as read (R37). -/
def State.resultWord (s : State) : Word := 0#15 ++ BitVec.ofBool s.resV ++ s.resOpc ++ s.resCode

/-- The output signal `IRQ` (R54). -/
def State.irq (s : State) : Bool := s.irqEn && s.done

/-- The level of the platform's interrupt input `line`, as far as this block drives it (R341, R5 `IRQ_LINE`). -/
def interruptInput (p : Params) (s : State) (line : Nat) : Bool := line == p.irqLine && s.irq

/-- A write of `d` to CTRL while BUSY = 0 (R25). -/
def State.setCtrl (s : State) (d : Word) : State := { s with irqEn := d.getLsbD 0, hsOneshot := d.getLsbD 1 }

/-- A write of `d` to STATUS (R35). -/
def State.ackStatus (s : State) (d : Word) : State :=
  { s with
    done := s.done && !d.getLsbD 1
    err := s.err && !d.getLsbD 2
    cmdOvr := s.cmdOvr && !d.getLsbD 3
    busyWr := s.busyWr && !d.getLsbD 4 }

/-- A write to CMD while BUSY = 1 (R36, R344). -/
def State.markOverrun (s : State) : State := { s with cmdOvr := true }

/-- A write to an input register or to the IN window while BUSY = 1 (R31, R345). -/
def State.markBusyWrite (s : State) : State := { s with busyWr := true }

/-- The handshake result is used up by a frame if CTRL.HS_ONESHOT = 1 (R33, R284). -/
def State.consumeHandshake (s : State) : State := { s with hsValid := s.hsValid && !s.hsOneshot }

end Sys2Proof.Machine
end

