-- ==== Sys2Proof/Machine/Primitives.lean ====
section
/-! DEFINITION. The functions the commands use (R150 to R162), over the parameters `Digest128`, `Enc128` and `Dec128`:
padding, CBC, payload encryption and decryption, key and iv derivation, the checksum. -/

namespace Sys2Proof.Machine

/-- `pad` of R153. -/
def pad (s : Bytes) : Bytes :=
  let n := 16 - s.length % 16
  s ++ List.replicate n (BitVec.ofNat 8 n)

/-- `unpad` of R154. -/
def unpad (check : PadCheck) (q : Bytes) : Except ErrorCode Bytes :=
  if q.length = 0 then .error .decPad
  else
    let n := (q.getD (q.length - 1) 0).toNat
    if n = 0 ∨ 16 < n then .error .decPad
    else if check = .strict ∧ q.drop (q.length - n) ≠ List.replicate n (BitVec.ofNat 8 n) then .error .decPad
    else .ok (q.take (q.length - n))

/-- The 16-byte blocks of a string whose length is a multiple of 16 (R152, R155). -/
def toBlocks (s : Bytes) : List Block := (pieces 16 (s.length / 16) s).map fun b => rd128 b 0

/-- The byte string of a list of blocks. -/
def ofBlocks (bs : List Block) : Bytes := bs.flatMap be128

/-- The chain of R155: `v` is the ciphertext block before. -/
def cbcEncBlocks (p : Params) (k : Block) : Block → List Block → List Block
  | _, [] => []
  | v, b :: bs => p.enc k (b ^^^ v) :: cbcEncBlocks p k (p.enc k (b ^^^ v)) bs

/-- The chain of R156: `v` is the ciphertext block before. -/
def cbcDecBlocks (p : Params) (k : Block) : Block → List Block → List Block
  | _, [] => []
  | v, c :: cs => (p.dec k c ^^^ v) :: cbcDecBlocks p k c cs

/-- `CBCEnc` of R155. -/
def cbcEnc (p : Params) (k v : Block) (s : Bytes) : Bytes := ofBlocks (cbcEncBlocks p k v (toBlocks s))

/-- `CBCDec` of R156. -/
def cbcDec (p : Params) (k v : Block) (s : Bytes) : Bytes := ofBlocks (cbcDecBlocks p k v (toBlocks s))

/-- `Encrypt` of R157. -/
def encryptBytes (p : Params) (k v : Block) (s : Bytes) : Bytes := cbcEnc p k v (pad s)

/-- `Decrypt` of R157: the length test comes first. -/
def decryptBytes (p : Params) (k v : Block) (c : Bytes) : Except ErrorCode Bytes :=
  if c.length % 16 ≠ 0 then .error .decAlign else unpad p.padCheck (cbcDec p k v c)

/-- `KeyOf` of R161. -/
def keyOf (p : Params) (t : Block) : Block := p.digest (be128 t)

/-- `IvOf` of R161. -/
def ivOf (p : Params) (t : Block) : Block := p.digest (be128 (keyOf p t) ++ be128 t)

/-- `Cksum` of R162, `h` the 16-byte header prefix (C1). -/
def cksum (p : Params) (h : Bytes) (t : Block) (body : Bytes) : Block := p.digest (h ++ be128 t ++ body)

end Sys2Proof.Machine
end

