-- ==== Sys2Proof/Machine/Ops.lean ====
section
/-! DEFINITION. The named operations over the buffers and registers: reading and writing bytes, issuing a command
(R36), completing one (R335) and the Reset event (R380).  An error of a command is what other machines call an
exception: `complete` is the one operation that reports it (R330, R335), and there is no return from it (R346). -/

namespace Sys2Proof.Machine

/-- The byte stored at index `i`, if one is. -/
def Memory.lookup : Memory → Nat → Option Byte
  | [], _ => none
  | (a, b) :: m, i => if i = a then some b else Memory.lookup m i

/-- The cells of a string that lies at index `a`. -/
def cellsFrom : Nat → Bytes → Memory
  | _, [] => []
  | a, b :: bs => (a, b) :: cellsFrom (a + 1) bs

/-- Store the string `bs` at indexes `a` to `a + len - 1`; every other byte keeps its value (R11). -/
def Memory.write (m : Memory) (a : Nat) (bs : Bytes) : Memory :=
  m.filter (fun c => decide (c.1 < a)) ++ cellsFrom a bs ++ m.filter (fun c => decide (a + bs.length ≤ c.1))

/-- The buffer named `b`. -/
def State.buffer (s : State) : Buffer → Memory
  | .input => s.inBuf
  | .output => s.outBuf

/-- What a byte that nothing has written since reset reads as: a free value (R93; log 3). -/
def State.unwritten (s : State) (b : Buffer) (i : Nat) : Byte := Config.freeByte b i s.draws

/-- Byte `i` of a buffer (R52, R93). -/
def State.readByte (s : State) (b : Buffer) (i : Nat) : Byte := ((s.buffer b).lookup i).getD (s.unwritten b i)

/-- `MemRead(b, a, n)` of R11. -/
def State.memRead (s : State) (b : Buffer) (a n : Nat) : Bytes := (List.range n).map fun i => s.readByte b (a + i)

/-- The word at byte `i` of a buffer, as the bus reads it (R88, R89). -/
def State.readWord (s : State) (b : Buffer) (i : Nat) : Word := rd32 (s.memRead b i 4) 0

/-- `MemWrite(OUT, 0, len, bs)` and `OUT_LEN <- len` (R11, R40, R92). -/
def State.writeOut (s : State) (bs : Bytes) : State :=
  { s with outBuf := s.outBuf.write 0 bs, outLen := BitVec.ofNat 16 bs.length }

/-- `IN[i:i+4] <- be32(d)` (R88). -/
def State.writeInWord (s : State) (i : Nat) (d : Word) : State := { s with inBuf := s.inBuf.write i (be32 d) }

/-- `IN_LEN <- v` (R38). -/
def State.setInLen (s : State) (v : Half) : State := { s with inLen := v }

/-- `OUT_CAP <- v` (R39). -/
def State.setOutCap (s : State) (v : Half) : State := { s with outCap := v }

/-- `DIGEST <- v` (R50). -/
def State.setDigest (s : State) (v : Block) : State := { s with digest := v }

/-- `HS_VALID <- v` (R33). -/
def State.setHsValid (s : State) (v : Bool) : State := { s with hsValid := v }

/-- The events still to come after this one (log 1). -/
def State.setEvents (s : State) (rest : List Event) : State := { s with events := rest }

/-- The bus answers `r` (R82; log 5). -/
def State.addReply (s : State) (r : Reply) : State := { s with replies := r :: s.replies }

/-- The next draw of unwritten bytes (R93; log 4). -/
def State.tick (s : State) : State := { s with draws := s.draws + 1 }

/-- A write of `w` to CMD while BUSY = 0 issues it, unchecked (R36, R332). -/
def State.issue (s : State) (w : Word) : State := { s with cmdLatch := w, busy := true, done := false, err := false }

/-- The command in flight (R53). -/
def State.fetch (s : State) : Except DecodeError Instr := decode s.cmdLatch

/-- What a completion reports: RESULT, ERR if the code is not 0, BUSY and DONE (R335, R37); after it unwritten bytes are
drawn anew (log 4). -/
def State.reporting (s : State) (opc : Byte) (v : Bool) (code : Byte) : State :=
  { s with
    resOpc := opc
    resV := v
    resCode := code
    err := if code ≠ 0 then true else s.err
    busy := false
    done := true
    draws := s.draws + 1 }

/-- What every completion of the command word `w` writes: RESULT.OPC is w[7:0] and RESULT.V is w[8] (R335). -/
def State.finish (s : State) (w : Word) (code : Byte) : State := s.reporting (w.extractLsb' 0 8) (w.getLsbD 8) code

/-- What a failed command leaves: every staged write discarded (R12), and HS_VALID cleared by PARSEHELLO (R263). -/
def State.discard (s : State) (i : Instr) : State := if i = .parseHello then s.setHsValid false else s

/-- The completion step of R335 for the command `i` whose pseudocode gave `r`: the staged writes, or an error code. -/
def complete (i : Instr) (s : State) (r : Except ErrorCode State) : Host.Outcome State Fault Refusal :=
  match r with
  | .ok t => .next (t.finish (encode i) 0)
  | .error e => .next ((s.discard i).finish (encode i) (errorByte e))

/-- The completion step of R335 for an illegal word: code 0x4F and no other effect (R124; log 10). -/
def completeIllegal (s : State) : Host.Outcome State Fault Refusal :=
  .next (s.finish s.cmdLatch (errorByte .illegalCmd))

/-- The Reset event (R380, R382, R383); what is to come and what was replied are the host's, not the block's (log 13). -/
def State.resetBlock (s : State) : State :=
  { State.reset with events := s.events, replies := s.replies, draws := s.draws + 1 }

end Sys2Proof.Machine
end

