-- ==== Sys2Proof/Machine/Operands.lean ====
section
/-! DEFINITION. The operands of the commands (R125): the input string, the length bounds, the staged token, the frame
fields, and the forms in which a command delivers its output. -/

namespace Sys2Proof.Machine

/-- `MemRead(IN, 0, IN_LEN)`: the input of a command (R11, R91). -/
def State.input (s : State) : Bytes := s.memRead .input 0 s.inLen.toNat

/-- `IN_LEN` > `BUF_BYTES` (R343). -/
def State.inTooLong (p : Params) (s : State) : Bool := decide (p.bufBytes < s.inLen.toNat)

/-- `OUT_CAP` > `BUF_BYTES` (R343). -/
def State.capTooLong (p : Params) (s : State) : Bool := decide (p.bufBytes < s.outCap.toNat)

/-- The staged token be32(TOKEN0) ‖ be32(TOKEN1) ‖ be32(TOKEN2) ‖ be32(TOKEN3) (R42). -/
def State.stagedToken (s : State) : Block := s.token0 ++ s.token1 ++ s.token2 ++ s.token3

/-- What DERIVE and CLOSE both clear: the staging words, their mask and the handshake result (R33, R42, R46). -/
def State.clearLink (s : State) : State :=
  { s with hsValid := false, tokenWr := 0, token0 := 0, token1 := 0, token2 := 0, token3 := 0, devid := 0, stamp := 0 }

/-- The connection of token `t` with key `k` and iv `v` is open (R32, R43, R44, R45). -/
def State.openLink (s : State) (t k v : Block) : State := { s with conn := true, tok := t, key := k, iv := v }

/-- The connection is closed and its secrets are cleared (R32, R43, R44, R45, R50). -/
def State.closeLink (s : State) : State := { s with conn := false, tok := 0, key := 0, iv := 0, digest := 0 }

/-- The handshake result is stored and valid (R33, R46). -/
def State.storeHandshake (s : State) (id st : Word) : State := { s with devid := id, stamp := st, hsValid := true }

/-- `HeaderPrefix(b)` of R242, for a body of `len` bytes. -/
def headerPrefix (p : Params) (s : State) (len : Nat) : Bytes :=
  be16 0x2131 ++ be16 (BitVec.ofNat 16 (32 + len)) ++ be32 p.hdrRsvd ++ be32 s.devid ++ be32 s.stamp

/-- The checksum that goes into the frame of body `b` (R162, R247). -/
def bodyCksum (p : Params) (s : State) (b : Bytes) : Block := cksum p (headerPrefix p s b.length) s.tok b

/-- The frame h ‖ ck ‖ b of R247 and R300. -/
def frameOf (p : Params) (s : State) (b : Bytes) : Bytes :=
  headerPrefix p s b.length ++ be128 (bodyCksum p s b) ++ b

/-- `FrameCksum(f)` of R240. -/
def frameCksum (p : Params) (s : State) (f : Bytes) : Block :=
  cksum p (slice f 0 16) s.tok (slice f 32 f.length)

/-- The probe of R280. -/
def probeBytes : Bytes := [0x21, 0x31, 0x00, 0x20] ++ List.replicate 28 0xFF

/-- The RX registers from the header of the frame `f` (R47, R48, R49, R250). -/
def State.latchHeader (s : State) (f : Bytes) : State :=
  { s with
    rxMagic := rd16 f 0
    rxTotlen := rd16 f 2
    rxDevid := rd32 f 8
    rxStamp := rd32 f 12
    rxCksum := rd128 f 16 }

/-- The capacity guard and the output of R39, R40: 0x43 if the output is longer than OUT_CAP, as the pseudocode of each
command tests it.  For SEAL this is the model's choice (DEDUCED, log 23): a corner case of R300 names 4047 as the largest
plaintext for OUT_CAP = 4096, where this test and that rule's own inequality admit up to 4063. -/
def State.emit (s : State) (out : Bytes) : Except ErrorCode State :=
  if s.outCap.toNat < out.length then .error .outCap else .ok (s.writeOut out)

/-- Deliver the frame of body `b`, its checksum to DIGEST, and use up the handshake (R247, R300). -/
def State.emitFrame (p : Params) (s : State) (b : Bytes) : Except ErrorCode State :=
  match s.emit (frameOf p s b) with
  | .error e => .error e
  | .ok t => .ok (t.setDigest (bodyCksum p s b)).consumeHandshake

/-- Deliver the plaintext of the ciphertext `c` (R221, R301). -/
def State.emitPlain (p : Params) (s : State) (c : Bytes) : Except ErrorCode State :=
  match decryptBytes p s.key s.iv c with
  | .error e => .error e
  | .ok q => s.emit q

end Sys2Proof.Machine
end

