-- ==== Sys2Proof/Machine/Connection.lean ====
section
/-! DEFINITION. DERIVE and CLOSE (41_key_derivation.md). -/

namespace Sys2Proof.Machine

/-- `exec DERIVE` of R200. -/
def deriveBody (p : Params) (s : State) : Except ErrorCode State :=
  if s.tokenWr ≠ 0b1111 then .error .invalidToken
  else .ok (s.clearLink.openLink s.stagedToken (keyOf p s.stagedToken) (ivOf p s.stagedToken))

/-- `exec CLOSE` of R202. -/
def closeBody (s : State) : Except ErrorCode State :=
  if s.conn = false then .error .closed
  else .ok s.clearLink.closeLink

/-- DERIVE (R200). -/
def execDerive (s : State) : Host.Outcome State Fault Refusal := complete .derive s (deriveBody hw s)

/-- CLOSE (R202). -/
def execClose (s : State) : Host.Outcome State Fault Refusal := complete .close s (closeBody s)

end Sys2Proof.Machine
end

