-- ==== Sys2Proof/Machine/Frame.lean ====
section
/-! DEFINITION. MAC, ENCFRAME, DECHDR, DECHDR.V and PARSEHELLO (43_frame_codec.md). -/

namespace Sys2Proof.Machine

/-- `exec MAC` of R241. -/
def macBody (p : Params) (s : State) : Except ErrorCode State :=
  if s.conn = false then .error .closed
  else if s.inTooLong p then .error .badLen
  else if s.inLen.toNat < 32 then .error .frameShort
  else .ok (s.setDigest (frameCksum p s s.input))

/-- `exec ENCFRAME` of R247. -/
def encFrameBody (p : Params) (s : State) : Except ErrorCode State :=
  if s.conn = false then .error .closed
  else if s.inTooLong p ∨ s.capTooLong p then .error .badLen
  else if s.hsValid = false then .error .noHandshake
  else s.emitFrame p s.input

/-- `exec DECHDR` of R250; no field is validated (R252). -/
def decHdrBody (p : Params) (s : State) : Except ErrorCode State :=
  if s.conn = false then .error .closed
  else if s.inTooLong p then .error .badLen
  else if s.inLen.toNat < 32 then .error .frameShort
  else .ok (s.latchHeader s.input)

/-- `exec DECHDR.V` of R251. -/
def decHdrVBody (p : Params) (s : State) : Except ErrorCode State :=
  if s.conn = false then .error .closed
  else if s.inTooLong p then .error .badLen
  else if s.inLen.toNat < 32 then .error .frameShort
  else if be128 (frameCksum p s s.input) ≠ slice s.input 16 32 then .error .cksumMismatch
  else .ok ((s.latchHeader s.input).setDigest (frameCksum p s s.input))

/-- `exec PARSEHELLO` of R260; only bytes 8 to 15 are read (R261).  The clearing of HS_VALID on an error (R263) is part
of the completion, `State.discard`. -/
def parseHelloBody (p : Params) (s : State) : Except ErrorCode State :=
  if s.conn = false then .error .closed
  else if s.inTooLong p then .error .badLen
  else if s.inLen.toNat ≠ 32 then .error .helloLen
  else .ok (s.storeHandshake (rd32 s.input 8) (rd32 s.input 12))

/-- MAC (R241). -/
def execMac (s : State) : Host.Outcome State Fault Refusal := complete .mac s (macBody hw s)

/-- ENCFRAME (R247). -/
def execEncFrame (s : State) : Host.Outcome State Fault Refusal := complete .encFrame s (encFrameBody hw s)

/-- DECHDR (R250). -/
def execDecHdr (s : State) : Host.Outcome State Fault Refusal := complete .decHdr s (decHdrBody hw s)

/-- DECHDR.V (R251). -/
def execDecHdrV (s : State) : Host.Outcome State Fault Refusal := complete .decHdrV s (decHdrVBody hw s)

/-- PARSEHELLO (R260, R263). -/
def execParseHello (s : State) : Host.Outcome State Fault Refusal := complete .parseHello s (parseHelloBody hw s)

end Sys2Proof.Machine
end

