-- ==== Sys2Proof/Machine/Handshake.lean ====
section
/-! DEFINITION. PROBE (44_handshake.md). -/

namespace Sys2Proof.Machine

/-- `exec PROBE` of R281; IN_LEN is not read. -/
def probeBody (p : Params) (s : State) : Except ErrorCode State :=
  if s.conn = false then .error .closed
  else if s.capTooLong p then .error .badLen
  else if s.outCap.toNat < 32 then .error .outCap
  else .ok ((s.writeOut probeBytes).setHsValid false)

/-- PROBE (R281). -/
def execProbe (s : State) : Host.Outcome State Fault Refusal := complete .probe s (probeBody hw s)

end Sys2Proof.Machine
end

