-- ==== Sys2Proof/Machine/Payload.lean ====
section
/-! DEFINITION. ENCRYPT and DECRYPT (42_cipher.md). -/

namespace Sys2Proof.Machine

/-- `exec ENCRYPT` of R220. -/
def encryptBody (p : Params) (s : State) : Except ErrorCode State :=
  if s.conn = false then .error .closed
  else if s.inTooLong p ∨ s.capTooLong p then .error .badLen
  else s.emit (encryptBytes p s.key s.iv s.input)

/-- `exec DECRYPT` of R221. -/
def decryptBody (p : Params) (s : State) : Except ErrorCode State :=
  if s.conn = false then .error .closed
  else if s.inTooLong p ∨ s.capTooLong p then .error .badLen
  else s.emitPlain p s.input

/-- ENCRYPT (R220). -/
def execEncrypt (s : State) : Host.Outcome State Fault Refusal := complete .encrypt s (encryptBody hw s)

/-- DECRYPT (R221). -/
def execDecrypt (s : State) : Host.Outcome State Fault Refusal := complete .decrypt s (decryptBody hw s)

end Sys2Proof.Machine
end

