-- ==== Sys2Proof/Machine/Transport.lean ====
section
/-! DEFINITION. SEAL, OPEN and OPEN.V (45_transport.md). -/

namespace Sys2Proof.Machine

/-- `exec SEAL` of R300; with OUT_CAP = 4096 a plaintext of up to 4063 bytes is sealed (log 23). -/
def sealBody (p : Params) (s : State) : Except ErrorCode State :=
  if s.conn = false then .error .closed
  else if s.inTooLong p ∨ s.capTooLong p then .error .badLen
  else if s.hsValid = false then .error .noHandshake
  else s.emitFrame p (encryptBytes p s.key s.iv s.input)

/-- `exec OPEN` of R301; the body is IN[32:IN_LEN] (C4). -/
def openBody (p : Params) (s : State) : Except ErrorCode State :=
  if s.conn = false then .error .closed
  else if s.inTooLong p ∨ s.capTooLong p then .error .badLen
  else if s.inLen.toNat < 32 then .error .frameShort
  else match s.emitPlain p (slice s.input 32 s.inLen.toNat) with
    | .error e => .error e
    | .ok t => .ok (t.latchHeader s.input)

/-- `exec OPEN.V` of R302; the checksum is verified before any decryption. -/
def openVBody (p : Params) (s : State) : Except ErrorCode State :=
  if s.conn = false then .error .closed
  else if s.inTooLong p ∨ s.capTooLong p then .error .badLen
  else if s.inLen.toNat < 32 then .error .frameShort
  else if be128 (frameCksum p s s.input) ≠ slice s.input 16 32 then .error .cksumMismatch
  else match s.emitPlain p (slice s.input 32 s.inLen.toNat) with
    | .error e => .error e
    | .ok t => .ok ((t.latchHeader s.input).setDigest (frameCksum p s s.input))

/-- SEAL (R300). -/
def execSeal (s : State) : Host.Outcome State Fault Refusal := complete .sealFrame s (sealBody hw s)

/-- OPEN (R301). -/
def execOpen (s : State) : Host.Outcome State Fault Refusal := complete .openFrame s (openBody hw s)

/-- OPEN.V (R302). -/
def execOpenV (s : State) : Host.Outcome State Fault Refusal := complete .openFrameV s (openVBody hw s)

end Sys2Proof.Machine
end

