-- ==== Sys2Proof/Machine/Dispatch.lean ====
section
/-! DEFINITION. One arm per command: the completion step of that command (R335). -/

namespace Sys2Proof.Machine

def exec (i : Instr) (s : State) : Host.Outcome State Fault Refusal :=
  match i with
  | .derive => Sys2Proof.Machine.execDerive s
  | .close => Sys2Proof.Machine.execClose s
  | .encrypt => Sys2Proof.Machine.execEncrypt s
  | .decrypt => Sys2Proof.Machine.execDecrypt s
  | .mac => Sys2Proof.Machine.execMac s
  | .encFrame => Sys2Proof.Machine.execEncFrame s
  | .decHdr => Sys2Proof.Machine.execDecHdr s
  | .decHdrV => Sys2Proof.Machine.execDecHdrV s
  | .parseHello => Sys2Proof.Machine.execParseHello s
  | .probe => Sys2Proof.Machine.execProbe s
  | .sealFrame => Sys2Proof.Machine.execSeal s
  | .openFrame => Sys2Proof.Machine.execOpen s
  | .openFrameV => Sys2Proof.Machine.execOpenV s

end Sys2Proof.Machine
end

