-- ==== Sys2Proof/Machine/Bus.lean ====
section
/-! DEFINITION. The bus: the address map (R22, R80, R81), reads and writes (R82 to R90), and the effect of a write
while a command is in flight (R344, R345). -/

namespace Sys2Proof.Machine

/-- The offset of a register (R22). -/
def regOffset : Reg → Nat
  | .id => 0x000
  | .ctrl => 0x004
  | .status => 0x008
  | .cmd => 0x00C
  | .result => 0x010
  | .inLen => 0x014
  | .outCap => 0x018
  | .outLen => 0x01C
  | .token k => 0x020 + 4 * k.val
  | .key k => 0x030 + 4 * k.val
  | .iv k => 0x040 + 4 * k.val
  | .devid => 0x050
  | .stamp => 0x054
  | .rxMagic => 0x058
  | .rxTotlen => 0x05C
  | .rxDevid => 0x060
  | .rxStamp => 0x064
  | .rxCksum k => 0x068 + 4 * k.val
  | .digest k => 0x078 + 4 * k.val
  | .bufsize => 0x088

/-- Every register of the map, in the order of its offset (R22). -/
def allRegs : List Reg :=
  [.id, .ctrl, .status, .cmd, .result, .inLen, .outCap, .outLen,
   .token 0, .token 1, .token 2, .token 3, .key 0, .key 1, .key 2, .key 3, .iv 0, .iv 1, .iv 2, .iv 3,
   .devid, .stamp, .rxMagic, .rxTotlen, .rxDevid, .rxStamp,
   .rxCksum 0, .rxCksum 1, .rxCksum 2, .rxCksum 3, .digest 0, .digest 1, .digest 2, .digest 3, .bufsize]

/-- The register at an offset, if one is (R22). -/
def regAt (off : Nat) : Option Reg := allRegs.find? fun r => regOffset r == off

/-- What the offset `off` names in the address map of R81; nothing if it is reserved. -/
def targetAt (p : Params) (off : Nat) : Option Target :=
  if off < 0x4000 then (regAt off).map .reg
  else if off < 0x4000 + p.bufBytes then some (.inAt (off - 0x4000))
  else if off < 0x8000 then none
  else if off < 0x8000 + p.bufBytes then some (.outAt (off - 0x8000))
  else none

/-- The target of a transaction: nothing if its size is not 4 (R83), its offset is not a multiple of 4 (R84) or its
offset is reserved (R85). -/
def busTarget (p : Params) (off : BitVec 16) (size : Nat) : Option Target :=
  if size ≠ 4 then none
  else if off.toNat % 4 ≠ 0 then none
  else targetAt p off.toNat

/-- The registers with a writable field (R86). -/
def regWritable : Reg → Bool
  | .ctrl => true
  | .status => true
  | .cmd => true
  | .inLen => true
  | .outCap => true
  | .token _ => true
  | _ => false

/-- The value a register reads as (R87): write-only registers read 0, reserved bits read 0. -/
def State.readReg (p : Params) (s : State) : Reg → Word
  | .id => 0x4D434531
  | .ctrl => s.ctrlWord
  | .status => s.statusWord
  | .cmd => 0
  | .result => s.resultWord
  | .inLen => s.inLen.setWidth 32
  | .outCap => s.outCap.setWidth 32
  | .outLen => s.outLen.setWidth 32
  | .token _ => 0
  | .key k => wordOf s.key k.val
  | .iv k => wordOf s.iv k.val
  | .devid => s.devid
  | .stamp => s.stamp
  | .rxMagic => s.rxMagic.setWidth 32
  | .rxTotlen => s.rxTotlen.setWidth 32
  | .rxDevid => s.rxDevid
  | .rxStamp => s.rxStamp
  | .rxCksum k => wordOf s.rxCksum k.val
  | .digest k => wordOf s.digest k.val
  | .bufsize => BitVec.ofNat 32 p.bufBytes

/-- `BusRead(off, size)` (R82): it returns a value or BUSERR and changes nothing (R95). -/
def busRead (p : Params) (s : State) (off : BitVec 16) (size : Nat) : Reply :=
  match busTarget p off size with
  | none => .busErr
  | some (.reg r) => .data (s.readReg p r)
  | some (.inAt i) => .data (s.readWord .input i)
  | some (.outAt i) => .data (s.readWord .output i)

/-- A write of `d` to `TOKENk` while BUSY = 0 (R42). -/
def State.setToken (s : State) (k : Fin 4) (d : Word) : State :=
  match k with
  | 0 => { s with token0 := d, tokenWr := s.tokenWr ||| 0b0001 }
  | 1 => { s with token1 := d, tokenWr := s.tokenWr ||| 0b0010 }
  | 2 => { s with token2 := d, tokenWr := s.tokenWr ||| 0b0100 }
  | 3 => { s with token3 := d, tokenWr := s.tokenWr ||| 0b1000 }

/-- A write to an input: dropped with BUSY_WR set while BUSY = 1 (R31, R345), the change `t` otherwise. -/
def State.writeInput (s t : State) : State := if s.busy then s.markBusyWrite else t

/-- The effect of a write of `d` to a writable register (R25, R35, R36, R38, R39, R42). -/
def State.writeReg (s : State) (r : Reg) (d : Word) : State :=
  match r with
  | .ctrl => s.writeInput (s.setCtrl d)
  | .status => s.ackStatus d
  | .cmd => if s.busy then s.markOverrun else s.issue d
  | .inLen => s.writeInput (s.setInLen (d.setWidth 16))
  | .outCap => s.writeInput (s.setOutCap (d.setWidth 16))
  | .token k => s.writeInput (s.setToken k d)
  | _ => s

/-- `BusWrite(off, size, d)` (R82): the state after it and the reply.  BUSERR changes nothing (R82, R86); a write that
is accepted is an event after which unwritten bytes are drawn anew (log 4). -/
def busWrite (p : Params) (s : State) (off : BitVec 16) (size : Nat) (d : Word) : State × Reply :=
  match busTarget p off size with
  | none => (s, .busErr)
  | some (.reg r) => if regWritable r then ((s.writeReg r d).tick, .ok) else (s, .busErr)
  | some (.inAt i) => ((s.writeInput (s.writeInWord i d)).tick, .ok)
  | some (.outAt _) => (s, .busErr)

/-- The bus address of an offset (R22, R80). -/
def busAddress (p : Params) (off : BitVec 16) : Nat := p.base + off.toNat

/-- The offset that a bus address names in this block, if it lies in the block's 64 KiB (R80). -/
def offsetOf (p : Params) (addr : Nat) : Option (BitVec 16) :=
  if p.base ≤ addr ∧ addr < p.base + 65536 then some (BitVec.ofNat 16 (addr - p.base)) else none

end Sys2Proof.Machine
end

