-- ==== Sys2Proof/Machine/Events.lean ====
section
/-! DEFINITION. Which event happens next and what it does, but for the command that a completion runs (R331, R334).
The events to come are plain data in the state, so a claim about every state covers every order of events (log 1). -/

namespace Sys2Proof.Machine

/-- The outcome of taking the next event: the block has changed, or the engine is to complete the command in flight. -/
inductive Turn
  | done (s : State)
  | run (s : State)
deriving DecidableEq, Repr

/-- The engine's move: enabled only while BUSY = 1 (R331); otherwise nothing happens (log 2). -/
def State.engineTurn (s : State) : Turn := if s.busy then .run s else .done s

/-- The next event of the list (R331).  When the list has run out the host does nothing more: the command in flight,
if there is one, completes (R334); otherwise nothing happens (log 1). -/
def nextTurn (p : Params) (s : State) : Turn :=
  match s.events with
  | [] => s.engineTurn
  | .complete :: rest => (s.setEvents rest).engineTurn
  | .reset :: rest => .done (s.setEvents rest).resetBlock
  | .read off size :: rest => .done ((s.setEvents rest).addReply (busRead p s off size))
  | .write off size d :: rest => .done (((busWrite p s off size d).1.setEvents rest).addReply (busWrite p s off size d).2)

end Sys2Proof.Machine
end

