-- ==== Sys2Proof/Machine/Step.lean ====
section
/-! DEFINITION. One step: the next event of the list (R331).  A completion runs the command in flight through `exec`,
or reports 0x4F if its word is illegal (R335). -/

namespace Sys2Proof.Machine

def step (s : State) : Host.Outcome State Fault Refusal :=
  match nextTurn hw s with
  | .done t => .next t
  | .run t =>
    match t.fetch with
    | .ok i => exec i t
    | .error _ => completeIllegal t

/-- `s` with the command word `w` issued (R36) and its completion the next event.  The block fetches nothing (R101): a
command reaches it only as a word written to CMD, so this stands for that bus write (log 9). -/
def State.withFetchWord (s : State) (nbits w : Nat) : State :=
  { s.issue (BitVec.ofNat 32 (w % 2 ^ nbits)) with events := .complete :: s.events }

end Sys2Proof.Machine
end

