-- ==== Sys2Proof/WellFormed.lean ====
section
/-! DEFINITION. What is well formed: the fields of a command word, the offset and size of a bus transaction, and the
parameters of an implementation.  These checks are written from the rules that state them and are independent of the
decoder and of the bus, which are held against them. -/

namespace Sys2Proof

/-- The operation codes of R123. -/
def legalOpcs : List (BitVec 8) := [0x01, 0x02, 0x10, 0x11, 0x20, 0x21, 0x22, 0x23, 0x30, 0x40, 0x41]

/-- The operation codes with which V = 1 is legal (R120, R123). -/
def verifyOpcs : List (BitVec 8) := [0x22, 0x41]

/-- `legal` of R123 on the fields of a word: the reserved bits are 0, the operation code is one of the map, and V is set
only where it may be. -/
def Cmd32.wellFormed (c : Cmd32) : Bool :=
  c.rsvd == 0 && legalOpcs.contains c.opc && (!c.v || verifyOpcs.contains c.opc)

/-- `legal(w)` of R123, on the word itself. -/
def legalWord (w : Word) : Bool :=
  w.extractLsb' 9 23 == 0 && legalOpcs.contains (w.extractLsb' 0 8) &&
    (w.getLsbD 8 == false || verifyOpcs.contains (w.extractLsb' 0 8))

/-- The size and alignment of a supported transaction (R83, R84). -/
def accessWellFormed (off : BitVec 16) (size : Nat) : Bool := size == 4 && off.toNat % 4 == 0

/-- The reserved offsets of R81, as the rule's table lists them. -/
def reservedOffset (bufBytes : Nat) (off : BitVec 16) : Bool :=
  (0x008C ≤ off.toNat && off.toNat ≤ 0x3FFF) ||
  (0x4000 + bufBytes ≤ off.toNat && off.toNat ≤ 0x7FFF) ||
  (0x8000 + bufBytes ≤ off.toNat && off.toNat ≤ 0xBFFF) ||
  0xC000 ≤ off.toNat

/-- The offsets of R86 whose every write is a bus error: the registers with no writable field and the OUT window. -/
def readOnlyOffset (off : BitVec 16) : Bool :=
  off.toNat == 0x0000 || off.toNat == 0x0010 || off.toNat == 0x001C ||
  (0x0030 ≤ off.toNat && off.toNat ≤ 0x0088) || (0x8000 ≤ off.toNat && off.toNat ≤ 0xBFFF)

/-- The offsets of the inputs of R345: CTRL, IN_LEN, OUT_CAP, TOKENk and the IN window. -/
def inputOffset (bufBytes : Nat) (off : BitVec 16) : Bool :=
  off.toNat == 0x0004 || off.toNat == 0x0014 || off.toNat == 0x0018 ||
  (0x0020 ≤ off.toNat && off.toNat ≤ 0x002C) || (0x4000 ≤ off.toNat && off.toNat < 0x4000 + bufBytes)

/-- The legal values of the parameters of R5 that are numbers. -/
def Params.wellFormed (p : Params) : Bool :=
  p.base % 65536 == 0 && p.bufBytes % 16 == 0 && 64 ≤ p.bufBytes && p.bufBytes ≤ 16384

/-- The law of the cipher pair (R5, R151): `Dec128(k, Enc128(k, b)) = b`. -/
def Params.Inverse (p : Params) : Prop := ∀ k b, p.dec k (p.enc k b) = b

end Sys2Proof
end

