-- ==== Sys2Proof/Safety.lean ====
section
/-! DEFINITION. What counts as a safe state and a safe run, in the terms the claims use: the invariants, the host's
duty, the outputs of a command, and what the result of a command may depend on. -/

namespace Sys2Proof.Machine

/-- The connection invariant of R55 (it holds whether BUSY is 0 or 1). -/
def State.ConnInv (p : Params) (s : State) : Prop :=
  (s.conn = false →
    s.tok = 0 ∧ s.key = 0 ∧ s.iv = 0 ∧ s.hsValid = false ∧ s.devid = 0 ∧ s.stamp = 0) ∧
  (s.conn = true → s.key = p.digest (be128 s.tok) ∧ s.iv = p.digest (be128 s.key ++ be128 s.tok))

/-- Both buffers are in canonical form and inside their `BUF_BYTES` bytes (R52), and OUT_LEN is a length of OUT (R40). -/
def State.BufInv (p : Params) (s : State) : Prop :=
  s.inBuf.wf ∧ s.outBuf.wf ∧ s.inBuf.within p.bufBytes ∧ s.outBuf.within p.bufBytes ∧ s.outLen.toNat ≤ p.bufBytes

/-- Every value that RESULT.CODE can take (R336). -/
def allCodes : List Byte := [0x00, 0x11, 0x21, 0x22, 0x23, 0x31, 0x32, 0x41, 0x42, 0x43, 0x44, 0x4F]

/-- The codes that each command can report: the columns of the table of R339, and 0x00. -/
def codesOf : Instr → List Byte
  | .derive => [0x00, 0x11]
  | .close => [0x00, 0x41]
  | .encrypt => [0x00, 0x41, 0x44, 0x43]
  | .decrypt => [0x00, 0x41, 0x44, 0x31, 0x32, 0x43]
  | .mac => [0x00, 0x41, 0x44, 0x21]
  | .encFrame => [0x00, 0x41, 0x44, 0x42, 0x43]
  | .decHdr => [0x00, 0x41, 0x44, 0x21]
  | .decHdrV => [0x00, 0x41, 0x44, 0x21, 0x23]
  | .parseHello => [0x00, 0x41, 0x44, 0x22]
  | .probe => [0x00, 0x41, 0x44, 0x43]
  | .sealFrame => [0x00, 0x41, 0x44, 0x42, 0x43]
  | .openFrame => [0x00, 0x41, 0x44, 0x21, 0x31, 0x32, 0x43]
  | .openFrameV => [0x00, 0x41, 0x44, 0x21, 0x23, 0x31, 0x32, 0x43]

/-- The commands that write OUT on success (R40, R125). -/
def writesOut : Instr → Bool
  | .encrypt => true
  | .decrypt => true
  | .encFrame => true
  | .probe => true
  | .sealFrame => true
  | .openFrame => true
  | .openFrameV => true
  | _ => false

/-- From `s` to `t` exactly the string `out` was written to OUT, at its start, and OUT_LEN is its length (R40, R92). -/
def Delivers (s t : State) (out : Bytes) : Prop :=
  t.outLen.toNat = out.length ∧ t.memRead .output 0 out.length = out ∧
    ∀ a, out.length ≤ a → t.outBuf.lookup a = s.outBuf.lookup a

/-- `q` is `body` followed by valid padding: n bytes equal to n, 1 ≤ n ≤ 16 (R153, R154 with `PAD_CHECK` = `STRICT`). -/
def Padded (q body : Bytes) : Prop :=
  ∃ n, 1 ≤ n ∧ n ≤ 16 ∧ q = body ++ List.replicate n (BitVec.ofNat 8 n)

/-- The frame in IN carries the checksum of its header prefix, the token and its body in bytes 16 to 31 (R240). -/
def CksumMatches (p : Params) (s : State) : Prop :=
  be128 (p.digest (slice s.input 0 16 ++ be128 s.tok ++ slice s.input 32 s.inLen.toNat)) = slice s.input 16 32

/-- The RX registers of `t` hold the header of the frame in IN of `s` (R47, R48, R49). -/
def HeaderLatched (s t : State) : Prop :=
  t.rxMagic = rd16 s.input 0 ∧ t.rxTotlen = rd16 s.input 2 ∧ t.rxDevid = rd32 s.input 8 ∧
    t.rxStamp = rd32 s.input 12 ∧ t.rxCksum = rd128 s.input 16

/-- Both lengths that a command with input and output checks are within the buffers (R343). -/
def State.LengthsFit (p : Params) (s : State) : Prop := s.inLen.toNat ≤ p.bufBytes ∧ s.outCap.toNat ≤ p.bufBytes

/-- The inputs of a command agree (R333): every register that R333 lists, and the input string IN[0:IN_LEN] (R91). -/
def InputsAgree (s s' : State) : Prop :=
  s.conn = s'.conn ∧ s.hsValid = s'.hsValid ∧ s.hsOneshot = s'.hsOneshot ∧ s.tokenWr = s'.tokenWr ∧
  s.token0 = s'.token0 ∧ s.token1 = s'.token1 ∧ s.token2 = s'.token2 ∧ s.token3 = s'.token3 ∧
  s.tok = s'.tok ∧ s.key = s'.key ∧ s.iv = s'.iv ∧ s.devid = s'.devid ∧ s.stamp = s'.stamp ∧
  s.inLen = s'.inLen ∧ s.outCap = s'.outCap ∧ s.input = s'.input

/-- The next event is the engine's completion of the command in flight (R331): it is next in the list, or the list has
run out (log 1); `rest` is what is to come after it. -/
def State.CompletesNext (s : State) (rest : List Event) : Prop :=
  s.busy = true ∧ (s.events = .complete :: rest ∨ s.events = [] ∧ rest = [])

/-- The host's duty of R390 for the next event: it writes neither CMD nor an input while a command is in flight. -/
def State.HostWaits (s : State) : Prop :=
  ∀ off size d rest, s.events = .write off size d :: rest → s.busy = true →
    off ≠ 0x000C ∧ inputOffset hw.bufBytes off = false

/-- The program of the host meets no illegal word (U12): the premise "no 0x4F result" of a claim about a program. -/
def State.NoIllegalWord (s : State) : Prop := s.busy = true → legalWord s.cmdLatch = true

end Sys2Proof.Machine
end

