-- ==== Sys2Proof/Certificates/Slice0/Obligations.lean ====
section
/-! DEFINITION. The statements for the provers.  A statement about every state holds in states that no run reaches
too.  `hw` are the parameters of this hardware (R5).  `s.reporting opc v code` is the report of a completion (RESULT,
ERR, BUSY, DONE; R335).  An equation `t = { s with ... }.reporting ...` names every field that changes, so it is the
frame of the command too; a byte of a buffer is read with `Memory.lookup`, which gives none where nothing was written
(R93).  The fields `events`, `replies` and `draws` are the model's own (logs 1, 4, 5): that `draws` advances is the
model's bookkeeping, no rule of the spec. -/

open Sys2Proof Sys2Proof.Machine

/-! ## Encoding -/

/-- R122: the 13 words and what they decode to. -/
def Obligations.TableWordsDecode : Prop :=
  decode 0x00000001 = .ok .derive ∧ decode 0x00000002 = .ok .close ∧ decode 0x00000010 = .ok .encrypt ∧
  decode 0x00000011 = .ok .decrypt ∧ decode 0x00000020 = .ok .mac ∧ decode 0x00000021 = .ok .encFrame ∧
  decode 0x00000022 = .ok .decHdr ∧ decode 0x00000122 = .ok .decHdrV ∧ decode 0x00000023 = .ok .parseHello ∧
  decode 0x00000030 = .ok .probe ∧ decode 0x00000040 = .ok .sealFrame ∧ decode 0x00000041 = .ok .openFrame ∧
  decode 0x00000141 = .ok .openFrameV

/-- R120, R121: a word decodes to a command exactly if it is that command's word, and so for the four bytes of the
word in any string (their order is the model's reading of R90, log 15). -/
def Obligations.DecodeAndEncodeAgree : Prop :=
  (∀ w i, decode w = .ok i ↔ w = encode i) ∧
  (∀ i rest, decodeBytes (encodeBytes i ++ rest) = .ok (i, rest)) ∧
  (∀ s i rest, decodeBytes s = .ok (i, rest) → s = encodeBytes i ++ rest)

/-- R123: the legal words are exactly the 13 words of R122, and exactly those the decoder accepts. -/
def Obligations.LegalWordsAreTheThirteen : Prop :=
  ∀ w : Word,
    (legalWord w = true ↔ w ∈ [0x00000001#32, 0x00000002, 0x00000010, 0x00000011, 0x00000020, 0x00000021, 0x00000022,
      0x00000122, 0x00000023, 0x00000030, 0x00000040, 0x00000041, 0x00000141]) ∧
    (legalWord w = true ↔ ∃ i, decode w = .ok i)

/-! ## Steps and events -/

/-- R335: when the engine's completion is the next event and the command word in flight decodes to `i`, the step is
`exec i`, with that event taken off the list. -/
def Obligations.StepRunsTheCommandInFlight : Prop :=
  ∀ (s : State) (rest : List Event) (i : Instr), s.CompletesNext rest → decode s.cmdLatch = .ok i →
    step s = exec i { s with events := rest }

/-- R124: an illegal word is issued like any other, and completes with 0x4F and no other effect. -/
def Obligations.IllegalWordOnlyReports : Prop :=
  (∀ (s : State) (w : Word), s.busy = false →
    (busWrite hw s 0x000C 4 w).2 = .ok ∧ (busWrite hw s 0x000C 4 w).1.cmdLatch = w ∧
      (busWrite hw s 0x000C 4 w).1.busy = true) ∧
  (∀ (s : State) (rest : List Event), s.CompletesNext rest → legalWord s.cmdLatch = false →
    step s = .next ({ s with events := rest }.reporting (s.cmdLatch.extractLsb' 0 8) (s.cmdLatch.getLsbD 8) 0x4F))

/-- R95: a bus read changes nothing but the model's own list of replies, and reading the same offset again with no event
between gives the same reply. -/
def Obligations.BusReadChangesNothing : Prop :=
  ∀ (s : State) (off : BitVec 16) (size : Nat) (rest : List Event),
    (s.events = .read off size :: rest →
      step s = .next { s with events := rest, replies := busRead hw s off size :: s.replies }) ∧
    (s.events = .read off size :: .read off size :: rest → ∃ t u, step s = .next t ∧ step t = .next u ∧
      u.replies = busRead hw s off size :: busRead hw s off size :: s.replies)

/-- R82: a bus write is one step that gives a reply, and a write that returns BUSERR changes no state of the block. -/
def Obligations.BusWriteStep : Prop :=
  ∀ (s : State) (off : BitVec 16) (size : Nat) (d : Word) (rest : List Event),
    s.events = .write off size d :: rest →
      ((busWrite hw s off size d).2 = .ok ∨ (busWrite hw s off size d).2 = .busErr) ∧
      ((busWrite hw s off size d).2 = .ok → step s = .next { (busWrite hw s off size d).1 with
        events := rest, replies := .ok :: s.replies }) ∧
      ((busWrite hw s off size d).2 = .busErr → step s = .next { s with
        events := rest, replies := .busErr :: s.replies })

/-- R83, R84, R85: a transaction returns BUSERR if its size is not 4, its offset is misaligned or its offset is
reserved; a read in no other case, a write in no other case but a read-only register or the OUT window (R86). -/
def Obligations.BusErrorsAreExactlyThese : Prop :=
  ∀ (s : State) (off : BitVec 16) (size : Nat) (d : Word),
    (busRead hw s off size = .busErr ↔
      accessWellFormed off size = false ∨ reservedOffset hw.bufBytes off = true) ∧
    ((busWrite hw s off size d).2 = .busErr ↔
      accessWellFormed off size = false ∨ reservedOffset hw.bufBytes off = true ∨ readOnlyOffset off = true)

/-- R344, R345: what a write does while a command is in flight; and that a write to a read-only register or to OUT
returns BUSERR whether or not the block is busy. -/
def Obligations.WritesWhileBusyAreDropped : Prop :=
  (∀ (s : State) (off : BitVec 16) (d : Word), s.busy = true →
    busWrite hw s 0x000C 4 d = ({ s with cmdOvr := true, draws := s.draws + 1 }, .ok) ∧
    (off.toNat % 4 = 0 → inputOffset hw.bufBytes off = true →
      busWrite hw s off 4 d = ({ s with busyWr := true, draws := s.draws + 1 }, .ok)) ∧
    (∃ t, busWrite hw s 0x0008 4 d = (t, .ok) ∧ t.statusWord = s.statusWord &&& ~~~(d &&& 0x1E))) ∧
  (∀ (s : State) (off : BitVec 16) (d : Word), readOnlyOffset off = true → busWrite hw s off 4 d = (s, .busErr))

/-- R53: from issue to completion no bus transaction changes a register or buffer byte that a command reads or writes,
nor the command in flight. -/
def Obligations.InputsFrozenWhileBusy : Prop :=
  ∀ (s t : State), s.busy = true →
    ((∃ off size rest, s.events = .read off size :: rest) ∨
      (∃ off size d rest, s.events = .write off size d :: rest)) →
    step s = .next t →
    t = { s with
      done := t.done, err := t.err, cmdOvr := t.cmdOvr, busyWr := t.busyWr,
      events := t.events, replies := t.replies, draws := t.draws }

/-- R390, R391: a host that waits for completion never loses a write: neither sticky flag becomes set. -/
def Obligations.WaitingHostLosesNoWrite : Prop :=
  ∀ s t : State, s.HostWaits → step s = .next t →
    (t.cmdOvr = true → s.cmdOvr = true) ∧ (t.busyWr = true → s.busyWr = true)

/-! ## Registers, windows and flags -/

/-- R25: a write to CTRL, and what CTRL then reads. -/
def Obligations.ControlRegisterWrite : Prop :=
  ∀ (s : State) (d : Word),
    (s.busy = false → ∃ t, busWrite hw s 0x0004 4 d = (t, .ok) ∧ busRead hw t 0x0004 4 = .data (d &&& 3) ∧
      t = { s with irqEn := d.getLsbD 0, hsOneshot := d.getLsbD 1, draws := s.draws + 1 }) ∧
    (s.busy = true → busWrite hw s 0x0004 4 d = ({ s with busyWr := true, draws := s.draws + 1 }, .ok))

/-- R35: a write to STATUS clears the flags of bits 1 to 4 that it has set and changes nothing else, whether BUSY is 0
or 1. -/
def Obligations.StatusWriteClearsFlags : Prop :=
  ∀ (s : State) (d : Word), ∃ t, busWrite hw s 0x0008 4 d = (t, .ok) ∧
    t.statusWord = s.statusWord &&& ~~~(d &&& 0x1E) ∧
    t = { s with done := t.done, err := t.err, cmdOvr := t.cmdOvr, busyWr := t.busyWr, draws := s.draws + 1 }

/-- R36: CMD reads 0; a write issues the word while BUSY = 0 and only sets CMD_OVR while BUSY = 1. -/
def Obligations.CommandIssue : Prop :=
  ∀ (s : State) (d : Word),
    busRead hw s 0x000C 4 = .data 0 ∧
    (s.busy = false → busWrite hw s 0x000C 4 d =
      ({ s with cmdLatch := d, busy := true, done := false, err := false, draws := s.draws + 1 }, .ok)) ∧
    (s.busy = true → busWrite hw s 0x000C 4 d = ({ s with cmdOvr := true, draws := s.draws + 1 }, .ok))

/-- R38, R39 (their register part): IN_LEN and OUT_CAP keep bits 15:0 of what is written and read back with bits 31:16
zero; nothing else changes. -/
def Obligations.LengthRegisterWrites : Prop :=
  ∀ (s : State) (d : Word), s.busy = false →
    (∃ t, busWrite hw s 0x0014 4 d = (t, .ok) ∧ busRead hw t 0x0014 4 = .data (d &&& 0xFFFF) ∧
      t = { s with inLen := t.inLen, draws := s.draws + 1 }) ∧
    (∃ t, busWrite hw s 0x0018 4 d = (t, .ok) ∧ busRead hw t 0x0018 4 = .data (d &&& 0xFFFF) ∧
      t = { s with outCap := t.outCap, draws := s.draws + 1 })

/-- R42, R34 (their bus part): a write to TOKENk sets bytes 4k to 4k+3 of the staged token and bit 12+k of STATUS, and
TOKENk reads 0. -/
def Obligations.TokenStaging : Prop :=
  ∀ (s : State) (k : Fin 4) (off : BitVec 16) (d : Word), off.toNat = 0x0020 + 4 * k.val →
    busRead hw s off 4 = .data 0 ∧
    (s.busy = false → ∃ t, busWrite hw s off 4 d = (t, .ok) ∧
      t.statusWord = s.statusWord ||| (1 <<< (12 + k.val)) ∧
      be128 t.stagedToken =
        slice (be128 s.stagedToken) 0 (4 * k.val) ++ be32 d ++ slice (be128 s.stagedToken) (4 * k.val + 4) 16 ∧
      t = { s with
        token0 := t.token0, token1 := t.token1, token2 := t.token2, token3 := t.token3,
        tokenWr := t.tokenWr, draws := s.draws + 1 })

/-- R88, R89: the two windows.  A word of a window is the four bytes at its index, big-endian. -/
def Obligations.BufferWindows : Prop :=
  ∀ (s : State) (i : Nat) (d : Word), i < hw.bufBytes → i % 4 = 0 →
    (∀ off : BitVec 16, off.toNat = 0x4000 + i →
      busRead hw s off 4 = .data (rd32 (s.memRead .input i 4) 0) ∧
      (s.busy = true → busWrite hw s off 4 d = ({ s with busyWr := true, draws := s.draws + 1 }, .ok)) ∧
      (s.busy = false → ∃ t, busWrite hw s off 4 d = (t, .ok) ∧ busRead hw t off 4 = .data d ∧
        (∀ k, k < 4 → t.inBuf.lookup (i + k) = (be32 d)[k]?) ∧
        (∀ a, a < i ∨ i + 4 ≤ a → t.inBuf.lookup a = s.inBuf.lookup a) ∧
        t = { s with inBuf := t.inBuf, draws := s.draws + 1 })) ∧
    (∀ off : BitVec 16, off.toNat = 0x8000 + i →
      busRead hw s off 4 = .data (rd32 (s.memRead .output i 4) 0) ∧ busWrite hw s off 4 d = (s, .busErr)) ∧
    (∀ (off : BitVec 16) (size : Nat), (busWrite hw s off size d).1.outBuf = s.outBuf)

/-- R41: the four words of a 16-byte register are its bytes in order, and are what its four offsets read as. -/
def Obligations.WordPacking : Prop :=
  (∀ x : Block, be128 x = be32 (wordOf x 0) ++ be32 (wordOf x 1) ++ be32 (wordOf x 2) ++ be32 (wordOf x 3) ∧
    ∀ k, k < 4 → wordOf x k = rd32 (be128 x) (4 * k)) ∧
  ∀ (s : State) (k : Fin 4) (off : BitVec 16),
    (off.toNat = 0x0030 + 4 * k.val → busRead hw s off 4 = .data (wordOf s.key k.val)) ∧
    (off.toNat = 0x0040 + 4 * k.val → busRead hw s off 4 = .data (wordOf s.iv k.val)) ∧
    (off.toNat = 0x0068 + 4 * k.val → busRead hw s off 4 = .data (wordOf s.rxCksum k.val)) ∧
    (off.toNat = 0x0078 + 4 * k.val → busRead hw s off 4 = .data (wordOf s.digest k.val))

/-- R23, R51, R87: what a bus read of each register returns, in every state, busy or not.  STATUS, RESULT and CTRL are
said field by field (R24, R26, R37), reserved bits 0; a word of a 16-byte register is four of its bytes, big-endian (R41). -/
def Obligations.RegisterReads : Prop :=
  ∀ s : State,
    busRead hw s 0x0000 4 = .data 0x4D434531 ∧
    (∃ w, busRead hw s 0x0004 4 = .data w ∧
      w.getLsbD 0 = s.irqEn ∧ w.getLsbD 1 = s.hsOneshot ∧ w.extractLsb' 2 30 = 0) ∧
    (∃ w, busRead hw s 0x0008 4 = .data w ∧
      w.getLsbD 0 = s.busy ∧ w.getLsbD 1 = s.done ∧ w.getLsbD 2 = s.err ∧ w.getLsbD 3 = s.cmdOvr ∧
      w.getLsbD 4 = s.busyWr ∧ w.extractLsb' 5 3 = 0 ∧ w.getLsbD 8 = s.conn ∧ w.getLsbD 9 = s.hsValid ∧
      w.extractLsb' 10 2 = 0 ∧ w.extractLsb' 12 4 = s.tokenWr ∧ w.extractLsb' 16 16 = 0) ∧
    busRead hw s 0x000C 4 = .data 0 ∧
    (∃ w, busRead hw s 0x0010 4 = .data w ∧
      w.extractLsb' 0 8 = s.resCode ∧ w.extractLsb' 8 8 = s.resOpc ∧ w.getLsbD 16 = s.resV ∧
      w.extractLsb' 17 15 = 0) ∧
    busRead hw s 0x0014 4 = .data (0#16 ++ s.inLen) ∧
    busRead hw s 0x0018 4 = .data (0#16 ++ s.outCap) ∧
    busRead hw s 0x001C 4 = .data (0#16 ++ s.outLen) ∧
    busRead hw s 0x0050 4 = .data s.devid ∧
    busRead hw s 0x0054 4 = .data s.stamp ∧
    busRead hw s 0x0058 4 = .data (0#16 ++ s.rxMagic) ∧
    busRead hw s 0x005C 4 = .data (0#16 ++ s.rxTotlen) ∧
    busRead hw s 0x0060 4 = .data s.rxDevid ∧
    busRead hw s 0x0064 4 = .data s.rxStamp ∧
    busRead hw s 0x0088 4 = .data (BitVec.ofNat 32 hw.bufBytes) ∧
    ∀ (k : Fin 4) (off : BitVec 16),
      (off.toNat = 0x0020 + 4 * k.val → busRead hw s off 4 = .data 0) ∧
      (off.toNat = 0x0030 + 4 * k.val → busRead hw s off 4 = .data (rd32 (be128 s.key) (4 * k.val))) ∧
      (off.toNat = 0x0040 + 4 * k.val → busRead hw s off 4 = .data (rd32 (be128 s.iv) (4 * k.val))) ∧
      (off.toNat = 0x0068 + 4 * k.val → busRead hw s off 4 = .data (rd32 (be128 s.rxCksum) (4 * k.val))) ∧
      (off.toNat = 0x0078 + 4 * k.val → busRead hw s off 4 = .data (rd32 (be128 s.digest) (4 * k.val)))

/-- R43, R350: no bus read depends on TOK or on the staging words. -/
def Obligations.TokenIsUnreadable : Prop :=
  ∀ (s : State) (x : Block) (a b c d : Word) (off : BitVec 16) (size : Nat),
    busRead hw { s with tok := x, token0 := a, token1 := b, token2 := c, token3 := d } off size =
      busRead hw s off size

/-- R54, R341: the level of IRQ in every state, and after every completion (of a command or of an illegal word), an issue,
an acknowledge and a change of the mask; and the platform's input `IRQ_LINE` (R5; which one it is stays open, log 8). -/
def Obligations.InterruptLevel : Prop :=
  (∀ s : State, s.irq = true ↔ s.irqEn = true ∧ s.done = true) ∧
  (∀ (s : State) (rest : List Event), s.CompletesNext rest →
    ∃ t, step s = .next t ∧ t.done = true ∧ t.irq = s.irqEn) ∧
  (∀ (i : Instr) (s t : State), exec i s = .next t → t.done = true ∧ t.irq = s.irqEn) ∧
  (∀ (s : State) (d : Word), s.busy = false → (busWrite hw s 0x000C 4 d).1.irq = false) ∧
  (∀ (s : State) (d : Word), d.getLsbD 1 = true → (busWrite hw s 0x0008 4 d).1.irq = false) ∧
  (∀ (s : State) (d : Word), s.busy = false → (busWrite hw s 0x0004 4 d).1.done = s.done ∧
    (busWrite hw s 0x0004 4 d).1.irq = (d.getLsbD 0 && s.done)) ∧
  (∀ (s : State) (line : Nat), interruptInput hw s line = true ↔ line = hw.irqLine ∧ s.irq = true)

/-! ## Parameters and reset -/

/-- R5: the parameters of this hardware that are numbers have legal values. -/
def Obligations.ParametersAreLegal : Prop :=
  hw.wellFormed = true ∧ hw.bufBytes = 4096 ∧ hw.hdrRsvd = 0x00000000 ∧ hw.padCheck = .strict

/-- R381: the reset values, register by register as the bus reads them, and the hidden state.  IN and OUT are
unspecified (R383), so nothing is said of their bytes. -/
def Obligations.ResetValues : Prop :=
  busRead hw State.reset 0x0000 4 = .data 0x4D434531 ∧ busRead hw State.reset 0x0004 4 = .data 0x00000002 ∧
  busRead hw State.reset 0x0008 4 = .data 0x00000000 ∧ busRead hw State.reset 0x0010 4 = .data 0x00000000 ∧
  busRead hw State.reset 0x0014 4 = .data 0x00000000 ∧
  busRead hw State.reset 0x0018 4 = .data (BitVec.ofNat 32 hw.bufBytes) ∧
  busRead hw State.reset 0x001C 4 = .data 0x00000000 ∧
  (∀ off : BitVec 16, 0x0020 ≤ off.toNat → off.toNat ≤ 0x0084 → off.toNat % 4 = 0 →
    busRead hw State.reset off 4 = .data 0x00000000) ∧
  busRead hw State.reset 0x0088 4 = .data (BitVec.ofNat 32 hw.bufBytes) ∧
  State.reset.stagedToken = 0 ∧ State.reset.tok = 0 ∧ State.reset.cmdLatch = 0 ∧ State.reset.irq = false

/-- R380, R382: the Reset event in any state, a command in flight or not: every register and buffer is as after reset,
and no completion follows. -/
def Obligations.ResetEventClearsEverything : Prop :=
  ∀ (s : State) (rest : List Event), s.events = .reset :: rest →
    ∃ t, step s = .next t ∧
      t = { State.reset with events := rest, replies := s.replies, draws := t.draws } ∧
      t.resultWord = 0 ∧ t.done = false ∧ t.irq = false ∧ (∀ r, ¬ t.CompletesNext r)

/-! ## Connection: DERIVE, CLOSE -/

/-- R200: DERIVE. -/
def Obligations.DeriveCommand : Prop :=
  decode 0x00000001 = .ok .derive ∧
  ∀ s : State,
    (s.tokenWr ≠ 0b1111 → exec .derive s = .next (s.reporting 0x01 false 0x11)) ∧
    (s.tokenWr = 0b1111 →
      let t := be32 s.token0 ++ be32 s.token1 ++ be32 s.token2 ++ be32 s.token3
      let k := hw.digest t
      exec .derive s = .next ({ s with
        tok := rd128 t 0, key := k, iv := hw.digest (be128 k ++ t), conn := true, hsValid := false, tokenWr := 0,
        token0 := 0, token1 := 0, token2 := 0, token3 := 0, devid := 0, stamp := 0 }.reporting 0x01 false 0x00))

/-- R201: the key and the iv depend on the staged token only. -/
def Obligations.DeriveIsDeterministic : Prop :=
  ∀ s s' : State, s.tokenWr = 0b1111 → s'.tokenWr = 0b1111 → s.stagedToken = s'.stagedToken →
    ∃ t t', exec .derive s = .next t ∧ exec .derive s' = .next t' ∧ t.resCode = 0 ∧ t'.resCode = 0 ∧
      t.key = t'.key ∧ t.iv = t'.iv

/-- R202: CLOSE, and what follows it until a DERIVE succeeds: no other step opens a connection, and every command but
DERIVE fails with 0x41. -/
def Obligations.CloseCommand : Prop :=
  decode 0x00000002 = .ok .close ∧
  ∀ s : State,
    (s.conn = false → exec .close s = .next (s.reporting 0x02 false 0x41)) ∧
    (s.conn = true → ∃ t, exec .close s = .next t ∧
      t = ({ s with
        conn := false, hsValid := false, tok := 0, key := 0, iv := 0, digest := 0, tokenWr := 0,
        token0 := 0, token1 := 0, token2 := 0, token3 := 0, devid := 0, stamp := 0 }.reporting 0x02 false 0x00)) ∧
    (s.conn = false → ∀ i, i ≠ .derive → ∃ t, exec i s = .next t ∧ t.resCode = 0x41 ∧ t.conn = false) ∧
    (s.conn = false → ∀ t, step s = .next t → t.conn = true →
      (∃ rest, s.CompletesNext rest) ∧ decode s.cmdLatch = .ok .derive ∧ t.resCode = 0)

/-- R32, R338: while CONN = 0 every command but DERIVE reports 0x41 whatever else is wrong, and has no other effect but
for the cleared HS_VALID of PARSEHELLO (R263). -/
def Obligations.ClosedConnectionRefusesCommands : Prop :=
  ∀ (i : Instr) (s : State), s.conn = false → i ≠ .derive →
    exec i s = .next ({ s with hsValid := if i = Instr.parseHello then false else s.hsValid }.reporting
      (instrFields i).opc (instrFields i).v 0x41)

/-! ## Cipher: ENCRYPT, DECRYPT -/

/-- R220: ENCRYPT, every check in its order and its effect. -/
def Obligations.EncryptCommand : Prop :=
  decode 0x00000010 = .ok .encrypt ∧
  ∀ s : State,
    (s.conn = false → exec .encrypt s = .next (s.reporting 0x10 false 0x41)) ∧
    (s.conn = true → ¬ s.LengthsFit hw → exec .encrypt s = .next (s.reporting 0x10 false 0x44)) ∧
    (s.conn = true → s.LengthsFit hw → s.outCap.toNat < 16 * (s.inLen.toNat / 16 + 1) →
      exec .encrypt s = .next (s.reporting 0x10 false 0x43)) ∧
    (s.conn = true → s.LengthsFit hw → 16 * (s.inLen.toNat / 16 + 1) ≤ s.outCap.toNat →
      ∃ t, exec .encrypt s = .next t ∧ t.outLen.toNat = 16 * (s.inLen.toNat / 16 + 1) ∧
        Delivers s t (cbcEnc hw s.key s.iv (pad s.input)) ∧
        t = { s with outBuf := t.outBuf, outLen := t.outLen }.reporting 0x10 false 0x00)

/-- R221: DECRYPT, every check in its order and its effect. -/
def Obligations.DecryptCommand : Prop :=
  decode 0x00000011 = .ok .decrypt ∧
  ∀ s : State,
    (s.conn = false → exec .decrypt s = .next (s.reporting 0x11 false 0x41)) ∧
    (s.conn = true → ¬ s.LengthsFit hw → exec .decrypt s = .next (s.reporting 0x11 false 0x44)) ∧
    (s.conn = true → s.LengthsFit hw → s.inLen.toNat % 16 ≠ 0 →
      exec .decrypt s = .next (s.reporting 0x11 false 0x31)) ∧
    (s.conn = true → s.LengthsFit hw → s.inLen.toNat % 16 = 0 →
      (∀ q, ¬ Padded (cbcDec hw s.key s.iv s.input) q) →
      exec .decrypt s = .next (s.reporting 0x11 false 0x32)) ∧
    (∀ q, s.conn = true → s.LengthsFit hw → s.inLen.toNat % 16 = 0 →
      Padded (cbcDec hw s.key s.iv s.input) q → s.outCap.toNat < q.length →
      exec .decrypt s = .next (s.reporting 0x11 false 0x43)) ∧
    (∀ q, s.conn = true → s.LengthsFit hw → s.inLen.toNat % 16 = 0 →
      Padded (cbcDec hw s.key s.iv s.input) q → q.length ≤ s.outCap.toNat →
      ∃ t, exec .decrypt s = .next t ∧ Delivers s t q ∧
        t = { s with outBuf := t.outBuf, outLen := t.outLen }.reporting 0x11 false 0x00)

/-- R158: how long a ciphertext and a plaintext are, for every choice of the primitives. -/
def Obligations.CiphertextLength : Prop :=
  ∀ (p : Params) (k v : Block),
    (∀ x, (encryptBytes p k v x).length = 16 * (x.length / 16 + 1)) ∧
    (∀ c q, decryptBytes p k v c = .ok q → c.length ≤ q.length + 16 ∧ q.length + 1 ≤ c.length)

/-- R159: decryption undoes encryption, for every cipher pair that keeps the law of R151 and either padding check. -/
def Obligations.CipherRoundTrip : Prop :=
  ∀ p : Params, p.Inverse → ∀ (k v : Block) (x : Bytes), decryptBytes p k v (encryptBytes p k v x) = .ok x

/-- R160: every chain starts from the iv, so the first ciphertext block depends on the first plaintext block only
(plaintexts of at least one block; R153, R155, R157). -/
def Obligations.FirstBlockDependsOnFirstBlock : Prop :=
  ∀ (p : Params) (k v : Block) (x y : Bytes), 16 ≤ x.length → 16 ≤ y.length → x.take 16 = y.take 16 →
    (encryptBytes p k v x).take 16 = (encryptBytes p k v y).take 16

/-- R151, R176: the cipher of this hardware keeps the law `Dec128(k, Enc128(k, b)) = b`. -/
def Obligations.CipherPairIsInverse : Prop := hw.Inverse

/-! ## Frame codec: MAC, ENCFRAME, DECHDR, DECHDR.V, PARSEHELLO -/

/-- R241: MAC. -/
def Obligations.MacCommand : Prop :=
  decode 0x00000020 = .ok .mac ∧
  ∀ s : State,
    (s.conn = false → exec .mac s = .next (s.reporting 0x20 false 0x41)) ∧
    (s.conn = true → hw.bufBytes < s.inLen.toNat → exec .mac s = .next (s.reporting 0x20 false 0x44)) ∧
    (s.conn = true → s.inLen.toNat < 32 → exec .mac s = .next (s.reporting 0x20 false 0x21)) ∧
    (s.conn = true → s.inLen.toNat ≤ hw.bufBytes → 32 ≤ s.inLen.toNat →
      let ck := hw.digest (slice s.input 0 16 ++ be128 s.tok ++ slice s.input 32 s.inLen.toNat)
      exec .mac s = .next ({ s with digest := ck }.reporting 0x20 false 0x00))

/-- R247: ENCFRAME. -/
def Obligations.EncFrameCommand : Prop :=
  decode 0x00000021 = .ok .encFrame ∧
  ∀ s : State,
    (s.conn = false → exec .encFrame s = .next (s.reporting 0x21 false 0x41)) ∧
    (s.conn = true → ¬ s.LengthsFit hw → exec .encFrame s = .next (s.reporting 0x21 false 0x44)) ∧
    (s.conn = true → s.LengthsFit hw → s.hsValid = false →
      exec .encFrame s = .next (s.reporting 0x21 false 0x42)) ∧
    (s.conn = true → s.LengthsFit hw → s.hsValid = true → s.outCap.toNat < 32 + s.inLen.toNat →
      exec .encFrame s = .next (s.reporting 0x21 false 0x43)) ∧
    (s.conn = true → s.LengthsFit hw → s.hsValid = true → 32 + s.inLen.toNat ≤ s.outCap.toNat →
      let h := be16 0x2131 ++ be16 (BitVec.ofNat 16 (32 + s.inLen.toNat)) ++ be32 hw.hdrRsvd ++ be32 s.devid ++
        be32 s.stamp
      let ck := hw.digest (h ++ be128 s.tok ++ s.input)
      ∃ t, exec .encFrame s = .next t ∧ Delivers s t (h ++ be128 ck ++ s.input) ∧
        t = { s with
          outBuf := t.outBuf, outLen := t.outLen, digest := ck, hsValid := !s.hsOneshot }.reporting 0x21 false 0x00)

/-- R243 to R246: the header of every data frame the block builds, ENCFRAME's and SEAL's, as it stands in OUT; and the
checksum field over prefix, token and body (R240). -/
def Obligations.FrameHeaderFields : Prop :=
  ∀ (i : Instr) (s t : State), i = .encFrame ∨ i = .sealFrame → exec i s = .next t → t.resCode = 0 →
    let f := t.memRead .output 0 t.outLen.toNat
    32 ≤ f.length ∧ (rd16 f 2).toNat = f.length ∧
    rd16 f 0 = 0x2131 ∧ rd32 f 4 = hw.hdrRsvd ∧ rd32 f 8 = s.devid ∧ rd32 f 12 = s.stamp ∧
    rd128 f 16 = hw.digest (slice f 0 16 ++ be128 s.tok ++ slice f 32 f.length)

/-- R250: DECHDR. -/
def Obligations.DecHdrCommand : Prop :=
  decode 0x00000022 = .ok .decHdr ∧
  ∀ s : State,
    (s.conn = false → exec .decHdr s = .next (s.reporting 0x22 false 0x41)) ∧
    (s.conn = true → hw.bufBytes < s.inLen.toNat → exec .decHdr s = .next (s.reporting 0x22 false 0x44)) ∧
    (s.conn = true → s.inLen.toNat < 32 → exec .decHdr s = .next (s.reporting 0x22 false 0x21)) ∧
    (s.conn = true → s.inLen.toNat ≤ hw.bufBytes → 32 ≤ s.inLen.toNat →
      exec .decHdr s = .next ({ s with
        rxMagic := rd16 s.input 0, rxTotlen := rd16 s.input 2, rxDevid := rd32 s.input 8,
        rxStamp := rd32 s.input 12, rxCksum := rd128 s.input 16 }.reporting 0x22 false 0x00))

/-- R251: DECHDR.V. -/
def Obligations.DecHdrVerifyCommand : Prop :=
  decode 0x00000122 = .ok .decHdrV ∧
  ∀ s : State,
    (s.conn = false → exec .decHdrV s = .next (s.reporting 0x22 true 0x41)) ∧
    (s.conn = true → hw.bufBytes < s.inLen.toNat → exec .decHdrV s = .next (s.reporting 0x22 true 0x44)) ∧
    (s.conn = true → s.inLen.toNat < 32 → exec .decHdrV s = .next (s.reporting 0x22 true 0x21)) ∧
    (s.conn = true → s.inLen.toNat ≤ hw.bufBytes → 32 ≤ s.inLen.toNat → ¬ CksumMatches hw s →
      exec .decHdrV s = .next (s.reporting 0x22 true 0x23)) ∧
    (s.conn = true → s.inLen.toNat ≤ hw.bufBytes → 32 ≤ s.inLen.toNat → CksumMatches hw s →
      exec .decHdrV s = .next ({ s with
        rxMagic := rd16 s.input 0, rxTotlen := rd16 s.input 2, rxDevid := rd32 s.input 8,
        rxStamp := rd32 s.input 12, rxCksum := rd128 s.input 16,
        digest := rd128 s.input 16 }.reporting 0x22 true 0x00))

/-- R248: a frame that ENCFRAME built, copied from OUT to IN, decodes to the fields it was built from, and with the same
token verifies too. -/
def Obligations.FrameIntegrity : Prop :=
  ∀ s t u : State, exec .encFrame s = .next t → t.resCode = 0 →
    u.conn = true → u.inLen = t.outLen → u.input = t.memRead .output 0 t.outLen.toNat →
    ∀ i, i = .decHdr ∨ (i = .decHdrV ∧ u.tok = s.tok) →
      ∃ v, exec i u = .next v ∧ v.resCode = 0 ∧ v.rxDevid = s.devid ∧ v.rxStamp = s.stamp ∧
        v.rxTotlen.toNat = 32 + s.inLen.toNat

/-- R260, R263: PARSEHELLO, its effect and its errors; every error clears HS_VALID and keeps DEVID and STAMP. -/
def Obligations.ParseHelloCommand : Prop :=
  decode 0x00000023 = .ok .parseHello ∧
  ∀ s : State,
    (s.conn = false → exec .parseHello s = .next ({ s with hsValid := false }.reporting 0x23 false 0x41)) ∧
    (s.conn = true → hw.bufBytes < s.inLen.toNat →
      exec .parseHello s = .next ({ s with hsValid := false }.reporting 0x23 false 0x44)) ∧
    (s.conn = true → s.inLen.toNat ≤ hw.bufBytes → s.inLen.toNat ≠ 32 →
      exec .parseHello s = .next ({ s with hsValid := false }.reporting 0x23 false 0x22)) ∧
    (s.conn = true → s.inLen.toNat = 32 →
      exec .parseHello s = .next ({ s with
        devid := rd32 s.input 8, stamp := rd32 s.input 12, hsValid := true }.reporting 0x23 false 0x00))

/-! ## Handshake: PROBE -/

/-- R280, R281: PROBE. -/
def Obligations.ProbeCommand : Prop :=
  decode 0x00000030 = .ok .probe ∧
  ∀ s : State,
    (s.conn = false → exec .probe s = .next (s.reporting 0x30 false 0x41)) ∧
    (s.conn = true → hw.bufBytes < s.outCap.toNat → exec .probe s = .next (s.reporting 0x30 false 0x44)) ∧
    (s.conn = true → s.outCap.toNat < 32 → exec .probe s = .next (s.reporting 0x30 false 0x43)) ∧
    (s.conn = true → s.outCap.toNat ≤ hw.bufBytes → 32 ≤ s.outCap.toNat →
      ∃ t, exec .probe s = .next t ∧ Delivers s t ([0x21, 0x31, 0x00, 0x20] ++ List.replicate 28 0xFF) ∧
        t = { s with outBuf := t.outBuf, outLen := 32, hsValid := false }.reporting 0x30 false 0x00)

/-! ## Transport: SEAL, OPEN, OPEN.V -/

/-- R300: SEAL.  The capacity bound is the rule's pseudocode and inequality; where its corner case names another number
(4047 for OUT_CAP = 4096, instead of 4063) this is the model's choice (log 23). -/
def Obligations.SealCommand : Prop :=
  decode 0x00000040 = .ok .sealFrame ∧
  ∀ s : State,
    (s.conn = false → exec .sealFrame s = .next (s.reporting 0x40 false 0x41)) ∧
    (s.conn = true → ¬ s.LengthsFit hw → exec .sealFrame s = .next (s.reporting 0x40 false 0x44)) ∧
    (s.conn = true → s.LengthsFit hw → s.hsValid = false →
      exec .sealFrame s = .next (s.reporting 0x40 false 0x42)) ∧
    (s.conn = true → s.LengthsFit hw → s.hsValid = true →
      s.outCap.toNat < 32 + 16 * (s.inLen.toNat / 16 + 1) →
      exec .sealFrame s = .next (s.reporting 0x40 false 0x43)) ∧
    (s.conn = true → s.LengthsFit hw → s.hsValid = true →
      32 + 16 * (s.inLen.toNat / 16 + 1) ≤ s.outCap.toNat →
      let b := cbcEnc hw s.key s.iv (pad s.input)
      let h := be16 0x2131 ++ be16 (BitVec.ofNat 16 (32 + b.length)) ++ be32 hw.hdrRsvd ++ be32 s.devid ++
        be32 s.stamp
      let ck := hw.digest (h ++ be128 s.tok ++ b)
      ∃ t, exec .sealFrame s = .next t ∧ Delivers s t (h ++ be128 ck ++ b) ∧
        t.outLen.toNat = 32 + 16 * (s.inLen.toNat / 16 + 1) ∧
        t = { s with
          outBuf := t.outBuf, outLen := t.outLen, digest := ck, hsValid := !s.hsOneshot }.reporting 0x40 false 0x00)

/-- R301: OPEN. -/
def Obligations.OpenCommand : Prop :=
  decode 0x00000041 = .ok .openFrame ∧
  ∀ s : State,
    let body := slice s.input 32 s.inLen.toNat
    (s.conn = false → exec .openFrame s = .next (s.reporting 0x41 false 0x41)) ∧
    (s.conn = true → ¬ s.LengthsFit hw → exec .openFrame s = .next (s.reporting 0x41 false 0x44)) ∧
    (s.conn = true → s.LengthsFit hw → s.inLen.toNat < 32 →
      exec .openFrame s = .next (s.reporting 0x41 false 0x21)) ∧
    (s.conn = true → s.LengthsFit hw → 32 ≤ s.inLen.toNat → s.inLen.toNat % 16 ≠ 0 →
      exec .openFrame s = .next (s.reporting 0x41 false 0x31)) ∧
    (s.conn = true → s.LengthsFit hw → 32 ≤ s.inLen.toNat → s.inLen.toNat % 16 = 0 →
      (∀ q, ¬ Padded (cbcDec hw s.key s.iv body) q) →
      exec .openFrame s = .next (s.reporting 0x41 false 0x32)) ∧
    (∀ q, s.conn = true → s.LengthsFit hw → 32 ≤ s.inLen.toNat → s.inLen.toNat % 16 = 0 →
      Padded (cbcDec hw s.key s.iv body) q → s.outCap.toNat < q.length →
      exec .openFrame s = .next (s.reporting 0x41 false 0x43)) ∧
    (∀ q, s.conn = true → s.LengthsFit hw → 32 ≤ s.inLen.toNat → s.inLen.toNat % 16 = 0 →
      Padded (cbcDec hw s.key s.iv body) q → q.length ≤ s.outCap.toNat →
      ∃ t, exec .openFrame s = .next t ∧ Delivers s t q ∧
        t = { s with
          outBuf := t.outBuf, outLen := t.outLen, rxMagic := rd16 s.input 0, rxTotlen := rd16 s.input 2,
          rxDevid := rd32 s.input 8, rxStamp := rd32 s.input 12,
          rxCksum := rd128 s.input 16 }.reporting 0x41 false 0x00)

/-- R302: OPEN.V. -/
def Obligations.OpenVerifyCommand : Prop :=
  decode 0x00000141 = .ok .openFrameV ∧
  ∀ s : State,
    let body := slice s.input 32 s.inLen.toNat
    (s.conn = false → exec .openFrameV s = .next (s.reporting 0x41 true 0x41)) ∧
    (s.conn = true → ¬ s.LengthsFit hw → exec .openFrameV s = .next (s.reporting 0x41 true 0x44)) ∧
    (s.conn = true → s.LengthsFit hw → s.inLen.toNat < 32 →
      exec .openFrameV s = .next (s.reporting 0x41 true 0x21)) ∧
    (s.conn = true → s.LengthsFit hw → 32 ≤ s.inLen.toNat → ¬ CksumMatches hw s →
      exec .openFrameV s = .next (s.reporting 0x41 true 0x23)) ∧
    (s.conn = true → s.LengthsFit hw → 32 ≤ s.inLen.toNat → CksumMatches hw s → s.inLen.toNat % 16 ≠ 0 →
      exec .openFrameV s = .next (s.reporting 0x41 true 0x31)) ∧
    (s.conn = true → s.LengthsFit hw → 32 ≤ s.inLen.toNat → CksumMatches hw s → s.inLen.toNat % 16 = 0 →
      (∀ q, ¬ Padded (cbcDec hw s.key s.iv body) q) →
      exec .openFrameV s = .next (s.reporting 0x41 true 0x32)) ∧
    (∀ q, s.conn = true → s.LengthsFit hw → 32 ≤ s.inLen.toNat → CksumMatches hw s → s.inLen.toNat % 16 = 0 →
      Padded (cbcDec hw s.key s.iv body) q → s.outCap.toNat < q.length →
      exec .openFrameV s = .next (s.reporting 0x41 true 0x43)) ∧
    (∀ q, s.conn = true → s.LengthsFit hw → 32 ≤ s.inLen.toNat → CksumMatches hw s → s.inLen.toNat % 16 = 0 →
      Padded (cbcDec hw s.key s.iv body) q → q.length ≤ s.outCap.toNat →
      ∃ t, exec .openFrameV s = .next t ∧ Delivers s t q ∧
        t = { s with
          outBuf := t.outBuf, outLen := t.outLen, rxMagic := rd16 s.input 0, rxTotlen := rd16 s.input 2,
          rxDevid := rd32 s.input 8, rxStamp := rd32 s.input 12, rxCksum := rd128 s.input 16,
          digest := rd128 s.input 16 }.reporting 0x41 true 0x00)

/-- R300's corner case: SEAL has the effect of ENCRYPT, a copy of OUT[0:OUT_LEN] to IN, and ENCFRAME. -/
def Obligations.SealIsEncryptThenEncFrame : Prop :=
  ∀ s t : State, exec .sealFrame s = .next t → t.resCode = 0 →
    ∃ e, exec .encrypt s = .next e ∧ e.resCode = 0 ∧
      ∀ u : State, u.inLen = e.outLen → u.input = e.memRead .output 0 e.outLen.toNat →
        u.conn = e.conn → u.tok = e.tok → u.devid = e.devid → u.stamp = e.stamp → u.hsValid = e.hsValid →
        u.hsOneshot = e.hsOneshot → u.outCap = e.outCap →
        ∃ f, exec .encFrame u = .next f ∧ f.resCode = 0 ∧ f.outLen = t.outLen ∧
          f.memRead .output 0 t.outLen.toNat = t.memRead .output 0 t.outLen.toNat ∧
          f.digest = t.digest ∧ f.hsValid = t.hsValid

/-- R159, R300, R302: a frame sealed in one block and presented to a block with the same token, key and iv opens, with
and without verification, to the plaintext and the header it was sealed from; for every choice of the primitives that
keeps the law of R151. -/
def Obligations.SealedFrameOpens : Prop :=
  ∀ p : Params, p.Inverse → ∀ s t u : State, sealBody p s = .ok t →
    u.conn = true → u.tok = s.tok → u.key = s.key → u.iv = s.iv →
    u.inLen = t.outLen → u.input = t.memRead .output 0 t.outLen.toNat →
    u.outCap.toNat ≤ p.bufBytes → s.inLen.toNat ≤ u.outCap.toNat →
    (∃ v, openVBody p u = .ok v ∧ v.outLen = s.inLen ∧ v.memRead .output 0 s.inLen.toNat = s.input ∧
      v.rxDevid = s.devid ∧ v.rxStamp = s.stamp ∧ v.rxTotlen = t.outLen ∧ v.digest = t.digest) ∧
    (∃ v, openBody p u = .ok v ∧ v.outLen = s.inLen ∧ v.memRead .output 0 s.inLen.toNat = s.input ∧
      v.rxDevid = s.devid ∧ v.rxStamp = s.stamp ∧ v.rxTotlen = t.outLen)

/-! ## Rules of the whole machine -/

/-- R335 and R336: what every completion writes and what none changes, and the codes each command can report. -/
def Obligations.CompletionFrame : Prop :=
  ∀ (i : Instr) (s t : State), exec i s = .next t →
    t.busy = false ∧ t.done = true ∧ t.resOpc = (instrFields i).opc ∧ t.resV = (instrFields i).v ∧
    t.resCode ∈ codesOf i ∧ (t.err = true ↔ s.err = true ∨ t.resCode ≠ 0) ∧
    t.cmdOvr = s.cmdOvr ∧ t.busyWr = s.busyWr ∧ t.irqEn = s.irqEn ∧ t.hsOneshot = s.hsOneshot ∧
    t.cmdLatch = s.cmdLatch ∧ t.inLen = s.inLen ∧ t.outCap = s.outCap ∧
    (∀ a, t.inBuf.lookup a = s.inBuf.lookup a) ∧ t.events = s.events ∧ t.replies = s.replies

/-- R340, R347: a failed command changes nothing but RESULT and STATUS, and PARSEHELLO's HS_VALID. -/
def Obligations.FailureOnlyReports : Prop :=
  ∀ (i : Instr) (s t : State), exec i s = .next t → t.resCode ≠ 0 →
    t = { s with hsValid := if i = Instr.parseHello then false else s.hsValid }.reporting
      (instrFields i).opc (instrFields i).v t.resCode

/-- R92: a successful command that writes OUT writes exactly OUT[0:OUT_LEN]; any other completion leaves OUT and
OUT_LEN as they were. -/
def Obligations.OutputWritesExactlyItsLength : Prop :=
  ∀ (i : Instr) (s t : State), exec i s = .next t →
    (t.resCode = 0 ∧ writesOut i = true →
      (∀ a, a < t.outLen.toNat → (t.outBuf.lookup a).isSome = true) ∧
      (∀ a, t.outLen.toNat ≤ a → t.outBuf.lookup a = s.outBuf.lookup a)) ∧
    (¬ (t.resCode = 0 ∧ writesOut i = true) → t.outBuf = s.outBuf ∧ t.outLen = s.outLen)

/-- R125's column of what each command writes, for the secrets, the handshake result, the RX registers and DIGEST. -/
def Obligations.CommandsWriteOnlyTheirRegisters : Prop :=
  ∀ (i : Instr) (s t : State), exec i s = .next t →
    (i ≠ .derive → i ≠ .close →
      t.conn = s.conn ∧ t.tok = s.tok ∧ t.key = s.key ∧ t.iv = s.iv ∧ t.tokenWr = s.tokenWr ∧
      t.stagedToken = s.stagedToken) ∧
    (i ≠ .derive → i ≠ .close → i ≠ .parseHello → t.devid = s.devid ∧ t.stamp = s.stamp) ∧
    (i ≠ .decHdr → i ≠ .decHdrV → i ≠ .openFrame → i ≠ .openFrameV →
      t.rxMagic = s.rxMagic ∧ t.rxTotlen = s.rxTotlen ∧ t.rxDevid = s.rxDevid ∧ t.rxStamp = s.rxStamp ∧
      t.rxCksum = s.rxCksum) ∧
    (i ≠ .close → i ≠ .mac → i ≠ .encFrame → i ≠ .sealFrame → i ≠ .decHdrV → i ≠ .openFrameV →
      t.digest = s.digest)

/-- R33: HS_VALID becomes 1 only when a PARSEHELLO in flight completes with success. -/
def Obligations.HandshakeBecomesValidOnlyByParseHello : Prop :=
  ∀ s t : State, step s = .next t → s.hsValid = false → t.hsValid = true →
    (∃ rest, s.CompletesNext rest) ∧ decode s.cmdLatch = .ok .parseHello ∧ t.resultWord = 0x00002300

/-- R303: without a valid handshake result ENCFRAME and SEAL write nothing to OUT and report an error. -/
def Obligations.NoFrameWithoutHandshake : Prop :=
  ∀ (i : Instr) (s : State), i = .encFrame ∨ i = .sealFrame → s.hsValid = false →
    ∃ t, exec i s = .next t ∧ t.resCode ≠ 0 ∧ t.outLen = s.outLen ∧ t.hsValid = false ∧
      ∀ a, t.outBuf.lookup a = s.outBuf.lookup a

/-- R333, R91: a command's code, and what it writes, depend on its inputs only: on no flag, no result, no RX register,
no DIGEST, no OUT byte and no IN byte at or above IN_LEN. -/
def Obligations.ResultDependsOnInputsOnly : Prop :=
  ∀ (i : Instr) (s s' t t' : State), InputsAgree s s' → exec i s = .next t → exec i s' = .next t' →
    t.resCode = t'.resCode ∧ t.conn = t'.conn ∧ t.hsValid = t'.hsValid ∧ t.tokenWr = t'.tokenWr ∧
    t.stagedToken = t'.stagedToken ∧ t.tok = t'.tok ∧ t.key = t'.key ∧ t.iv = t'.iv ∧ t.devid = t'.devid ∧
    t.stamp = t'.stamp ∧
    (t.resCode = 0 → writesOut i = true → t.outLen = t'.outLen ∧
      t.memRead .output 0 t.outLen.toNat = t'.memRead .output 0 t.outLen.toNat) ∧
    (t.resCode = 0 → i = .decHdr ∨ i = .decHdrV ∨ i = .openFrame ∨ i = .openFrameV →
      t.rxMagic = t'.rxMagic ∧ t.rxTotlen = t'.rxTotlen ∧ t.rxDevid = t'.rxDevid ∧ t.rxStamp = t'.rxStamp ∧
      t.rxCksum = t'.rxCksum) ∧
    (t.resCode = 0 → i = .mac ∨ i = .encFrame ∨ i = .sealFrame ∨ i = .decHdrV ∨ i = .openFrameV →
      t.digest = t'.digest)

/-- R55: the connection invariant is kept by every step. -/
def Obligations.ConnectionInvariantKept : Prop :=
  ∀ s t : State, s.ConnInv hw → step s = .next t → t.ConnInv hw

/-- R55: the connection invariant holds after reset. -/
def Obligations.ConnectionInvariantAtReset : Prop := State.reset.ConnInv hw

/-- R52, R343: both buffers stay in canonical form and inside their BUF_BYTES bytes, and OUT_LEN stays a length of OUT
(the canonical form is the model's own, log 3). -/
def Obligations.BufferInvariantKept : Prop :=
  ∀ s t : State, s.BufInv hw → step s = .next t → t.BufInv hw

/-- The buffer invariant holds after reset, when no byte of IN or OUT has been written (R383, in the form of log 3). -/
def Obligations.BufferInvariantAtReset : Prop :=
  State.reset.BufInv hw ∧ State.reset.inBuf = [] ∧ State.reset.outBuf = []

/-- R336: RESULT.CODE never takes a value outside the table. -/
def Obligations.ResultCodesStayInTheTable : Prop :=
  ∀ s t : State, s.resCode ∈ allCodes → step s = .next t → t.resCode ∈ allCodes

/-- R334: every step answers a next state, and from every state the events to come and one step more leave no command
in flight.  (That the command completes at the latest when the list of events has run out is the model's form of the
rule's fairness, log 1.) -/
def Obligations.EveryIssuedCommandCompletes : Prop :=
  (∀ s : State, ∃ t, step s = .next t) ∧
  (∀ s : State, ∃ t : State, Host.Core.run Sys2Proof.core (s.events.length + 1) s = Host.Outcome.next t ∧
    t.busy = false ∧ t.events = [])
end

