-- ==== Sys2Proof/Laws/Bytes.lean ====
section
/-! SUPPORT. Lengths and round trips of the big-endian helpers, slices and pieces. -/

namespace Sys2Proof

@[simp] theorem length_beBytes (n v : Nat) : (beBytes n v).length = n := by
  induction n generalizing v with
  | zero => rfl
  | succ n ih => simp [beBytes, ih]

@[simp] theorem length_be16 (v : Half) : (be16 v).length = 2 := length_beBytes _ _
@[simp] theorem length_be32 (v : Word) : (be32 v).length = 4 := length_beBytes _ _
@[simp] theorem length_be128 (v : Block) : (be128 v).length = 16 := length_beBytes _ _

@[simp] theorem beNat_nil : beNat [] = 0 := rfl

theorem beNat_append_singleton (s : Bytes) (b : Byte) : beNat (s ++ [b]) = beNat s * 256 + b.toNat := by
  simp [beNat, List.foldl_append]

theorem beNat_append (s t : Bytes) : beNat (s ++ t) = beNat s * 256 ^ t.length + beNat t := by
  induction t using List.reverseRecOn with
  | nil => simp
  | append_singleton t b ih =>
    rw [← List.append_assoc, beNat_append_singleton, ih, beNat_append_singleton]
    simp only [List.length_append, List.length_singleton, pow_succ]
    ring

theorem beNat_lt (s : Bytes) : beNat s < 256 ^ s.length := by
  induction s using List.reverseRecOn with
  | nil => simp
  | append_singleton s b ih =>
    rw [beNat_append_singleton, List.length_append, List.length_singleton, pow_succ]
    have := b.isLt
    omega

theorem beNat_beBytes (n v : Nat) : beNat (beBytes n v) = v % 256 ^ n := by
  induction n generalizing v with
  | zero => simp [beBytes, Nat.mod_one]
  | succ n ih =>
    rw [beBytes, beNat_append_singleton, ih, BitVec.toNat_ofNat, show 256 ^ (n + 1) = 256 * 256 ^ n from pow_succ' _ _,
      Nat.mod_mul]
    ring

theorem beBytes_beNat (s : Bytes) : beBytes s.length (beNat s) = s := by
  induction s using List.reverseRecOn with
  | nil => rfl
  | append_singleton s b ih =>
    have hb := b.isLt
    rw [List.length_append, List.length_singleton, beBytes, beNat_append_singleton,
      show (beNat s * 256 + b.toNat) / 256 = beNat s by omega, ih]
    congr 2
    apply BitVec.eq_of_toNat_eq
    rw [BitVec.toNat_ofNat]
    omega

theorem slice_length (s : Bytes) (a b : Nat) : (slice s a b).length = min (b - a) (s.length - a) := by
  simp [slice]

theorem slice_append_left (s t : Bytes) (a b : Nat) (h : b ≤ s.length) : slice (s ++ t) a b = slice s a b := by
  simp only [slice]
  rcases Nat.lt_or_ge s.length a with h' | h'
  · rw [Nat.sub_eq_zero_of_le (by omega), List.take_zero, List.take_zero]
  · rw [List.drop_append_of_le_length h', List.take_append_of_le_length (by simp; omega)]

theorem slice_append_right (s t : Bytes) (a b : Nat) (h : s.length ≤ a) :
    slice (s ++ t) a b = slice t (a - s.length) (b - s.length) := by
  simp only [slice]
  rw [List.drop_append, List.drop_eq_nil_of_le h, List.nil_append]
  congr 1
  omega

@[simp] theorem slice_full (s : Bytes) : slice s 0 s.length = s := by simp [slice]

theorem slice_full_of_eq (s : Bytes) (n : Nat) (h : s.length = n) : slice s 0 n = s := by
  subst h; simp

theorem rd16_be16 (v : Half) : rd16 (be16 v) 0 = v := by
  simp only [rd16, Nat.zero_add]
  rw [slice_full_of_eq _ _ (length_be16 v), be16, beNat_beBytes]
  apply BitVec.eq_of_toNat_eq
  have := v.isLt
  simp only [BitVec.toNat_ofNat]
  omega

theorem rd32_be32 (v : Word) : rd32 (be32 v) 0 = v := by
  simp only [rd32, Nat.zero_add]
  rw [slice_full_of_eq _ _ (length_be32 v), be32, beNat_beBytes]
  apply BitVec.eq_of_toNat_eq
  have := v.isLt
  simp only [BitVec.toNat_ofNat]
  omega

theorem rd128_be128 (v : Block) : rd128 (be128 v) 0 = v := by
  simp only [rd128, Nat.zero_add]
  rw [slice_full_of_eq _ _ (length_be128 v), be128, beNat_beBytes]
  apply BitVec.eq_of_toNat_eq
  have := v.isLt
  simp only [BitVec.toNat_ofNat]
  omega

theorem be32_rd32 (s : Bytes) (o : Nat) (h : o + 4 ≤ s.length) : be32 (rd32 s o) = slice s o (o + 4) := by
  have hl : (slice s o (o + 4)).length = 4 := by rw [slice_length]; omega
  have hlt := beNat_lt (slice s o (o + 4))
  rw [hl] at hlt
  rw [be32, rd32, BitVec.toNat_ofNat, Nat.mod_eq_of_lt (by simpa using hlt)]
  conv_rhs => rw [← beBytes_beNat (slice s o (o + 4)), hl]

theorem be128_rd128 (s : Bytes) (o : Nat) (h : o + 16 ≤ s.length) : be128 (rd128 s o) = slice s o (o + 16) := by
  have hl : (slice s o (o + 16)).length = 16 := by rw [slice_length]; omega
  have hlt := beNat_lt (slice s o (o + 16))
  rw [hl] at hlt
  rw [be128, rd128, BitVec.toNat_ofNat, Nat.mod_eq_of_lt (by simpa using hlt)]
  conv_rhs => rw [← beBytes_beNat (slice s o (o + 16)), hl]

/-- Reading a field that lies in the left part of a concatenation. -/
theorem rd16_append_left (s t : Bytes) (o : Nat) (h : o + 2 ≤ s.length) : rd16 (s ++ t) o = rd16 s o := by
  rw [rd16, rd16, slice_append_left _ _ _ _ h]

theorem rd32_append_left (s t : Bytes) (o : Nat) (h : o + 4 ≤ s.length) : rd32 (s ++ t) o = rd32 s o := by
  rw [rd32, rd32, slice_append_left _ _ _ _ h]

theorem rd128_append_left (s t : Bytes) (o : Nat) (h : o + 16 ≤ s.length) : rd128 (s ++ t) o = rd128 s o := by
  rw [rd128, rd128, slice_append_left _ _ _ _ h]

/-- Reading a field that lies in the right part of a concatenation. -/
theorem rd16_append_right (s t : Bytes) (o : Nat) (h : s.length ≤ o) : rd16 (s ++ t) o = rd16 t (o - s.length) := by
  rw [rd16, rd16, slice_append_right _ _ _ _ h]
  congr 3
  omega

theorem rd32_append_right (s t : Bytes) (o : Nat) (h : s.length ≤ o) : rd32 (s ++ t) o = rd32 t (o - s.length) := by
  rw [rd32, rd32, slice_append_right _ _ _ _ h]
  congr 3
  omega

theorem rd128_append_right (s t : Bytes) (o : Nat) (h : s.length ≤ o) :
    rd128 (s ++ t) o = rd128 t (o - s.length) := by
  rw [rd128, rd128, slice_append_right _ _ _ _ h]
  congr 3
  omega

theorem beBytes_add (n m v : Nat) : beBytes (n + m) v = beBytes n (v / 256 ^ m) ++ beBytes m v := by
  induction m generalizing v with
  | zero => simp [beBytes]
  | succ m ih =>
    rw [← Nat.add_assoc, beBytes, ih, beBytes, ← List.append_assoc]
    congr 3
    rw [Nat.div_div_eq_div_mul, pow_succ']

/-- An encoding does not see the bits above its width. -/
theorem beBytes_mod (n v : Nat) : beBytes n (v % 256 ^ n) = beBytes n v := by
  have h := beBytes_beNat (beBytes n v)
  rwa [length_beBytes, beNat_beBytes] at h

/-- The bytes of four words side by side (R41, R42). -/
theorem be128_append (a b c d : Word) : be128 (a ++ b ++ c ++ d) = be32 a ++ be32 b ++ be32 c ++ be32 d := by
  have hv : (a ++ b ++ c ++ d : BitVec 128).toNat =
      ((a.toNat * 2 ^ 32 + b.toNat) * 2 ^ 32 + c.toNat) * 2 ^ 32 + d.toNat := by
    simp only [BitVec.toNat_append]
    rw [← Nat.shiftLeft_add_eq_or_of_lt (by omega), ← Nat.shiftLeft_add_eq_or_of_lt (by omega),
      ← Nat.shiftLeft_add_eq_or_of_lt (by omega)]
    simp only [Nat.shiftLeft_eq]
  have ha := a.isLt
  have hb := b.isLt
  have hc := c.isLt
  have hd := d.isLt
  unfold be128 be32
  rw [hv, show (16 : Nat) = 4 + 4 + 4 + 4 from rfl, beBytes_add (4 + 4 + 4) 4, beBytes_add (4 + 4) 4, beBytes_add 4 4]
  congr 1
  · congr 1
    · congr 1
      · congr 1; omega
      · rw [← beBytes_mod]; congr 1; omega
    · rw [← beBytes_mod]; congr 1; omega
  · rw [← beBytes_mod]; congr 1; omega

theorem pieces_append (k : Nat) (b : Bytes) (hb : b.length = k) (n : Nat) (s : Bytes) :
    pieces k (n + 1) (b ++ s) = b :: pieces k n s := by
  simp [pieces, ← hb]

@[simp] theorem length_pieces (k n : Nat) (s : Bytes) : (pieces k n s).length = n := by
  induction n generalizing s with
  | zero => rfl
  | succ n ih => simp [pieces, ih]

/-- The pieces of a string, put together again. -/
theorem flatten_pieces (k n : Nat) (s : Bytes) (h : s.length = k * n) : (pieces k n s).flatten = s := by
  induction n generalizing s with
  | zero => simpa [pieces] using (List.length_eq_zero_iff.1 (by simpa using h)).symm
  | succ n ih =>
    rw [pieces, List.flatten_cons, ih _ (by rw [List.length_drop, h, Nat.mul_succ]; omega), List.take_append_drop]

theorem mem_pieces_length (k n : Nat) (s b : Bytes) (h : s.length = k * n) (hb : b ∈ pieces k n s) :
    b.length = k := by
  induction n generalizing s with
  | zero => simp [pieces] at hb
  | succ n ih =>
    rw [Nat.mul_succ] at h
    rcases List.mem_cons.1 hb with rfl | hb
    · rw [List.length_take]; omega
    · exact ih _ (by rw [List.length_drop, h]; omega) hb

end Sys2Proof
end

