-- ==== Sys2Proof/Laws/State.lean ====
section
/-! SUPPORT. What each named update of the state does to each field, one lemma per field and update. -/

namespace Sys2Proof.Machine

@[simp] theorem State.tick_irqEn (s : State) : (s.tick).irqEn = s.irqEn := rfl
@[simp] theorem State.tick_hsOneshot (s : State) : (s.tick).hsOneshot = s.hsOneshot := rfl
@[simp] theorem State.tick_busy (s : State) : (s.tick).busy = s.busy := rfl
@[simp] theorem State.tick_done (s : State) : (s.tick).done = s.done := rfl
@[simp] theorem State.tick_err (s : State) : (s.tick).err = s.err := rfl
@[simp] theorem State.tick_cmdOvr (s : State) : (s.tick).cmdOvr = s.cmdOvr := rfl
@[simp] theorem State.tick_busyWr (s : State) : (s.tick).busyWr = s.busyWr := rfl
@[simp] theorem State.tick_conn (s : State) : (s.tick).conn = s.conn := rfl
@[simp] theorem State.tick_hsValid (s : State) : (s.tick).hsValid = s.hsValid := rfl
@[simp] theorem State.tick_tokenWr (s : State) : (s.tick).tokenWr = s.tokenWr := rfl
@[simp] theorem State.tick_cmdLatch (s : State) : (s.tick).cmdLatch = s.cmdLatch := rfl
@[simp] theorem State.tick_resCode (s : State) : (s.tick).resCode = s.resCode := rfl
@[simp] theorem State.tick_resOpc (s : State) : (s.tick).resOpc = s.resOpc := rfl
@[simp] theorem State.tick_resV (s : State) : (s.tick).resV = s.resV := rfl
@[simp] theorem State.tick_inLen (s : State) : (s.tick).inLen = s.inLen := rfl
@[simp] theorem State.tick_outCap (s : State) : (s.tick).outCap = s.outCap := rfl
@[simp] theorem State.tick_outLen (s : State) : (s.tick).outLen = s.outLen := rfl
@[simp] theorem State.tick_token0 (s : State) : (s.tick).token0 = s.token0 := rfl
@[simp] theorem State.tick_token1 (s : State) : (s.tick).token1 = s.token1 := rfl
@[simp] theorem State.tick_token2 (s : State) : (s.tick).token2 = s.token2 := rfl
@[simp] theorem State.tick_token3 (s : State) : (s.tick).token3 = s.token3 := rfl
@[simp] theorem State.tick_tok (s : State) : (s.tick).tok = s.tok := rfl
@[simp] theorem State.tick_key (s : State) : (s.tick).key = s.key := rfl
@[simp] theorem State.tick_iv (s : State) : (s.tick).iv = s.iv := rfl
@[simp] theorem State.tick_devid (s : State) : (s.tick).devid = s.devid := rfl
@[simp] theorem State.tick_stamp (s : State) : (s.tick).stamp = s.stamp := rfl
@[simp] theorem State.tick_rxMagic (s : State) : (s.tick).rxMagic = s.rxMagic := rfl
@[simp] theorem State.tick_rxTotlen (s : State) : (s.tick).rxTotlen = s.rxTotlen := rfl
@[simp] theorem State.tick_rxDevid (s : State) : (s.tick).rxDevid = s.rxDevid := rfl
@[simp] theorem State.tick_rxStamp (s : State) : (s.tick).rxStamp = s.rxStamp := rfl
@[simp] theorem State.tick_rxCksum (s : State) : (s.tick).rxCksum = s.rxCksum := rfl
@[simp] theorem State.tick_digest (s : State) : (s.tick).digest = s.digest := rfl
@[simp] theorem State.tick_inBuf (s : State) : (s.tick).inBuf = s.inBuf := rfl
@[simp] theorem State.tick_outBuf (s : State) : (s.tick).outBuf = s.outBuf := rfl
@[simp] theorem State.tick_events (s : State) : (s.tick).events = s.events := rfl
@[simp] theorem State.tick_replies (s : State) : (s.tick).replies = s.replies := rfl
@[simp] theorem State.tick_draws (s : State) : (s.tick).draws = s.draws + 1 := rfl

@[simp] theorem State.reporting_irqEn (s : State) (opc : Byte) (v : Bool) (code : Byte) : (s.reporting opc v code).irqEn = s.irqEn := rfl
@[simp] theorem State.reporting_hsOneshot (s : State) (opc : Byte) (v : Bool) (code : Byte) : (s.reporting opc v code).hsOneshot = s.hsOneshot := rfl
@[simp] theorem State.reporting_busy (s : State) (opc : Byte) (v : Bool) (code : Byte) : (s.reporting opc v code).busy = false := rfl
@[simp] theorem State.reporting_done (s : State) (opc : Byte) (v : Bool) (code : Byte) : (s.reporting opc v code).done = true := rfl
@[simp] theorem State.reporting_err (s : State) (opc : Byte) (v : Bool) (code : Byte) : (s.reporting opc v code).err = if code ≠ 0 then true else s.err := rfl
@[simp] theorem State.reporting_cmdOvr (s : State) (opc : Byte) (v : Bool) (code : Byte) : (s.reporting opc v code).cmdOvr = s.cmdOvr := rfl
@[simp] theorem State.reporting_busyWr (s : State) (opc : Byte) (v : Bool) (code : Byte) : (s.reporting opc v code).busyWr = s.busyWr := rfl
@[simp] theorem State.reporting_conn (s : State) (opc : Byte) (v : Bool) (code : Byte) : (s.reporting opc v code).conn = s.conn := rfl
@[simp] theorem State.reporting_hsValid (s : State) (opc : Byte) (v : Bool) (code : Byte) : (s.reporting opc v code).hsValid = s.hsValid := rfl
@[simp] theorem State.reporting_tokenWr (s : State) (opc : Byte) (v : Bool) (code : Byte) : (s.reporting opc v code).tokenWr = s.tokenWr := rfl
@[simp] theorem State.reporting_cmdLatch (s : State) (opc : Byte) (v : Bool) (code : Byte) : (s.reporting opc v code).cmdLatch = s.cmdLatch := rfl
@[simp] theorem State.reporting_resCode (s : State) (opc : Byte) (v : Bool) (code : Byte) : (s.reporting opc v code).resCode = code := rfl
@[simp] theorem State.reporting_resOpc (s : State) (opc : Byte) (v : Bool) (code : Byte) : (s.reporting opc v code).resOpc = opc := rfl
@[simp] theorem State.reporting_resV (s : State) (opc : Byte) (v : Bool) (code : Byte) : (s.reporting opc v code).resV = v := rfl
@[simp] theorem State.reporting_inLen (s : State) (opc : Byte) (v : Bool) (code : Byte) : (s.reporting opc v code).inLen = s.inLen := rfl
@[simp] theorem State.reporting_outCap (s : State) (opc : Byte) (v : Bool) (code : Byte) : (s.reporting opc v code).outCap = s.outCap := rfl
@[simp] theorem State.reporting_outLen (s : State) (opc : Byte) (v : Bool) (code : Byte) : (s.reporting opc v code).outLen = s.outLen := rfl
@[simp] theorem State.reporting_token0 (s : State) (opc : Byte) (v : Bool) (code : Byte) : (s.reporting opc v code).token0 = s.token0 := rfl
@[simp] theorem State.reporting_token1 (s : State) (opc : Byte) (v : Bool) (code : Byte) : (s.reporting opc v code).token1 = s.token1 := rfl
@[simp] theorem State.reporting_token2 (s : State) (opc : Byte) (v : Bool) (code : Byte) : (s.reporting opc v code).token2 = s.token2 := rfl
@[simp] theorem State.reporting_token3 (s : State) (opc : Byte) (v : Bool) (code : Byte) : (s.reporting opc v code).token3 = s.token3 := rfl
@[simp] theorem State.reporting_tok (s : State) (opc : Byte) (v : Bool) (code : Byte) : (s.reporting opc v code).tok = s.tok := rfl
@[simp] theorem State.reporting_key (s : State) (opc : Byte) (v : Bool) (code : Byte) : (s.reporting opc v code).key = s.key := rfl
@[simp] theorem State.reporting_iv (s : State) (opc : Byte) (v : Bool) (code : Byte) : (s.reporting opc v code).iv = s.iv := rfl
@[simp] theorem State.reporting_devid (s : State) (opc : Byte) (v : Bool) (code : Byte) : (s.reporting opc v code).devid = s.devid := rfl
@[simp] theorem State.reporting_stamp (s : State) (opc : Byte) (v : Bool) (code : Byte) : (s.reporting opc v code).stamp = s.stamp := rfl
@[simp] theorem State.reporting_rxMagic (s : State) (opc : Byte) (v : Bool) (code : Byte) : (s.reporting opc v code).rxMagic = s.rxMagic := rfl
@[simp] theorem State.reporting_rxTotlen (s : State) (opc : Byte) (v : Bool) (code : Byte) : (s.reporting opc v code).rxTotlen = s.rxTotlen := rfl
@[simp] theorem State.reporting_rxDevid (s : State) (opc : Byte) (v : Bool) (code : Byte) : (s.reporting opc v code).rxDevid = s.rxDevid := rfl
@[simp] theorem State.reporting_rxStamp (s : State) (opc : Byte) (v : Bool) (code : Byte) : (s.reporting opc v code).rxStamp = s.rxStamp := rfl
@[simp] theorem State.reporting_rxCksum (s : State) (opc : Byte) (v : Bool) (code : Byte) : (s.reporting opc v code).rxCksum = s.rxCksum := rfl
@[simp] theorem State.reporting_digest (s : State) (opc : Byte) (v : Bool) (code : Byte) : (s.reporting opc v code).digest = s.digest := rfl
@[simp] theorem State.reporting_inBuf (s : State) (opc : Byte) (v : Bool) (code : Byte) : (s.reporting opc v code).inBuf = s.inBuf := rfl
@[simp] theorem State.reporting_outBuf (s : State) (opc : Byte) (v : Bool) (code : Byte) : (s.reporting opc v code).outBuf = s.outBuf := rfl
@[simp] theorem State.reporting_events (s : State) (opc : Byte) (v : Bool) (code : Byte) : (s.reporting opc v code).events = s.events := rfl
@[simp] theorem State.reporting_replies (s : State) (opc : Byte) (v : Bool) (code : Byte) : (s.reporting opc v code).replies = s.replies := rfl
@[simp] theorem State.reporting_draws (s : State) (opc : Byte) (v : Bool) (code : Byte) : (s.reporting opc v code).draws = s.draws + 1 := rfl

@[simp] theorem State.finish_irqEn (s : State) (w : Word) (code : Byte) : (s.finish w code).irqEn = s.irqEn := rfl
@[simp] theorem State.finish_hsOneshot (s : State) (w : Word) (code : Byte) : (s.finish w code).hsOneshot = s.hsOneshot := rfl
@[simp] theorem State.finish_busy (s : State) (w : Word) (code : Byte) : (s.finish w code).busy = false := rfl
@[simp] theorem State.finish_done (s : State) (w : Word) (code : Byte) : (s.finish w code).done = true := rfl
@[simp] theorem State.finish_err (s : State) (w : Word) (code : Byte) : (s.finish w code).err = if code ≠ 0 then true else s.err := rfl
@[simp] theorem State.finish_cmdOvr (s : State) (w : Word) (code : Byte) : (s.finish w code).cmdOvr = s.cmdOvr := rfl
@[simp] theorem State.finish_busyWr (s : State) (w : Word) (code : Byte) : (s.finish w code).busyWr = s.busyWr := rfl
@[simp] theorem State.finish_conn (s : State) (w : Word) (code : Byte) : (s.finish w code).conn = s.conn := rfl
@[simp] theorem State.finish_hsValid (s : State) (w : Word) (code : Byte) : (s.finish w code).hsValid = s.hsValid := rfl
@[simp] theorem State.finish_tokenWr (s : State) (w : Word) (code : Byte) : (s.finish w code).tokenWr = s.tokenWr := rfl
@[simp] theorem State.finish_cmdLatch (s : State) (w : Word) (code : Byte) : (s.finish w code).cmdLatch = s.cmdLatch := rfl
@[simp] theorem State.finish_resCode (s : State) (w : Word) (code : Byte) : (s.finish w code).resCode = code := rfl
@[simp] theorem State.finish_resOpc (s : State) (w : Word) (code : Byte) : (s.finish w code).resOpc = w.extractLsb' 0 8 := rfl
@[simp] theorem State.finish_resV (s : State) (w : Word) (code : Byte) : (s.finish w code).resV = w.getLsbD 8 := rfl
@[simp] theorem State.finish_inLen (s : State) (w : Word) (code : Byte) : (s.finish w code).inLen = s.inLen := rfl
@[simp] theorem State.finish_outCap (s : State) (w : Word) (code : Byte) : (s.finish w code).outCap = s.outCap := rfl
@[simp] theorem State.finish_outLen (s : State) (w : Word) (code : Byte) : (s.finish w code).outLen = s.outLen := rfl
@[simp] theorem State.finish_token0 (s : State) (w : Word) (code : Byte) : (s.finish w code).token0 = s.token0 := rfl
@[simp] theorem State.finish_token1 (s : State) (w : Word) (code : Byte) : (s.finish w code).token1 = s.token1 := rfl
@[simp] theorem State.finish_token2 (s : State) (w : Word) (code : Byte) : (s.finish w code).token2 = s.token2 := rfl
@[simp] theorem State.finish_token3 (s : State) (w : Word) (code : Byte) : (s.finish w code).token3 = s.token3 := rfl
@[simp] theorem State.finish_tok (s : State) (w : Word) (code : Byte) : (s.finish w code).tok = s.tok := rfl
@[simp] theorem State.finish_key (s : State) (w : Word) (code : Byte) : (s.finish w code).key = s.key := rfl
@[simp] theorem State.finish_iv (s : State) (w : Word) (code : Byte) : (s.finish w code).iv = s.iv := rfl
@[simp] theorem State.finish_devid (s : State) (w : Word) (code : Byte) : (s.finish w code).devid = s.devid := rfl
@[simp] theorem State.finish_stamp (s : State) (w : Word) (code : Byte) : (s.finish w code).stamp = s.stamp := rfl
@[simp] theorem State.finish_rxMagic (s : State) (w : Word) (code : Byte) : (s.finish w code).rxMagic = s.rxMagic := rfl
@[simp] theorem State.finish_rxTotlen (s : State) (w : Word) (code : Byte) : (s.finish w code).rxTotlen = s.rxTotlen := rfl
@[simp] theorem State.finish_rxDevid (s : State) (w : Word) (code : Byte) : (s.finish w code).rxDevid = s.rxDevid := rfl
@[simp] theorem State.finish_rxStamp (s : State) (w : Word) (code : Byte) : (s.finish w code).rxStamp = s.rxStamp := rfl
@[simp] theorem State.finish_rxCksum (s : State) (w : Word) (code : Byte) : (s.finish w code).rxCksum = s.rxCksum := rfl
@[simp] theorem State.finish_digest (s : State) (w : Word) (code : Byte) : (s.finish w code).digest = s.digest := rfl
@[simp] theorem State.finish_inBuf (s : State) (w : Word) (code : Byte) : (s.finish w code).inBuf = s.inBuf := rfl
@[simp] theorem State.finish_outBuf (s : State) (w : Word) (code : Byte) : (s.finish w code).outBuf = s.outBuf := rfl
@[simp] theorem State.finish_events (s : State) (w : Word) (code : Byte) : (s.finish w code).events = s.events := rfl
@[simp] theorem State.finish_replies (s : State) (w : Word) (code : Byte) : (s.finish w code).replies = s.replies := rfl
@[simp] theorem State.finish_draws (s : State) (w : Word) (code : Byte) : (s.finish w code).draws = s.draws + 1 := rfl

@[simp] theorem State.issue_irqEn (s : State) (w : Word) : (s.issue w).irqEn = s.irqEn := rfl
@[simp] theorem State.issue_hsOneshot (s : State) (w : Word) : (s.issue w).hsOneshot = s.hsOneshot := rfl
@[simp] theorem State.issue_busy (s : State) (w : Word) : (s.issue w).busy = true := rfl
@[simp] theorem State.issue_done (s : State) (w : Word) : (s.issue w).done = false := rfl
@[simp] theorem State.issue_err (s : State) (w : Word) : (s.issue w).err = false := rfl
@[simp] theorem State.issue_cmdOvr (s : State) (w : Word) : (s.issue w).cmdOvr = s.cmdOvr := rfl
@[simp] theorem State.issue_busyWr (s : State) (w : Word) : (s.issue w).busyWr = s.busyWr := rfl
@[simp] theorem State.issue_conn (s : State) (w : Word) : (s.issue w).conn = s.conn := rfl
@[simp] theorem State.issue_hsValid (s : State) (w : Word) : (s.issue w).hsValid = s.hsValid := rfl
@[simp] theorem State.issue_tokenWr (s : State) (w : Word) : (s.issue w).tokenWr = s.tokenWr := rfl
@[simp] theorem State.issue_cmdLatch (s : State) (w : Word) : (s.issue w).cmdLatch = w := rfl
@[simp] theorem State.issue_resCode (s : State) (w : Word) : (s.issue w).resCode = s.resCode := rfl
@[simp] theorem State.issue_resOpc (s : State) (w : Word) : (s.issue w).resOpc = s.resOpc := rfl
@[simp] theorem State.issue_resV (s : State) (w : Word) : (s.issue w).resV = s.resV := rfl
@[simp] theorem State.issue_inLen (s : State) (w : Word) : (s.issue w).inLen = s.inLen := rfl
@[simp] theorem State.issue_outCap (s : State) (w : Word) : (s.issue w).outCap = s.outCap := rfl
@[simp] theorem State.issue_outLen (s : State) (w : Word) : (s.issue w).outLen = s.outLen := rfl
@[simp] theorem State.issue_token0 (s : State) (w : Word) : (s.issue w).token0 = s.token0 := rfl
@[simp] theorem State.issue_token1 (s : State) (w : Word) : (s.issue w).token1 = s.token1 := rfl
@[simp] theorem State.issue_token2 (s : State) (w : Word) : (s.issue w).token2 = s.token2 := rfl
@[simp] theorem State.issue_token3 (s : State) (w : Word) : (s.issue w).token3 = s.token3 := rfl
@[simp] theorem State.issue_tok (s : State) (w : Word) : (s.issue w).tok = s.tok := rfl
@[simp] theorem State.issue_key (s : State) (w : Word) : (s.issue w).key = s.key := rfl
@[simp] theorem State.issue_iv (s : State) (w : Word) : (s.issue w).iv = s.iv := rfl
@[simp] theorem State.issue_devid (s : State) (w : Word) : (s.issue w).devid = s.devid := rfl
@[simp] theorem State.issue_stamp (s : State) (w : Word) : (s.issue w).stamp = s.stamp := rfl
@[simp] theorem State.issue_rxMagic (s : State) (w : Word) : (s.issue w).rxMagic = s.rxMagic := rfl
@[simp] theorem State.issue_rxTotlen (s : State) (w : Word) : (s.issue w).rxTotlen = s.rxTotlen := rfl
@[simp] theorem State.issue_rxDevid (s : State) (w : Word) : (s.issue w).rxDevid = s.rxDevid := rfl
@[simp] theorem State.issue_rxStamp (s : State) (w : Word) : (s.issue w).rxStamp = s.rxStamp := rfl
@[simp] theorem State.issue_rxCksum (s : State) (w : Word) : (s.issue w).rxCksum = s.rxCksum := rfl
@[simp] theorem State.issue_digest (s : State) (w : Word) : (s.issue w).digest = s.digest := rfl
@[simp] theorem State.issue_inBuf (s : State) (w : Word) : (s.issue w).inBuf = s.inBuf := rfl
@[simp] theorem State.issue_outBuf (s : State) (w : Word) : (s.issue w).outBuf = s.outBuf := rfl
@[simp] theorem State.issue_events (s : State) (w : Word) : (s.issue w).events = s.events := rfl
@[simp] theorem State.issue_replies (s : State) (w : Word) : (s.issue w).replies = s.replies := rfl
@[simp] theorem State.issue_draws (s : State) (w : Word) : (s.issue w).draws = s.draws := rfl

@[simp] theorem State.writeOut_irqEn (s : State) (bs : Bytes) : (s.writeOut bs).irqEn = s.irqEn := rfl
@[simp] theorem State.writeOut_hsOneshot (s : State) (bs : Bytes) : (s.writeOut bs).hsOneshot = s.hsOneshot := rfl
@[simp] theorem State.writeOut_busy (s : State) (bs : Bytes) : (s.writeOut bs).busy = s.busy := rfl
@[simp] theorem State.writeOut_done (s : State) (bs : Bytes) : (s.writeOut bs).done = s.done := rfl
@[simp] theorem State.writeOut_err (s : State) (bs : Bytes) : (s.writeOut bs).err = s.err := rfl
@[simp] theorem State.writeOut_cmdOvr (s : State) (bs : Bytes) : (s.writeOut bs).cmdOvr = s.cmdOvr := rfl
@[simp] theorem State.writeOut_busyWr (s : State) (bs : Bytes) : (s.writeOut bs).busyWr = s.busyWr := rfl
@[simp] theorem State.writeOut_conn (s : State) (bs : Bytes) : (s.writeOut bs).conn = s.conn := rfl
@[simp] theorem State.writeOut_hsValid (s : State) (bs : Bytes) : (s.writeOut bs).hsValid = s.hsValid := rfl
@[simp] theorem State.writeOut_tokenWr (s : State) (bs : Bytes) : (s.writeOut bs).tokenWr = s.tokenWr := rfl
@[simp] theorem State.writeOut_cmdLatch (s : State) (bs : Bytes) : (s.writeOut bs).cmdLatch = s.cmdLatch := rfl
@[simp] theorem State.writeOut_resCode (s : State) (bs : Bytes) : (s.writeOut bs).resCode = s.resCode := rfl
@[simp] theorem State.writeOut_resOpc (s : State) (bs : Bytes) : (s.writeOut bs).resOpc = s.resOpc := rfl
@[simp] theorem State.writeOut_resV (s : State) (bs : Bytes) : (s.writeOut bs).resV = s.resV := rfl
@[simp] theorem State.writeOut_inLen (s : State) (bs : Bytes) : (s.writeOut bs).inLen = s.inLen := rfl
@[simp] theorem State.writeOut_outCap (s : State) (bs : Bytes) : (s.writeOut bs).outCap = s.outCap := rfl
@[simp] theorem State.writeOut_outLen (s : State) (bs : Bytes) : (s.writeOut bs).outLen = BitVec.ofNat 16 bs.length := rfl
@[simp] theorem State.writeOut_token0 (s : State) (bs : Bytes) : (s.writeOut bs).token0 = s.token0 := rfl
@[simp] theorem State.writeOut_token1 (s : State) (bs : Bytes) : (s.writeOut bs).token1 = s.token1 := rfl
@[simp] theorem State.writeOut_token2 (s : State) (bs : Bytes) : (s.writeOut bs).token2 = s.token2 := rfl
@[simp] theorem State.writeOut_token3 (s : State) (bs : Bytes) : (s.writeOut bs).token3 = s.token3 := rfl
@[simp] theorem State.writeOut_tok (s : State) (bs : Bytes) : (s.writeOut bs).tok = s.tok := rfl
@[simp] theorem State.writeOut_key (s : State) (bs : Bytes) : (s.writeOut bs).key = s.key := rfl
@[simp] theorem State.writeOut_iv (s : State) (bs : Bytes) : (s.writeOut bs).iv = s.iv := rfl
@[simp] theorem State.writeOut_devid (s : State) (bs : Bytes) : (s.writeOut bs).devid = s.devid := rfl
@[simp] theorem State.writeOut_stamp (s : State) (bs : Bytes) : (s.writeOut bs).stamp = s.stamp := rfl
@[simp] theorem State.writeOut_rxMagic (s : State) (bs : Bytes) : (s.writeOut bs).rxMagic = s.rxMagic := rfl
@[simp] theorem State.writeOut_rxTotlen (s : State) (bs : Bytes) : (s.writeOut bs).rxTotlen = s.rxTotlen := rfl
@[simp] theorem State.writeOut_rxDevid (s : State) (bs : Bytes) : (s.writeOut bs).rxDevid = s.rxDevid := rfl
@[simp] theorem State.writeOut_rxStamp (s : State) (bs : Bytes) : (s.writeOut bs).rxStamp = s.rxStamp := rfl
@[simp] theorem State.writeOut_rxCksum (s : State) (bs : Bytes) : (s.writeOut bs).rxCksum = s.rxCksum := rfl
@[simp] theorem State.writeOut_digest (s : State) (bs : Bytes) : (s.writeOut bs).digest = s.digest := rfl
@[simp] theorem State.writeOut_inBuf (s : State) (bs : Bytes) : (s.writeOut bs).inBuf = s.inBuf := rfl
@[simp] theorem State.writeOut_outBuf (s : State) (bs : Bytes) : (s.writeOut bs).outBuf = s.outBuf.write 0 bs := rfl
@[simp] theorem State.writeOut_events (s : State) (bs : Bytes) : (s.writeOut bs).events = s.events := rfl
@[simp] theorem State.writeOut_replies (s : State) (bs : Bytes) : (s.writeOut bs).replies = s.replies := rfl
@[simp] theorem State.writeOut_draws (s : State) (bs : Bytes) : (s.writeOut bs).draws = s.draws := rfl

@[simp] theorem State.writeInWord_irqEn (s : State) (i : Nat) (d : Word) : (s.writeInWord i d).irqEn = s.irqEn := rfl
@[simp] theorem State.writeInWord_hsOneshot (s : State) (i : Nat) (d : Word) : (s.writeInWord i d).hsOneshot = s.hsOneshot := rfl
@[simp] theorem State.writeInWord_busy (s : State) (i : Nat) (d : Word) : (s.writeInWord i d).busy = s.busy := rfl
@[simp] theorem State.writeInWord_done (s : State) (i : Nat) (d : Word) : (s.writeInWord i d).done = s.done := rfl
@[simp] theorem State.writeInWord_err (s : State) (i : Nat) (d : Word) : (s.writeInWord i d).err = s.err := rfl
@[simp] theorem State.writeInWord_cmdOvr (s : State) (i : Nat) (d : Word) : (s.writeInWord i d).cmdOvr = s.cmdOvr := rfl
@[simp] theorem State.writeInWord_busyWr (s : State) (i : Nat) (d : Word) : (s.writeInWord i d).busyWr = s.busyWr := rfl
@[simp] theorem State.writeInWord_conn (s : State) (i : Nat) (d : Word) : (s.writeInWord i d).conn = s.conn := rfl
@[simp] theorem State.writeInWord_hsValid (s : State) (i : Nat) (d : Word) : (s.writeInWord i d).hsValid = s.hsValid := rfl
@[simp] theorem State.writeInWord_tokenWr (s : State) (i : Nat) (d : Word) : (s.writeInWord i d).tokenWr = s.tokenWr := rfl
@[simp] theorem State.writeInWord_cmdLatch (s : State) (i : Nat) (d : Word) : (s.writeInWord i d).cmdLatch = s.cmdLatch := rfl
@[simp] theorem State.writeInWord_resCode (s : State) (i : Nat) (d : Word) : (s.writeInWord i d).resCode = s.resCode := rfl
@[simp] theorem State.writeInWord_resOpc (s : State) (i : Nat) (d : Word) : (s.writeInWord i d).resOpc = s.resOpc := rfl
@[simp] theorem State.writeInWord_resV (s : State) (i : Nat) (d : Word) : (s.writeInWord i d).resV = s.resV := rfl
@[simp] theorem State.writeInWord_inLen (s : State) (i : Nat) (d : Word) : (s.writeInWord i d).inLen = s.inLen := rfl
@[simp] theorem State.writeInWord_outCap (s : State) (i : Nat) (d : Word) : (s.writeInWord i d).outCap = s.outCap := rfl
@[simp] theorem State.writeInWord_outLen (s : State) (i : Nat) (d : Word) : (s.writeInWord i d).outLen = s.outLen := rfl
@[simp] theorem State.writeInWord_token0 (s : State) (i : Nat) (d : Word) : (s.writeInWord i d).token0 = s.token0 := rfl
@[simp] theorem State.writeInWord_token1 (s : State) (i : Nat) (d : Word) : (s.writeInWord i d).token1 = s.token1 := rfl
@[simp] theorem State.writeInWord_token2 (s : State) (i : Nat) (d : Word) : (s.writeInWord i d).token2 = s.token2 := rfl
@[simp] theorem State.writeInWord_token3 (s : State) (i : Nat) (d : Word) : (s.writeInWord i d).token3 = s.token3 := rfl
@[simp] theorem State.writeInWord_tok (s : State) (i : Nat) (d : Word) : (s.writeInWord i d).tok = s.tok := rfl
@[simp] theorem State.writeInWord_key (s : State) (i : Nat) (d : Word) : (s.writeInWord i d).key = s.key := rfl
@[simp] theorem State.writeInWord_iv (s : State) (i : Nat) (d : Word) : (s.writeInWord i d).iv = s.iv := rfl
@[simp] theorem State.writeInWord_devid (s : State) (i : Nat) (d : Word) : (s.writeInWord i d).devid = s.devid := rfl
@[simp] theorem State.writeInWord_stamp (s : State) (i : Nat) (d : Word) : (s.writeInWord i d).stamp = s.stamp := rfl
@[simp] theorem State.writeInWord_rxMagic (s : State) (i : Nat) (d : Word) : (s.writeInWord i d).rxMagic = s.rxMagic := rfl
@[simp] theorem State.writeInWord_rxTotlen (s : State) (i : Nat) (d : Word) : (s.writeInWord i d).rxTotlen = s.rxTotlen := rfl
@[simp] theorem State.writeInWord_rxDevid (s : State) (i : Nat) (d : Word) : (s.writeInWord i d).rxDevid = s.rxDevid := rfl
@[simp] theorem State.writeInWord_rxStamp (s : State) (i : Nat) (d : Word) : (s.writeInWord i d).rxStamp = s.rxStamp := rfl
@[simp] theorem State.writeInWord_rxCksum (s : State) (i : Nat) (d : Word) : (s.writeInWord i d).rxCksum = s.rxCksum := rfl
@[simp] theorem State.writeInWord_digest (s : State) (i : Nat) (d : Word) : (s.writeInWord i d).digest = s.digest := rfl
@[simp] theorem State.writeInWord_inBuf (s : State) (i : Nat) (d : Word) : (s.writeInWord i d).inBuf = s.inBuf.write i (be32 d) := rfl
@[simp] theorem State.writeInWord_outBuf (s : State) (i : Nat) (d : Word) : (s.writeInWord i d).outBuf = s.outBuf := rfl
@[simp] theorem State.writeInWord_events (s : State) (i : Nat) (d : Word) : (s.writeInWord i d).events = s.events := rfl
@[simp] theorem State.writeInWord_replies (s : State) (i : Nat) (d : Word) : (s.writeInWord i d).replies = s.replies := rfl
@[simp] theorem State.writeInWord_draws (s : State) (i : Nat) (d : Word) : (s.writeInWord i d).draws = s.draws := rfl

@[simp] theorem State.setInLen_irqEn (s : State) (v : Half) : (s.setInLen v).irqEn = s.irqEn := rfl
@[simp] theorem State.setInLen_hsOneshot (s : State) (v : Half) : (s.setInLen v).hsOneshot = s.hsOneshot := rfl
@[simp] theorem State.setInLen_busy (s : State) (v : Half) : (s.setInLen v).busy = s.busy := rfl
@[simp] theorem State.setInLen_done (s : State) (v : Half) : (s.setInLen v).done = s.done := rfl
@[simp] theorem State.setInLen_err (s : State) (v : Half) : (s.setInLen v).err = s.err := rfl
@[simp] theorem State.setInLen_cmdOvr (s : State) (v : Half) : (s.setInLen v).cmdOvr = s.cmdOvr := rfl
@[simp] theorem State.setInLen_busyWr (s : State) (v : Half) : (s.setInLen v).busyWr = s.busyWr := rfl
@[simp] theorem State.setInLen_conn (s : State) (v : Half) : (s.setInLen v).conn = s.conn := rfl
@[simp] theorem State.setInLen_hsValid (s : State) (v : Half) : (s.setInLen v).hsValid = s.hsValid := rfl
@[simp] theorem State.setInLen_tokenWr (s : State) (v : Half) : (s.setInLen v).tokenWr = s.tokenWr := rfl
@[simp] theorem State.setInLen_cmdLatch (s : State) (v : Half) : (s.setInLen v).cmdLatch = s.cmdLatch := rfl
@[simp] theorem State.setInLen_resCode (s : State) (v : Half) : (s.setInLen v).resCode = s.resCode := rfl
@[simp] theorem State.setInLen_resOpc (s : State) (v : Half) : (s.setInLen v).resOpc = s.resOpc := rfl
@[simp] theorem State.setInLen_resV (s : State) (v : Half) : (s.setInLen v).resV = s.resV := rfl
@[simp] theorem State.setInLen_inLen (s : State) (v : Half) : (s.setInLen v).inLen = v := rfl
@[simp] theorem State.setInLen_outCap (s : State) (v : Half) : (s.setInLen v).outCap = s.outCap := rfl
@[simp] theorem State.setInLen_outLen (s : State) (v : Half) : (s.setInLen v).outLen = s.outLen := rfl
@[simp] theorem State.setInLen_token0 (s : State) (v : Half) : (s.setInLen v).token0 = s.token0 := rfl
@[simp] theorem State.setInLen_token1 (s : State) (v : Half) : (s.setInLen v).token1 = s.token1 := rfl
@[simp] theorem State.setInLen_token2 (s : State) (v : Half) : (s.setInLen v).token2 = s.token2 := rfl
@[simp] theorem State.setInLen_token3 (s : State) (v : Half) : (s.setInLen v).token3 = s.token3 := rfl
@[simp] theorem State.setInLen_tok (s : State) (v : Half) : (s.setInLen v).tok = s.tok := rfl
@[simp] theorem State.setInLen_key (s : State) (v : Half) : (s.setInLen v).key = s.key := rfl
@[simp] theorem State.setInLen_iv (s : State) (v : Half) : (s.setInLen v).iv = s.iv := rfl
@[simp] theorem State.setInLen_devid (s : State) (v : Half) : (s.setInLen v).devid = s.devid := rfl
@[simp] theorem State.setInLen_stamp (s : State) (v : Half) : (s.setInLen v).stamp = s.stamp := rfl
@[simp] theorem State.setInLen_rxMagic (s : State) (v : Half) : (s.setInLen v).rxMagic = s.rxMagic := rfl
@[simp] theorem State.setInLen_rxTotlen (s : State) (v : Half) : (s.setInLen v).rxTotlen = s.rxTotlen := rfl
@[simp] theorem State.setInLen_rxDevid (s : State) (v : Half) : (s.setInLen v).rxDevid = s.rxDevid := rfl
@[simp] theorem State.setInLen_rxStamp (s : State) (v : Half) : (s.setInLen v).rxStamp = s.rxStamp := rfl
@[simp] theorem State.setInLen_rxCksum (s : State) (v : Half) : (s.setInLen v).rxCksum = s.rxCksum := rfl
@[simp] theorem State.setInLen_digest (s : State) (v : Half) : (s.setInLen v).digest = s.digest := rfl
@[simp] theorem State.setInLen_inBuf (s : State) (v : Half) : (s.setInLen v).inBuf = s.inBuf := rfl
@[simp] theorem State.setInLen_outBuf (s : State) (v : Half) : (s.setInLen v).outBuf = s.outBuf := rfl
@[simp] theorem State.setInLen_events (s : State) (v : Half) : (s.setInLen v).events = s.events := rfl
@[simp] theorem State.setInLen_replies (s : State) (v : Half) : (s.setInLen v).replies = s.replies := rfl
@[simp] theorem State.setInLen_draws (s : State) (v : Half) : (s.setInLen v).draws = s.draws := rfl

@[simp] theorem State.setOutCap_irqEn (s : State) (v : Half) : (s.setOutCap v).irqEn = s.irqEn := rfl
@[simp] theorem State.setOutCap_hsOneshot (s : State) (v : Half) : (s.setOutCap v).hsOneshot = s.hsOneshot := rfl
@[simp] theorem State.setOutCap_busy (s : State) (v : Half) : (s.setOutCap v).busy = s.busy := rfl
@[simp] theorem State.setOutCap_done (s : State) (v : Half) : (s.setOutCap v).done = s.done := rfl
@[simp] theorem State.setOutCap_err (s : State) (v : Half) : (s.setOutCap v).err = s.err := rfl
@[simp] theorem State.setOutCap_cmdOvr (s : State) (v : Half) : (s.setOutCap v).cmdOvr = s.cmdOvr := rfl
@[simp] theorem State.setOutCap_busyWr (s : State) (v : Half) : (s.setOutCap v).busyWr = s.busyWr := rfl
@[simp] theorem State.setOutCap_conn (s : State) (v : Half) : (s.setOutCap v).conn = s.conn := rfl
@[simp] theorem State.setOutCap_hsValid (s : State) (v : Half) : (s.setOutCap v).hsValid = s.hsValid := rfl
@[simp] theorem State.setOutCap_tokenWr (s : State) (v : Half) : (s.setOutCap v).tokenWr = s.tokenWr := rfl
@[simp] theorem State.setOutCap_cmdLatch (s : State) (v : Half) : (s.setOutCap v).cmdLatch = s.cmdLatch := rfl
@[simp] theorem State.setOutCap_resCode (s : State) (v : Half) : (s.setOutCap v).resCode = s.resCode := rfl
@[simp] theorem State.setOutCap_resOpc (s : State) (v : Half) : (s.setOutCap v).resOpc = s.resOpc := rfl
@[simp] theorem State.setOutCap_resV (s : State) (v : Half) : (s.setOutCap v).resV = s.resV := rfl
@[simp] theorem State.setOutCap_inLen (s : State) (v : Half) : (s.setOutCap v).inLen = s.inLen := rfl
@[simp] theorem State.setOutCap_outCap (s : State) (v : Half) : (s.setOutCap v).outCap = v := rfl
@[simp] theorem State.setOutCap_outLen (s : State) (v : Half) : (s.setOutCap v).outLen = s.outLen := rfl
@[simp] theorem State.setOutCap_token0 (s : State) (v : Half) : (s.setOutCap v).token0 = s.token0 := rfl
@[simp] theorem State.setOutCap_token1 (s : State) (v : Half) : (s.setOutCap v).token1 = s.token1 := rfl
@[simp] theorem State.setOutCap_token2 (s : State) (v : Half) : (s.setOutCap v).token2 = s.token2 := rfl
@[simp] theorem State.setOutCap_token3 (s : State) (v : Half) : (s.setOutCap v).token3 = s.token3 := rfl
@[simp] theorem State.setOutCap_tok (s : State) (v : Half) : (s.setOutCap v).tok = s.tok := rfl
@[simp] theorem State.setOutCap_key (s : State) (v : Half) : (s.setOutCap v).key = s.key := rfl
@[simp] theorem State.setOutCap_iv (s : State) (v : Half) : (s.setOutCap v).iv = s.iv := rfl
@[simp] theorem State.setOutCap_devid (s : State) (v : Half) : (s.setOutCap v).devid = s.devid := rfl
@[simp] theorem State.setOutCap_stamp (s : State) (v : Half) : (s.setOutCap v).stamp = s.stamp := rfl
@[simp] theorem State.setOutCap_rxMagic (s : State) (v : Half) : (s.setOutCap v).rxMagic = s.rxMagic := rfl
@[simp] theorem State.setOutCap_rxTotlen (s : State) (v : Half) : (s.setOutCap v).rxTotlen = s.rxTotlen := rfl
@[simp] theorem State.setOutCap_rxDevid (s : State) (v : Half) : (s.setOutCap v).rxDevid = s.rxDevid := rfl
@[simp] theorem State.setOutCap_rxStamp (s : State) (v : Half) : (s.setOutCap v).rxStamp = s.rxStamp := rfl
@[simp] theorem State.setOutCap_rxCksum (s : State) (v : Half) : (s.setOutCap v).rxCksum = s.rxCksum := rfl
@[simp] theorem State.setOutCap_digest (s : State) (v : Half) : (s.setOutCap v).digest = s.digest := rfl
@[simp] theorem State.setOutCap_inBuf (s : State) (v : Half) : (s.setOutCap v).inBuf = s.inBuf := rfl
@[simp] theorem State.setOutCap_outBuf (s : State) (v : Half) : (s.setOutCap v).outBuf = s.outBuf := rfl
@[simp] theorem State.setOutCap_events (s : State) (v : Half) : (s.setOutCap v).events = s.events := rfl
@[simp] theorem State.setOutCap_replies (s : State) (v : Half) : (s.setOutCap v).replies = s.replies := rfl
@[simp] theorem State.setOutCap_draws (s : State) (v : Half) : (s.setOutCap v).draws = s.draws := rfl

@[simp] theorem State.setDigest_irqEn (s : State) (v : Block) : (s.setDigest v).irqEn = s.irqEn := rfl
@[simp] theorem State.setDigest_hsOneshot (s : State) (v : Block) : (s.setDigest v).hsOneshot = s.hsOneshot := rfl
@[simp] theorem State.setDigest_busy (s : State) (v : Block) : (s.setDigest v).busy = s.busy := rfl
@[simp] theorem State.setDigest_done (s : State) (v : Block) : (s.setDigest v).done = s.done := rfl
@[simp] theorem State.setDigest_err (s : State) (v : Block) : (s.setDigest v).err = s.err := rfl
@[simp] theorem State.setDigest_cmdOvr (s : State) (v : Block) : (s.setDigest v).cmdOvr = s.cmdOvr := rfl
@[simp] theorem State.setDigest_busyWr (s : State) (v : Block) : (s.setDigest v).busyWr = s.busyWr := rfl
@[simp] theorem State.setDigest_conn (s : State) (v : Block) : (s.setDigest v).conn = s.conn := rfl
@[simp] theorem State.setDigest_hsValid (s : State) (v : Block) : (s.setDigest v).hsValid = s.hsValid := rfl
@[simp] theorem State.setDigest_tokenWr (s : State) (v : Block) : (s.setDigest v).tokenWr = s.tokenWr := rfl
@[simp] theorem State.setDigest_cmdLatch (s : State) (v : Block) : (s.setDigest v).cmdLatch = s.cmdLatch := rfl
@[simp] theorem State.setDigest_resCode (s : State) (v : Block) : (s.setDigest v).resCode = s.resCode := rfl
@[simp] theorem State.setDigest_resOpc (s : State) (v : Block) : (s.setDigest v).resOpc = s.resOpc := rfl
@[simp] theorem State.setDigest_resV (s : State) (v : Block) : (s.setDigest v).resV = s.resV := rfl
@[simp] theorem State.setDigest_inLen (s : State) (v : Block) : (s.setDigest v).inLen = s.inLen := rfl
@[simp] theorem State.setDigest_outCap (s : State) (v : Block) : (s.setDigest v).outCap = s.outCap := rfl
@[simp] theorem State.setDigest_outLen (s : State) (v : Block) : (s.setDigest v).outLen = s.outLen := rfl
@[simp] theorem State.setDigest_token0 (s : State) (v : Block) : (s.setDigest v).token0 = s.token0 := rfl
@[simp] theorem State.setDigest_token1 (s : State) (v : Block) : (s.setDigest v).token1 = s.token1 := rfl
@[simp] theorem State.setDigest_token2 (s : State) (v : Block) : (s.setDigest v).token2 = s.token2 := rfl
@[simp] theorem State.setDigest_token3 (s : State) (v : Block) : (s.setDigest v).token3 = s.token3 := rfl
@[simp] theorem State.setDigest_tok (s : State) (v : Block) : (s.setDigest v).tok = s.tok := rfl
@[simp] theorem State.setDigest_key (s : State) (v : Block) : (s.setDigest v).key = s.key := rfl
@[simp] theorem State.setDigest_iv (s : State) (v : Block) : (s.setDigest v).iv = s.iv := rfl
@[simp] theorem State.setDigest_devid (s : State) (v : Block) : (s.setDigest v).devid = s.devid := rfl
@[simp] theorem State.setDigest_stamp (s : State) (v : Block) : (s.setDigest v).stamp = s.stamp := rfl
@[simp] theorem State.setDigest_rxMagic (s : State) (v : Block) : (s.setDigest v).rxMagic = s.rxMagic := rfl
@[simp] theorem State.setDigest_rxTotlen (s : State) (v : Block) : (s.setDigest v).rxTotlen = s.rxTotlen := rfl
@[simp] theorem State.setDigest_rxDevid (s : State) (v : Block) : (s.setDigest v).rxDevid = s.rxDevid := rfl
@[simp] theorem State.setDigest_rxStamp (s : State) (v : Block) : (s.setDigest v).rxStamp = s.rxStamp := rfl
@[simp] theorem State.setDigest_rxCksum (s : State) (v : Block) : (s.setDigest v).rxCksum = s.rxCksum := rfl
@[simp] theorem State.setDigest_digest (s : State) (v : Block) : (s.setDigest v).digest = v := rfl
@[simp] theorem State.setDigest_inBuf (s : State) (v : Block) : (s.setDigest v).inBuf = s.inBuf := rfl
@[simp] theorem State.setDigest_outBuf (s : State) (v : Block) : (s.setDigest v).outBuf = s.outBuf := rfl
@[simp] theorem State.setDigest_events (s : State) (v : Block) : (s.setDigest v).events = s.events := rfl
@[simp] theorem State.setDigest_replies (s : State) (v : Block) : (s.setDigest v).replies = s.replies := rfl
@[simp] theorem State.setDigest_draws (s : State) (v : Block) : (s.setDigest v).draws = s.draws := rfl

@[simp] theorem State.setHsValid_irqEn (s : State) (v : Bool) : (s.setHsValid v).irqEn = s.irqEn := rfl
@[simp] theorem State.setHsValid_hsOneshot (s : State) (v : Bool) : (s.setHsValid v).hsOneshot = s.hsOneshot := rfl
@[simp] theorem State.setHsValid_busy (s : State) (v : Bool) : (s.setHsValid v).busy = s.busy := rfl
@[simp] theorem State.setHsValid_done (s : State) (v : Bool) : (s.setHsValid v).done = s.done := rfl
@[simp] theorem State.setHsValid_err (s : State) (v : Bool) : (s.setHsValid v).err = s.err := rfl
@[simp] theorem State.setHsValid_cmdOvr (s : State) (v : Bool) : (s.setHsValid v).cmdOvr = s.cmdOvr := rfl
@[simp] theorem State.setHsValid_busyWr (s : State) (v : Bool) : (s.setHsValid v).busyWr = s.busyWr := rfl
@[simp] theorem State.setHsValid_conn (s : State) (v : Bool) : (s.setHsValid v).conn = s.conn := rfl
@[simp] theorem State.setHsValid_hsValid (s : State) (v : Bool) : (s.setHsValid v).hsValid = v := rfl
@[simp] theorem State.setHsValid_tokenWr (s : State) (v : Bool) : (s.setHsValid v).tokenWr = s.tokenWr := rfl
@[simp] theorem State.setHsValid_cmdLatch (s : State) (v : Bool) : (s.setHsValid v).cmdLatch = s.cmdLatch := rfl
@[simp] theorem State.setHsValid_resCode (s : State) (v : Bool) : (s.setHsValid v).resCode = s.resCode := rfl
@[simp] theorem State.setHsValid_resOpc (s : State) (v : Bool) : (s.setHsValid v).resOpc = s.resOpc := rfl
@[simp] theorem State.setHsValid_resV (s : State) (v : Bool) : (s.setHsValid v).resV = s.resV := rfl
@[simp] theorem State.setHsValid_inLen (s : State) (v : Bool) : (s.setHsValid v).inLen = s.inLen := rfl
@[simp] theorem State.setHsValid_outCap (s : State) (v : Bool) : (s.setHsValid v).outCap = s.outCap := rfl
@[simp] theorem State.setHsValid_outLen (s : State) (v : Bool) : (s.setHsValid v).outLen = s.outLen := rfl
@[simp] theorem State.setHsValid_token0 (s : State) (v : Bool) : (s.setHsValid v).token0 = s.token0 := rfl
@[simp] theorem State.setHsValid_token1 (s : State) (v : Bool) : (s.setHsValid v).token1 = s.token1 := rfl
@[simp] theorem State.setHsValid_token2 (s : State) (v : Bool) : (s.setHsValid v).token2 = s.token2 := rfl
@[simp] theorem State.setHsValid_token3 (s : State) (v : Bool) : (s.setHsValid v).token3 = s.token3 := rfl
@[simp] theorem State.setHsValid_tok (s : State) (v : Bool) : (s.setHsValid v).tok = s.tok := rfl
@[simp] theorem State.setHsValid_key (s : State) (v : Bool) : (s.setHsValid v).key = s.key := rfl
@[simp] theorem State.setHsValid_iv (s : State) (v : Bool) : (s.setHsValid v).iv = s.iv := rfl
@[simp] theorem State.setHsValid_devid (s : State) (v : Bool) : (s.setHsValid v).devid = s.devid := rfl
@[simp] theorem State.setHsValid_stamp (s : State) (v : Bool) : (s.setHsValid v).stamp = s.stamp := rfl
@[simp] theorem State.setHsValid_rxMagic (s : State) (v : Bool) : (s.setHsValid v).rxMagic = s.rxMagic := rfl
@[simp] theorem State.setHsValid_rxTotlen (s : State) (v : Bool) : (s.setHsValid v).rxTotlen = s.rxTotlen := rfl
@[simp] theorem State.setHsValid_rxDevid (s : State) (v : Bool) : (s.setHsValid v).rxDevid = s.rxDevid := rfl
@[simp] theorem State.setHsValid_rxStamp (s : State) (v : Bool) : (s.setHsValid v).rxStamp = s.rxStamp := rfl
@[simp] theorem State.setHsValid_rxCksum (s : State) (v : Bool) : (s.setHsValid v).rxCksum = s.rxCksum := rfl
@[simp] theorem State.setHsValid_digest (s : State) (v : Bool) : (s.setHsValid v).digest = s.digest := rfl
@[simp] theorem State.setHsValid_inBuf (s : State) (v : Bool) : (s.setHsValid v).inBuf = s.inBuf := rfl
@[simp] theorem State.setHsValid_outBuf (s : State) (v : Bool) : (s.setHsValid v).outBuf = s.outBuf := rfl
@[simp] theorem State.setHsValid_events (s : State) (v : Bool) : (s.setHsValid v).events = s.events := rfl
@[simp] theorem State.setHsValid_replies (s : State) (v : Bool) : (s.setHsValid v).replies = s.replies := rfl
@[simp] theorem State.setHsValid_draws (s : State) (v : Bool) : (s.setHsValid v).draws = s.draws := rfl

@[simp] theorem State.setEvents_irqEn (s : State) (rest : List Event) : (s.setEvents rest).irqEn = s.irqEn := rfl
@[simp] theorem State.setEvents_hsOneshot (s : State) (rest : List Event) : (s.setEvents rest).hsOneshot = s.hsOneshot := rfl
@[simp] theorem State.setEvents_busy (s : State) (rest : List Event) : (s.setEvents rest).busy = s.busy := rfl
@[simp] theorem State.setEvents_done (s : State) (rest : List Event) : (s.setEvents rest).done = s.done := rfl
@[simp] theorem State.setEvents_err (s : State) (rest : List Event) : (s.setEvents rest).err = s.err := rfl
@[simp] theorem State.setEvents_cmdOvr (s : State) (rest : List Event) : (s.setEvents rest).cmdOvr = s.cmdOvr := rfl
@[simp] theorem State.setEvents_busyWr (s : State) (rest : List Event) : (s.setEvents rest).busyWr = s.busyWr := rfl
@[simp] theorem State.setEvents_conn (s : State) (rest : List Event) : (s.setEvents rest).conn = s.conn := rfl
@[simp] theorem State.setEvents_hsValid (s : State) (rest : List Event) : (s.setEvents rest).hsValid = s.hsValid := rfl
@[simp] theorem State.setEvents_tokenWr (s : State) (rest : List Event) : (s.setEvents rest).tokenWr = s.tokenWr := rfl
@[simp] theorem State.setEvents_cmdLatch (s : State) (rest : List Event) : (s.setEvents rest).cmdLatch = s.cmdLatch := rfl
@[simp] theorem State.setEvents_resCode (s : State) (rest : List Event) : (s.setEvents rest).resCode = s.resCode := rfl
@[simp] theorem State.setEvents_resOpc (s : State) (rest : List Event) : (s.setEvents rest).resOpc = s.resOpc := rfl
@[simp] theorem State.setEvents_resV (s : State) (rest : List Event) : (s.setEvents rest).resV = s.resV := rfl
@[simp] theorem State.setEvents_inLen (s : State) (rest : List Event) : (s.setEvents rest).inLen = s.inLen := rfl
@[simp] theorem State.setEvents_outCap (s : State) (rest : List Event) : (s.setEvents rest).outCap = s.outCap := rfl
@[simp] theorem State.setEvents_outLen (s : State) (rest : List Event) : (s.setEvents rest).outLen = s.outLen := rfl
@[simp] theorem State.setEvents_token0 (s : State) (rest : List Event) : (s.setEvents rest).token0 = s.token0 := rfl
@[simp] theorem State.setEvents_token1 (s : State) (rest : List Event) : (s.setEvents rest).token1 = s.token1 := rfl
@[simp] theorem State.setEvents_token2 (s : State) (rest : List Event) : (s.setEvents rest).token2 = s.token2 := rfl
@[simp] theorem State.setEvents_token3 (s : State) (rest : List Event) : (s.setEvents rest).token3 = s.token3 := rfl
@[simp] theorem State.setEvents_tok (s : State) (rest : List Event) : (s.setEvents rest).tok = s.tok := rfl
@[simp] theorem State.setEvents_key (s : State) (rest : List Event) : (s.setEvents rest).key = s.key := rfl
@[simp] theorem State.setEvents_iv (s : State) (rest : List Event) : (s.setEvents rest).iv = s.iv := rfl
@[simp] theorem State.setEvents_devid (s : State) (rest : List Event) : (s.setEvents rest).devid = s.devid := rfl
@[simp] theorem State.setEvents_stamp (s : State) (rest : List Event) : (s.setEvents rest).stamp = s.stamp := rfl
@[simp] theorem State.setEvents_rxMagic (s : State) (rest : List Event) : (s.setEvents rest).rxMagic = s.rxMagic := rfl
@[simp] theorem State.setEvents_rxTotlen (s : State) (rest : List Event) : (s.setEvents rest).rxTotlen = s.rxTotlen := rfl
@[simp] theorem State.setEvents_rxDevid (s : State) (rest : List Event) : (s.setEvents rest).rxDevid = s.rxDevid := rfl
@[simp] theorem State.setEvents_rxStamp (s : State) (rest : List Event) : (s.setEvents rest).rxStamp = s.rxStamp := rfl
@[simp] theorem State.setEvents_rxCksum (s : State) (rest : List Event) : (s.setEvents rest).rxCksum = s.rxCksum := rfl
@[simp] theorem State.setEvents_digest (s : State) (rest : List Event) : (s.setEvents rest).digest = s.digest := rfl
@[simp] theorem State.setEvents_inBuf (s : State) (rest : List Event) : (s.setEvents rest).inBuf = s.inBuf := rfl
@[simp] theorem State.setEvents_outBuf (s : State) (rest : List Event) : (s.setEvents rest).outBuf = s.outBuf := rfl
@[simp] theorem State.setEvents_events (s : State) (rest : List Event) : (s.setEvents rest).events = rest := rfl
@[simp] theorem State.setEvents_replies (s : State) (rest : List Event) : (s.setEvents rest).replies = s.replies := rfl
@[simp] theorem State.setEvents_draws (s : State) (rest : List Event) : (s.setEvents rest).draws = s.draws := rfl

@[simp] theorem State.addReply_irqEn (s : State) (r : Reply) : (s.addReply r).irqEn = s.irqEn := rfl
@[simp] theorem State.addReply_hsOneshot (s : State) (r : Reply) : (s.addReply r).hsOneshot = s.hsOneshot := rfl
@[simp] theorem State.addReply_busy (s : State) (r : Reply) : (s.addReply r).busy = s.busy := rfl
@[simp] theorem State.addReply_done (s : State) (r : Reply) : (s.addReply r).done = s.done := rfl
@[simp] theorem State.addReply_err (s : State) (r : Reply) : (s.addReply r).err = s.err := rfl
@[simp] theorem State.addReply_cmdOvr (s : State) (r : Reply) : (s.addReply r).cmdOvr = s.cmdOvr := rfl
@[simp] theorem State.addReply_busyWr (s : State) (r : Reply) : (s.addReply r).busyWr = s.busyWr := rfl
@[simp] theorem State.addReply_conn (s : State) (r : Reply) : (s.addReply r).conn = s.conn := rfl
@[simp] theorem State.addReply_hsValid (s : State) (r : Reply) : (s.addReply r).hsValid = s.hsValid := rfl
@[simp] theorem State.addReply_tokenWr (s : State) (r : Reply) : (s.addReply r).tokenWr = s.tokenWr := rfl
@[simp] theorem State.addReply_cmdLatch (s : State) (r : Reply) : (s.addReply r).cmdLatch = s.cmdLatch := rfl
@[simp] theorem State.addReply_resCode (s : State) (r : Reply) : (s.addReply r).resCode = s.resCode := rfl
@[simp] theorem State.addReply_resOpc (s : State) (r : Reply) : (s.addReply r).resOpc = s.resOpc := rfl
@[simp] theorem State.addReply_resV (s : State) (r : Reply) : (s.addReply r).resV = s.resV := rfl
@[simp] theorem State.addReply_inLen (s : State) (r : Reply) : (s.addReply r).inLen = s.inLen := rfl
@[simp] theorem State.addReply_outCap (s : State) (r : Reply) : (s.addReply r).outCap = s.outCap := rfl
@[simp] theorem State.addReply_outLen (s : State) (r : Reply) : (s.addReply r).outLen = s.outLen := rfl
@[simp] theorem State.addReply_token0 (s : State) (r : Reply) : (s.addReply r).token0 = s.token0 := rfl
@[simp] theorem State.addReply_token1 (s : State) (r : Reply) : (s.addReply r).token1 = s.token1 := rfl
@[simp] theorem State.addReply_token2 (s : State) (r : Reply) : (s.addReply r).token2 = s.token2 := rfl
@[simp] theorem State.addReply_token3 (s : State) (r : Reply) : (s.addReply r).token3 = s.token3 := rfl
@[simp] theorem State.addReply_tok (s : State) (r : Reply) : (s.addReply r).tok = s.tok := rfl
@[simp] theorem State.addReply_key (s : State) (r : Reply) : (s.addReply r).key = s.key := rfl
@[simp] theorem State.addReply_iv (s : State) (r : Reply) : (s.addReply r).iv = s.iv := rfl
@[simp] theorem State.addReply_devid (s : State) (r : Reply) : (s.addReply r).devid = s.devid := rfl
@[simp] theorem State.addReply_stamp (s : State) (r : Reply) : (s.addReply r).stamp = s.stamp := rfl
@[simp] theorem State.addReply_rxMagic (s : State) (r : Reply) : (s.addReply r).rxMagic = s.rxMagic := rfl
@[simp] theorem State.addReply_rxTotlen (s : State) (r : Reply) : (s.addReply r).rxTotlen = s.rxTotlen := rfl
@[simp] theorem State.addReply_rxDevid (s : State) (r : Reply) : (s.addReply r).rxDevid = s.rxDevid := rfl
@[simp] theorem State.addReply_rxStamp (s : State) (r : Reply) : (s.addReply r).rxStamp = s.rxStamp := rfl
@[simp] theorem State.addReply_rxCksum (s : State) (r : Reply) : (s.addReply r).rxCksum = s.rxCksum := rfl
@[simp] theorem State.addReply_digest (s : State) (r : Reply) : (s.addReply r).digest = s.digest := rfl
@[simp] theorem State.addReply_inBuf (s : State) (r : Reply) : (s.addReply r).inBuf = s.inBuf := rfl
@[simp] theorem State.addReply_outBuf (s : State) (r : Reply) : (s.addReply r).outBuf = s.outBuf := rfl
@[simp] theorem State.addReply_events (s : State) (r : Reply) : (s.addReply r).events = s.events := rfl
@[simp] theorem State.addReply_replies (s : State) (r : Reply) : (s.addReply r).replies = r :: s.replies := rfl
@[simp] theorem State.addReply_draws (s : State) (r : Reply) : (s.addReply r).draws = s.draws := rfl

@[simp] theorem State.clearLink_irqEn (s : State) : (s.clearLink).irqEn = s.irqEn := rfl
@[simp] theorem State.clearLink_hsOneshot (s : State) : (s.clearLink).hsOneshot = s.hsOneshot := rfl
@[simp] theorem State.clearLink_busy (s : State) : (s.clearLink).busy = s.busy := rfl
@[simp] theorem State.clearLink_done (s : State) : (s.clearLink).done = s.done := rfl
@[simp] theorem State.clearLink_err (s : State) : (s.clearLink).err = s.err := rfl
@[simp] theorem State.clearLink_cmdOvr (s : State) : (s.clearLink).cmdOvr = s.cmdOvr := rfl
@[simp] theorem State.clearLink_busyWr (s : State) : (s.clearLink).busyWr = s.busyWr := rfl
@[simp] theorem State.clearLink_conn (s : State) : (s.clearLink).conn = s.conn := rfl
@[simp] theorem State.clearLink_hsValid (s : State) : (s.clearLink).hsValid = false := rfl
@[simp] theorem State.clearLink_tokenWr (s : State) : (s.clearLink).tokenWr = 0 := rfl
@[simp] theorem State.clearLink_cmdLatch (s : State) : (s.clearLink).cmdLatch = s.cmdLatch := rfl
@[simp] theorem State.clearLink_resCode (s : State) : (s.clearLink).resCode = s.resCode := rfl
@[simp] theorem State.clearLink_resOpc (s : State) : (s.clearLink).resOpc = s.resOpc := rfl
@[simp] theorem State.clearLink_resV (s : State) : (s.clearLink).resV = s.resV := rfl
@[simp] theorem State.clearLink_inLen (s : State) : (s.clearLink).inLen = s.inLen := rfl
@[simp] theorem State.clearLink_outCap (s : State) : (s.clearLink).outCap = s.outCap := rfl
@[simp] theorem State.clearLink_outLen (s : State) : (s.clearLink).outLen = s.outLen := rfl
@[simp] theorem State.clearLink_token0 (s : State) : (s.clearLink).token0 = 0 := rfl
@[simp] theorem State.clearLink_token1 (s : State) : (s.clearLink).token1 = 0 := rfl
@[simp] theorem State.clearLink_token2 (s : State) : (s.clearLink).token2 = 0 := rfl
@[simp] theorem State.clearLink_token3 (s : State) : (s.clearLink).token3 = 0 := rfl
@[simp] theorem State.clearLink_tok (s : State) : (s.clearLink).tok = s.tok := rfl
@[simp] theorem State.clearLink_key (s : State) : (s.clearLink).key = s.key := rfl
@[simp] theorem State.clearLink_iv (s : State) : (s.clearLink).iv = s.iv := rfl
@[simp] theorem State.clearLink_devid (s : State) : (s.clearLink).devid = 0 := rfl
@[simp] theorem State.clearLink_stamp (s : State) : (s.clearLink).stamp = 0 := rfl
@[simp] theorem State.clearLink_rxMagic (s : State) : (s.clearLink).rxMagic = s.rxMagic := rfl
@[simp] theorem State.clearLink_rxTotlen (s : State) : (s.clearLink).rxTotlen = s.rxTotlen := rfl
@[simp] theorem State.clearLink_rxDevid (s : State) : (s.clearLink).rxDevid = s.rxDevid := rfl
@[simp] theorem State.clearLink_rxStamp (s : State) : (s.clearLink).rxStamp = s.rxStamp := rfl
@[simp] theorem State.clearLink_rxCksum (s : State) : (s.clearLink).rxCksum = s.rxCksum := rfl
@[simp] theorem State.clearLink_digest (s : State) : (s.clearLink).digest = s.digest := rfl
@[simp] theorem State.clearLink_inBuf (s : State) : (s.clearLink).inBuf = s.inBuf := rfl
@[simp] theorem State.clearLink_outBuf (s : State) : (s.clearLink).outBuf = s.outBuf := rfl
@[simp] theorem State.clearLink_events (s : State) : (s.clearLink).events = s.events := rfl
@[simp] theorem State.clearLink_replies (s : State) : (s.clearLink).replies = s.replies := rfl
@[simp] theorem State.clearLink_draws (s : State) : (s.clearLink).draws = s.draws := rfl

@[simp] theorem State.openLink_irqEn (s : State) (t k v : Block) : (s.openLink t k v).irqEn = s.irqEn := rfl
@[simp] theorem State.openLink_hsOneshot (s : State) (t k v : Block) : (s.openLink t k v).hsOneshot = s.hsOneshot := rfl
@[simp] theorem State.openLink_busy (s : State) (t k v : Block) : (s.openLink t k v).busy = s.busy := rfl
@[simp] theorem State.openLink_done (s : State) (t k v : Block) : (s.openLink t k v).done = s.done := rfl
@[simp] theorem State.openLink_err (s : State) (t k v : Block) : (s.openLink t k v).err = s.err := rfl
@[simp] theorem State.openLink_cmdOvr (s : State) (t k v : Block) : (s.openLink t k v).cmdOvr = s.cmdOvr := rfl
@[simp] theorem State.openLink_busyWr (s : State) (t k v : Block) : (s.openLink t k v).busyWr = s.busyWr := rfl
@[simp] theorem State.openLink_conn (s : State) (t k v : Block) : (s.openLink t k v).conn = true := rfl
@[simp] theorem State.openLink_hsValid (s : State) (t k v : Block) : (s.openLink t k v).hsValid = s.hsValid := rfl
@[simp] theorem State.openLink_tokenWr (s : State) (t k v : Block) : (s.openLink t k v).tokenWr = s.tokenWr := rfl
@[simp] theorem State.openLink_cmdLatch (s : State) (t k v : Block) : (s.openLink t k v).cmdLatch = s.cmdLatch := rfl
@[simp] theorem State.openLink_resCode (s : State) (t k v : Block) : (s.openLink t k v).resCode = s.resCode := rfl
@[simp] theorem State.openLink_resOpc (s : State) (t k v : Block) : (s.openLink t k v).resOpc = s.resOpc := rfl
@[simp] theorem State.openLink_resV (s : State) (t k v : Block) : (s.openLink t k v).resV = s.resV := rfl
@[simp] theorem State.openLink_inLen (s : State) (t k v : Block) : (s.openLink t k v).inLen = s.inLen := rfl
@[simp] theorem State.openLink_outCap (s : State) (t k v : Block) : (s.openLink t k v).outCap = s.outCap := rfl
@[simp] theorem State.openLink_outLen (s : State) (t k v : Block) : (s.openLink t k v).outLen = s.outLen := rfl
@[simp] theorem State.openLink_token0 (s : State) (t k v : Block) : (s.openLink t k v).token0 = s.token0 := rfl
@[simp] theorem State.openLink_token1 (s : State) (t k v : Block) : (s.openLink t k v).token1 = s.token1 := rfl
@[simp] theorem State.openLink_token2 (s : State) (t k v : Block) : (s.openLink t k v).token2 = s.token2 := rfl
@[simp] theorem State.openLink_token3 (s : State) (t k v : Block) : (s.openLink t k v).token3 = s.token3 := rfl
@[simp] theorem State.openLink_tok (s : State) (t k v : Block) : (s.openLink t k v).tok = t := rfl
@[simp] theorem State.openLink_key (s : State) (t k v : Block) : (s.openLink t k v).key = k := rfl
@[simp] theorem State.openLink_iv (s : State) (t k v : Block) : (s.openLink t k v).iv = v := rfl
@[simp] theorem State.openLink_devid (s : State) (t k v : Block) : (s.openLink t k v).devid = s.devid := rfl
@[simp] theorem State.openLink_stamp (s : State) (t k v : Block) : (s.openLink t k v).stamp = s.stamp := rfl
@[simp] theorem State.openLink_rxMagic (s : State) (t k v : Block) : (s.openLink t k v).rxMagic = s.rxMagic := rfl
@[simp] theorem State.openLink_rxTotlen (s : State) (t k v : Block) : (s.openLink t k v).rxTotlen = s.rxTotlen := rfl
@[simp] theorem State.openLink_rxDevid (s : State) (t k v : Block) : (s.openLink t k v).rxDevid = s.rxDevid := rfl
@[simp] theorem State.openLink_rxStamp (s : State) (t k v : Block) : (s.openLink t k v).rxStamp = s.rxStamp := rfl
@[simp] theorem State.openLink_rxCksum (s : State) (t k v : Block) : (s.openLink t k v).rxCksum = s.rxCksum := rfl
@[simp] theorem State.openLink_digest (s : State) (t k v : Block) : (s.openLink t k v).digest = s.digest := rfl
@[simp] theorem State.openLink_inBuf (s : State) (t k v : Block) : (s.openLink t k v).inBuf = s.inBuf := rfl
@[simp] theorem State.openLink_outBuf (s : State) (t k v : Block) : (s.openLink t k v).outBuf = s.outBuf := rfl
@[simp] theorem State.openLink_events (s : State) (t k v : Block) : (s.openLink t k v).events = s.events := rfl
@[simp] theorem State.openLink_replies (s : State) (t k v : Block) : (s.openLink t k v).replies = s.replies := rfl
@[simp] theorem State.openLink_draws (s : State) (t k v : Block) : (s.openLink t k v).draws = s.draws := rfl

@[simp] theorem State.closeLink_irqEn (s : State) : (s.closeLink).irqEn = s.irqEn := rfl
@[simp] theorem State.closeLink_hsOneshot (s : State) : (s.closeLink).hsOneshot = s.hsOneshot := rfl
@[simp] theorem State.closeLink_busy (s : State) : (s.closeLink).busy = s.busy := rfl
@[simp] theorem State.closeLink_done (s : State) : (s.closeLink).done = s.done := rfl
@[simp] theorem State.closeLink_err (s : State) : (s.closeLink).err = s.err := rfl
@[simp] theorem State.closeLink_cmdOvr (s : State) : (s.closeLink).cmdOvr = s.cmdOvr := rfl
@[simp] theorem State.closeLink_busyWr (s : State) : (s.closeLink).busyWr = s.busyWr := rfl
@[simp] theorem State.closeLink_conn (s : State) : (s.closeLink).conn = false := rfl
@[simp] theorem State.closeLink_hsValid (s : State) : (s.closeLink).hsValid = s.hsValid := rfl
@[simp] theorem State.closeLink_tokenWr (s : State) : (s.closeLink).tokenWr = s.tokenWr := rfl
@[simp] theorem State.closeLink_cmdLatch (s : State) : (s.closeLink).cmdLatch = s.cmdLatch := rfl
@[simp] theorem State.closeLink_resCode (s : State) : (s.closeLink).resCode = s.resCode := rfl
@[simp] theorem State.closeLink_resOpc (s : State) : (s.closeLink).resOpc = s.resOpc := rfl
@[simp] theorem State.closeLink_resV (s : State) : (s.closeLink).resV = s.resV := rfl
@[simp] theorem State.closeLink_inLen (s : State) : (s.closeLink).inLen = s.inLen := rfl
@[simp] theorem State.closeLink_outCap (s : State) : (s.closeLink).outCap = s.outCap := rfl
@[simp] theorem State.closeLink_outLen (s : State) : (s.closeLink).outLen = s.outLen := rfl
@[simp] theorem State.closeLink_token0 (s : State) : (s.closeLink).token0 = s.token0 := rfl
@[simp] theorem State.closeLink_token1 (s : State) : (s.closeLink).token1 = s.token1 := rfl
@[simp] theorem State.closeLink_token2 (s : State) : (s.closeLink).token2 = s.token2 := rfl
@[simp] theorem State.closeLink_token3 (s : State) : (s.closeLink).token3 = s.token3 := rfl
@[simp] theorem State.closeLink_tok (s : State) : (s.closeLink).tok = 0 := rfl
@[simp] theorem State.closeLink_key (s : State) : (s.closeLink).key = 0 := rfl
@[simp] theorem State.closeLink_iv (s : State) : (s.closeLink).iv = 0 := rfl
@[simp] theorem State.closeLink_devid (s : State) : (s.closeLink).devid = s.devid := rfl
@[simp] theorem State.closeLink_stamp (s : State) : (s.closeLink).stamp = s.stamp := rfl
@[simp] theorem State.closeLink_rxMagic (s : State) : (s.closeLink).rxMagic = s.rxMagic := rfl
@[simp] theorem State.closeLink_rxTotlen (s : State) : (s.closeLink).rxTotlen = s.rxTotlen := rfl
@[simp] theorem State.closeLink_rxDevid (s : State) : (s.closeLink).rxDevid = s.rxDevid := rfl
@[simp] theorem State.closeLink_rxStamp (s : State) : (s.closeLink).rxStamp = s.rxStamp := rfl
@[simp] theorem State.closeLink_rxCksum (s : State) : (s.closeLink).rxCksum = s.rxCksum := rfl
@[simp] theorem State.closeLink_digest (s : State) : (s.closeLink).digest = 0 := rfl
@[simp] theorem State.closeLink_inBuf (s : State) : (s.closeLink).inBuf = s.inBuf := rfl
@[simp] theorem State.closeLink_outBuf (s : State) : (s.closeLink).outBuf = s.outBuf := rfl
@[simp] theorem State.closeLink_events (s : State) : (s.closeLink).events = s.events := rfl
@[simp] theorem State.closeLink_replies (s : State) : (s.closeLink).replies = s.replies := rfl
@[simp] theorem State.closeLink_draws (s : State) : (s.closeLink).draws = s.draws := rfl

@[simp] theorem State.storeHandshake_irqEn (s : State) (id st : Word) : (s.storeHandshake id st).irqEn = s.irqEn := rfl
@[simp] theorem State.storeHandshake_hsOneshot (s : State) (id st : Word) : (s.storeHandshake id st).hsOneshot = s.hsOneshot := rfl
@[simp] theorem State.storeHandshake_busy (s : State) (id st : Word) : (s.storeHandshake id st).busy = s.busy := rfl
@[simp] theorem State.storeHandshake_done (s : State) (id st : Word) : (s.storeHandshake id st).done = s.done := rfl
@[simp] theorem State.storeHandshake_err (s : State) (id st : Word) : (s.storeHandshake id st).err = s.err := rfl
@[simp] theorem State.storeHandshake_cmdOvr (s : State) (id st : Word) : (s.storeHandshake id st).cmdOvr = s.cmdOvr := rfl
@[simp] theorem State.storeHandshake_busyWr (s : State) (id st : Word) : (s.storeHandshake id st).busyWr = s.busyWr := rfl
@[simp] theorem State.storeHandshake_conn (s : State) (id st : Word) : (s.storeHandshake id st).conn = s.conn := rfl
@[simp] theorem State.storeHandshake_hsValid (s : State) (id st : Word) : (s.storeHandshake id st).hsValid = true := rfl
@[simp] theorem State.storeHandshake_tokenWr (s : State) (id st : Word) : (s.storeHandshake id st).tokenWr = s.tokenWr := rfl
@[simp] theorem State.storeHandshake_cmdLatch (s : State) (id st : Word) : (s.storeHandshake id st).cmdLatch = s.cmdLatch := rfl
@[simp] theorem State.storeHandshake_resCode (s : State) (id st : Word) : (s.storeHandshake id st).resCode = s.resCode := rfl
@[simp] theorem State.storeHandshake_resOpc (s : State) (id st : Word) : (s.storeHandshake id st).resOpc = s.resOpc := rfl
@[simp] theorem State.storeHandshake_resV (s : State) (id st : Word) : (s.storeHandshake id st).resV = s.resV := rfl
@[simp] theorem State.storeHandshake_inLen (s : State) (id st : Word) : (s.storeHandshake id st).inLen = s.inLen := rfl
@[simp] theorem State.storeHandshake_outCap (s : State) (id st : Word) : (s.storeHandshake id st).outCap = s.outCap := rfl
@[simp] theorem State.storeHandshake_outLen (s : State) (id st : Word) : (s.storeHandshake id st).outLen = s.outLen := rfl
@[simp] theorem State.storeHandshake_token0 (s : State) (id st : Word) : (s.storeHandshake id st).token0 = s.token0 := rfl
@[simp] theorem State.storeHandshake_token1 (s : State) (id st : Word) : (s.storeHandshake id st).token1 = s.token1 := rfl
@[simp] theorem State.storeHandshake_token2 (s : State) (id st : Word) : (s.storeHandshake id st).token2 = s.token2 := rfl
@[simp] theorem State.storeHandshake_token3 (s : State) (id st : Word) : (s.storeHandshake id st).token3 = s.token3 := rfl
@[simp] theorem State.storeHandshake_tok (s : State) (id st : Word) : (s.storeHandshake id st).tok = s.tok := rfl
@[simp] theorem State.storeHandshake_key (s : State) (id st : Word) : (s.storeHandshake id st).key = s.key := rfl
@[simp] theorem State.storeHandshake_iv (s : State) (id st : Word) : (s.storeHandshake id st).iv = s.iv := rfl
@[simp] theorem State.storeHandshake_devid (s : State) (id st : Word) : (s.storeHandshake id st).devid = id := rfl
@[simp] theorem State.storeHandshake_stamp (s : State) (id st : Word) : (s.storeHandshake id st).stamp = st := rfl
@[simp] theorem State.storeHandshake_rxMagic (s : State) (id st : Word) : (s.storeHandshake id st).rxMagic = s.rxMagic := rfl
@[simp] theorem State.storeHandshake_rxTotlen (s : State) (id st : Word) : (s.storeHandshake id st).rxTotlen = s.rxTotlen := rfl
@[simp] theorem State.storeHandshake_rxDevid (s : State) (id st : Word) : (s.storeHandshake id st).rxDevid = s.rxDevid := rfl
@[simp] theorem State.storeHandshake_rxStamp (s : State) (id st : Word) : (s.storeHandshake id st).rxStamp = s.rxStamp := rfl
@[simp] theorem State.storeHandshake_rxCksum (s : State) (id st : Word) : (s.storeHandshake id st).rxCksum = s.rxCksum := rfl
@[simp] theorem State.storeHandshake_digest (s : State) (id st : Word) : (s.storeHandshake id st).digest = s.digest := rfl
@[simp] theorem State.storeHandshake_inBuf (s : State) (id st : Word) : (s.storeHandshake id st).inBuf = s.inBuf := rfl
@[simp] theorem State.storeHandshake_outBuf (s : State) (id st : Word) : (s.storeHandshake id st).outBuf = s.outBuf := rfl
@[simp] theorem State.storeHandshake_events (s : State) (id st : Word) : (s.storeHandshake id st).events = s.events := rfl
@[simp] theorem State.storeHandshake_replies (s : State) (id st : Word) : (s.storeHandshake id st).replies = s.replies := rfl
@[simp] theorem State.storeHandshake_draws (s : State) (id st : Word) : (s.storeHandshake id st).draws = s.draws := rfl

@[simp] theorem State.latchHeader_irqEn (s : State) (f : Bytes) : (s.latchHeader f).irqEn = s.irqEn := rfl
@[simp] theorem State.latchHeader_hsOneshot (s : State) (f : Bytes) : (s.latchHeader f).hsOneshot = s.hsOneshot := rfl
@[simp] theorem State.latchHeader_busy (s : State) (f : Bytes) : (s.latchHeader f).busy = s.busy := rfl
@[simp] theorem State.latchHeader_done (s : State) (f : Bytes) : (s.latchHeader f).done = s.done := rfl
@[simp] theorem State.latchHeader_err (s : State) (f : Bytes) : (s.latchHeader f).err = s.err := rfl
@[simp] theorem State.latchHeader_cmdOvr (s : State) (f : Bytes) : (s.latchHeader f).cmdOvr = s.cmdOvr := rfl
@[simp] theorem State.latchHeader_busyWr (s : State) (f : Bytes) : (s.latchHeader f).busyWr = s.busyWr := rfl
@[simp] theorem State.latchHeader_conn (s : State) (f : Bytes) : (s.latchHeader f).conn = s.conn := rfl
@[simp] theorem State.latchHeader_hsValid (s : State) (f : Bytes) : (s.latchHeader f).hsValid = s.hsValid := rfl
@[simp] theorem State.latchHeader_tokenWr (s : State) (f : Bytes) : (s.latchHeader f).tokenWr = s.tokenWr := rfl
@[simp] theorem State.latchHeader_cmdLatch (s : State) (f : Bytes) : (s.latchHeader f).cmdLatch = s.cmdLatch := rfl
@[simp] theorem State.latchHeader_resCode (s : State) (f : Bytes) : (s.latchHeader f).resCode = s.resCode := rfl
@[simp] theorem State.latchHeader_resOpc (s : State) (f : Bytes) : (s.latchHeader f).resOpc = s.resOpc := rfl
@[simp] theorem State.latchHeader_resV (s : State) (f : Bytes) : (s.latchHeader f).resV = s.resV := rfl
@[simp] theorem State.latchHeader_inLen (s : State) (f : Bytes) : (s.latchHeader f).inLen = s.inLen := rfl
@[simp] theorem State.latchHeader_outCap (s : State) (f : Bytes) : (s.latchHeader f).outCap = s.outCap := rfl
@[simp] theorem State.latchHeader_outLen (s : State) (f : Bytes) : (s.latchHeader f).outLen = s.outLen := rfl
@[simp] theorem State.latchHeader_token0 (s : State) (f : Bytes) : (s.latchHeader f).token0 = s.token0 := rfl
@[simp] theorem State.latchHeader_token1 (s : State) (f : Bytes) : (s.latchHeader f).token1 = s.token1 := rfl
@[simp] theorem State.latchHeader_token2 (s : State) (f : Bytes) : (s.latchHeader f).token2 = s.token2 := rfl
@[simp] theorem State.latchHeader_token3 (s : State) (f : Bytes) : (s.latchHeader f).token3 = s.token3 := rfl
@[simp] theorem State.latchHeader_tok (s : State) (f : Bytes) : (s.latchHeader f).tok = s.tok := rfl
@[simp] theorem State.latchHeader_key (s : State) (f : Bytes) : (s.latchHeader f).key = s.key := rfl
@[simp] theorem State.latchHeader_iv (s : State) (f : Bytes) : (s.latchHeader f).iv = s.iv := rfl
@[simp] theorem State.latchHeader_devid (s : State) (f : Bytes) : (s.latchHeader f).devid = s.devid := rfl
@[simp] theorem State.latchHeader_stamp (s : State) (f : Bytes) : (s.latchHeader f).stamp = s.stamp := rfl
@[simp] theorem State.latchHeader_rxMagic (s : State) (f : Bytes) : (s.latchHeader f).rxMagic = rd16 f 0 := rfl
@[simp] theorem State.latchHeader_rxTotlen (s : State) (f : Bytes) : (s.latchHeader f).rxTotlen = rd16 f 2 := rfl
@[simp] theorem State.latchHeader_rxDevid (s : State) (f : Bytes) : (s.latchHeader f).rxDevid = rd32 f 8 := rfl
@[simp] theorem State.latchHeader_rxStamp (s : State) (f : Bytes) : (s.latchHeader f).rxStamp = rd32 f 12 := rfl
@[simp] theorem State.latchHeader_rxCksum (s : State) (f : Bytes) : (s.latchHeader f).rxCksum = rd128 f 16 := rfl
@[simp] theorem State.latchHeader_digest (s : State) (f : Bytes) : (s.latchHeader f).digest = s.digest := rfl
@[simp] theorem State.latchHeader_inBuf (s : State) (f : Bytes) : (s.latchHeader f).inBuf = s.inBuf := rfl
@[simp] theorem State.latchHeader_outBuf (s : State) (f : Bytes) : (s.latchHeader f).outBuf = s.outBuf := rfl
@[simp] theorem State.latchHeader_events (s : State) (f : Bytes) : (s.latchHeader f).events = s.events := rfl
@[simp] theorem State.latchHeader_replies (s : State) (f : Bytes) : (s.latchHeader f).replies = s.replies := rfl
@[simp] theorem State.latchHeader_draws (s : State) (f : Bytes) : (s.latchHeader f).draws = s.draws := rfl

@[simp] theorem State.consumeHandshake_irqEn (s : State) : (s.consumeHandshake).irqEn = s.irqEn := rfl
@[simp] theorem State.consumeHandshake_hsOneshot (s : State) : (s.consumeHandshake).hsOneshot = s.hsOneshot := rfl
@[simp] theorem State.consumeHandshake_busy (s : State) : (s.consumeHandshake).busy = s.busy := rfl
@[simp] theorem State.consumeHandshake_done (s : State) : (s.consumeHandshake).done = s.done := rfl
@[simp] theorem State.consumeHandshake_err (s : State) : (s.consumeHandshake).err = s.err := rfl
@[simp] theorem State.consumeHandshake_cmdOvr (s : State) : (s.consumeHandshake).cmdOvr = s.cmdOvr := rfl
@[simp] theorem State.consumeHandshake_busyWr (s : State) : (s.consumeHandshake).busyWr = s.busyWr := rfl
@[simp] theorem State.consumeHandshake_conn (s : State) : (s.consumeHandshake).conn = s.conn := rfl
@[simp] theorem State.consumeHandshake_hsValid (s : State) : (s.consumeHandshake).hsValid = (s.hsValid && !s.hsOneshot) := rfl
@[simp] theorem State.consumeHandshake_tokenWr (s : State) : (s.consumeHandshake).tokenWr = s.tokenWr := rfl
@[simp] theorem State.consumeHandshake_cmdLatch (s : State) : (s.consumeHandshake).cmdLatch = s.cmdLatch := rfl
@[simp] theorem State.consumeHandshake_resCode (s : State) : (s.consumeHandshake).resCode = s.resCode := rfl
@[simp] theorem State.consumeHandshake_resOpc (s : State) : (s.consumeHandshake).resOpc = s.resOpc := rfl
@[simp] theorem State.consumeHandshake_resV (s : State) : (s.consumeHandshake).resV = s.resV := rfl
@[simp] theorem State.consumeHandshake_inLen (s : State) : (s.consumeHandshake).inLen = s.inLen := rfl
@[simp] theorem State.consumeHandshake_outCap (s : State) : (s.consumeHandshake).outCap = s.outCap := rfl
@[simp] theorem State.consumeHandshake_outLen (s : State) : (s.consumeHandshake).outLen = s.outLen := rfl
@[simp] theorem State.consumeHandshake_token0 (s : State) : (s.consumeHandshake).token0 = s.token0 := rfl
@[simp] theorem State.consumeHandshake_token1 (s : State) : (s.consumeHandshake).token1 = s.token1 := rfl
@[simp] theorem State.consumeHandshake_token2 (s : State) : (s.consumeHandshake).token2 = s.token2 := rfl
@[simp] theorem State.consumeHandshake_token3 (s : State) : (s.consumeHandshake).token3 = s.token3 := rfl
@[simp] theorem State.consumeHandshake_tok (s : State) : (s.consumeHandshake).tok = s.tok := rfl
@[simp] theorem State.consumeHandshake_key (s : State) : (s.consumeHandshake).key = s.key := rfl
@[simp] theorem State.consumeHandshake_iv (s : State) : (s.consumeHandshake).iv = s.iv := rfl
@[simp] theorem State.consumeHandshake_devid (s : State) : (s.consumeHandshake).devid = s.devid := rfl
@[simp] theorem State.consumeHandshake_stamp (s : State) : (s.consumeHandshake).stamp = s.stamp := rfl
@[simp] theorem State.consumeHandshake_rxMagic (s : State) : (s.consumeHandshake).rxMagic = s.rxMagic := rfl
@[simp] theorem State.consumeHandshake_rxTotlen (s : State) : (s.consumeHandshake).rxTotlen = s.rxTotlen := rfl
@[simp] theorem State.consumeHandshake_rxDevid (s : State) : (s.consumeHandshake).rxDevid = s.rxDevid := rfl
@[simp] theorem State.consumeHandshake_rxStamp (s : State) : (s.consumeHandshake).rxStamp = s.rxStamp := rfl
@[simp] theorem State.consumeHandshake_rxCksum (s : State) : (s.consumeHandshake).rxCksum = s.rxCksum := rfl
@[simp] theorem State.consumeHandshake_digest (s : State) : (s.consumeHandshake).digest = s.digest := rfl
@[simp] theorem State.consumeHandshake_inBuf (s : State) : (s.consumeHandshake).inBuf = s.inBuf := rfl
@[simp] theorem State.consumeHandshake_outBuf (s : State) : (s.consumeHandshake).outBuf = s.outBuf := rfl
@[simp] theorem State.consumeHandshake_events (s : State) : (s.consumeHandshake).events = s.events := rfl
@[simp] theorem State.consumeHandshake_replies (s : State) : (s.consumeHandshake).replies = s.replies := rfl
@[simp] theorem State.consumeHandshake_draws (s : State) : (s.consumeHandshake).draws = s.draws := rfl

@[simp] theorem State.setCtrl_irqEn (s : State) (d : Word) : (s.setCtrl d).irqEn = d.getLsbD 0 := rfl
@[simp] theorem State.setCtrl_hsOneshot (s : State) (d : Word) : (s.setCtrl d).hsOneshot = d.getLsbD 1 := rfl
@[simp] theorem State.setCtrl_busy (s : State) (d : Word) : (s.setCtrl d).busy = s.busy := rfl
@[simp] theorem State.setCtrl_done (s : State) (d : Word) : (s.setCtrl d).done = s.done := rfl
@[simp] theorem State.setCtrl_err (s : State) (d : Word) : (s.setCtrl d).err = s.err := rfl
@[simp] theorem State.setCtrl_cmdOvr (s : State) (d : Word) : (s.setCtrl d).cmdOvr = s.cmdOvr := rfl
@[simp] theorem State.setCtrl_busyWr (s : State) (d : Word) : (s.setCtrl d).busyWr = s.busyWr := rfl
@[simp] theorem State.setCtrl_conn (s : State) (d : Word) : (s.setCtrl d).conn = s.conn := rfl
@[simp] theorem State.setCtrl_hsValid (s : State) (d : Word) : (s.setCtrl d).hsValid = s.hsValid := rfl
@[simp] theorem State.setCtrl_tokenWr (s : State) (d : Word) : (s.setCtrl d).tokenWr = s.tokenWr := rfl
@[simp] theorem State.setCtrl_cmdLatch (s : State) (d : Word) : (s.setCtrl d).cmdLatch = s.cmdLatch := rfl
@[simp] theorem State.setCtrl_resCode (s : State) (d : Word) : (s.setCtrl d).resCode = s.resCode := rfl
@[simp] theorem State.setCtrl_resOpc (s : State) (d : Word) : (s.setCtrl d).resOpc = s.resOpc := rfl
@[simp] theorem State.setCtrl_resV (s : State) (d : Word) : (s.setCtrl d).resV = s.resV := rfl
@[simp] theorem State.setCtrl_inLen (s : State) (d : Word) : (s.setCtrl d).inLen = s.inLen := rfl
@[simp] theorem State.setCtrl_outCap (s : State) (d : Word) : (s.setCtrl d).outCap = s.outCap := rfl
@[simp] theorem State.setCtrl_outLen (s : State) (d : Word) : (s.setCtrl d).outLen = s.outLen := rfl
@[simp] theorem State.setCtrl_token0 (s : State) (d : Word) : (s.setCtrl d).token0 = s.token0 := rfl
@[simp] theorem State.setCtrl_token1 (s : State) (d : Word) : (s.setCtrl d).token1 = s.token1 := rfl
@[simp] theorem State.setCtrl_token2 (s : State) (d : Word) : (s.setCtrl d).token2 = s.token2 := rfl
@[simp] theorem State.setCtrl_token3 (s : State) (d : Word) : (s.setCtrl d).token3 = s.token3 := rfl
@[simp] theorem State.setCtrl_tok (s : State) (d : Word) : (s.setCtrl d).tok = s.tok := rfl
@[simp] theorem State.setCtrl_key (s : State) (d : Word) : (s.setCtrl d).key = s.key := rfl
@[simp] theorem State.setCtrl_iv (s : State) (d : Word) : (s.setCtrl d).iv = s.iv := rfl
@[simp] theorem State.setCtrl_devid (s : State) (d : Word) : (s.setCtrl d).devid = s.devid := rfl
@[simp] theorem State.setCtrl_stamp (s : State) (d : Word) : (s.setCtrl d).stamp = s.stamp := rfl
@[simp] theorem State.setCtrl_rxMagic (s : State) (d : Word) : (s.setCtrl d).rxMagic = s.rxMagic := rfl
@[simp] theorem State.setCtrl_rxTotlen (s : State) (d : Word) : (s.setCtrl d).rxTotlen = s.rxTotlen := rfl
@[simp] theorem State.setCtrl_rxDevid (s : State) (d : Word) : (s.setCtrl d).rxDevid = s.rxDevid := rfl
@[simp] theorem State.setCtrl_rxStamp (s : State) (d : Word) : (s.setCtrl d).rxStamp = s.rxStamp := rfl
@[simp] theorem State.setCtrl_rxCksum (s : State) (d : Word) : (s.setCtrl d).rxCksum = s.rxCksum := rfl
@[simp] theorem State.setCtrl_digest (s : State) (d : Word) : (s.setCtrl d).digest = s.digest := rfl
@[simp] theorem State.setCtrl_inBuf (s : State) (d : Word) : (s.setCtrl d).inBuf = s.inBuf := rfl
@[simp] theorem State.setCtrl_outBuf (s : State) (d : Word) : (s.setCtrl d).outBuf = s.outBuf := rfl
@[simp] theorem State.setCtrl_events (s : State) (d : Word) : (s.setCtrl d).events = s.events := rfl
@[simp] theorem State.setCtrl_replies (s : State) (d : Word) : (s.setCtrl d).replies = s.replies := rfl
@[simp] theorem State.setCtrl_draws (s : State) (d : Word) : (s.setCtrl d).draws = s.draws := rfl

@[simp] theorem State.ackStatus_irqEn (s : State) (d : Word) : (s.ackStatus d).irqEn = s.irqEn := rfl
@[simp] theorem State.ackStatus_hsOneshot (s : State) (d : Word) : (s.ackStatus d).hsOneshot = s.hsOneshot := rfl
@[simp] theorem State.ackStatus_busy (s : State) (d : Word) : (s.ackStatus d).busy = s.busy := rfl
@[simp] theorem State.ackStatus_done (s : State) (d : Word) : (s.ackStatus d).done = (s.done && !d.getLsbD 1) := rfl
@[simp] theorem State.ackStatus_err (s : State) (d : Word) : (s.ackStatus d).err = (s.err && !d.getLsbD 2) := rfl
@[simp] theorem State.ackStatus_cmdOvr (s : State) (d : Word) : (s.ackStatus d).cmdOvr = (s.cmdOvr && !d.getLsbD 3) := rfl
@[simp] theorem State.ackStatus_busyWr (s : State) (d : Word) : (s.ackStatus d).busyWr = (s.busyWr && !d.getLsbD 4) := rfl
@[simp] theorem State.ackStatus_conn (s : State) (d : Word) : (s.ackStatus d).conn = s.conn := rfl
@[simp] theorem State.ackStatus_hsValid (s : State) (d : Word) : (s.ackStatus d).hsValid = s.hsValid := rfl
@[simp] theorem State.ackStatus_tokenWr (s : State) (d : Word) : (s.ackStatus d).tokenWr = s.tokenWr := rfl
@[simp] theorem State.ackStatus_cmdLatch (s : State) (d : Word) : (s.ackStatus d).cmdLatch = s.cmdLatch := rfl
@[simp] theorem State.ackStatus_resCode (s : State) (d : Word) : (s.ackStatus d).resCode = s.resCode := rfl
@[simp] theorem State.ackStatus_resOpc (s : State) (d : Word) : (s.ackStatus d).resOpc = s.resOpc := rfl
@[simp] theorem State.ackStatus_resV (s : State) (d : Word) : (s.ackStatus d).resV = s.resV := rfl
@[simp] theorem State.ackStatus_inLen (s : State) (d : Word) : (s.ackStatus d).inLen = s.inLen := rfl
@[simp] theorem State.ackStatus_outCap (s : State) (d : Word) : (s.ackStatus d).outCap = s.outCap := rfl
@[simp] theorem State.ackStatus_outLen (s : State) (d : Word) : (s.ackStatus d).outLen = s.outLen := rfl
@[simp] theorem State.ackStatus_token0 (s : State) (d : Word) : (s.ackStatus d).token0 = s.token0 := rfl
@[simp] theorem State.ackStatus_token1 (s : State) (d : Word) : (s.ackStatus d).token1 = s.token1 := rfl
@[simp] theorem State.ackStatus_token2 (s : State) (d : Word) : (s.ackStatus d).token2 = s.token2 := rfl
@[simp] theorem State.ackStatus_token3 (s : State) (d : Word) : (s.ackStatus d).token3 = s.token3 := rfl
@[simp] theorem State.ackStatus_tok (s : State) (d : Word) : (s.ackStatus d).tok = s.tok := rfl
@[simp] theorem State.ackStatus_key (s : State) (d : Word) : (s.ackStatus d).key = s.key := rfl
@[simp] theorem State.ackStatus_iv (s : State) (d : Word) : (s.ackStatus d).iv = s.iv := rfl
@[simp] theorem State.ackStatus_devid (s : State) (d : Word) : (s.ackStatus d).devid = s.devid := rfl
@[simp] theorem State.ackStatus_stamp (s : State) (d : Word) : (s.ackStatus d).stamp = s.stamp := rfl
@[simp] theorem State.ackStatus_rxMagic (s : State) (d : Word) : (s.ackStatus d).rxMagic = s.rxMagic := rfl
@[simp] theorem State.ackStatus_rxTotlen (s : State) (d : Word) : (s.ackStatus d).rxTotlen = s.rxTotlen := rfl
@[simp] theorem State.ackStatus_rxDevid (s : State) (d : Word) : (s.ackStatus d).rxDevid = s.rxDevid := rfl
@[simp] theorem State.ackStatus_rxStamp (s : State) (d : Word) : (s.ackStatus d).rxStamp = s.rxStamp := rfl
@[simp] theorem State.ackStatus_rxCksum (s : State) (d : Word) : (s.ackStatus d).rxCksum = s.rxCksum := rfl
@[simp] theorem State.ackStatus_digest (s : State) (d : Word) : (s.ackStatus d).digest = s.digest := rfl
@[simp] theorem State.ackStatus_inBuf (s : State) (d : Word) : (s.ackStatus d).inBuf = s.inBuf := rfl
@[simp] theorem State.ackStatus_outBuf (s : State) (d : Word) : (s.ackStatus d).outBuf = s.outBuf := rfl
@[simp] theorem State.ackStatus_events (s : State) (d : Word) : (s.ackStatus d).events = s.events := rfl
@[simp] theorem State.ackStatus_replies (s : State) (d : Word) : (s.ackStatus d).replies = s.replies := rfl
@[simp] theorem State.ackStatus_draws (s : State) (d : Word) : (s.ackStatus d).draws = s.draws := rfl

@[simp] theorem State.markOverrun_irqEn (s : State) : (s.markOverrun).irqEn = s.irqEn := rfl
@[simp] theorem State.markOverrun_hsOneshot (s : State) : (s.markOverrun).hsOneshot = s.hsOneshot := rfl
@[simp] theorem State.markOverrun_busy (s : State) : (s.markOverrun).busy = s.busy := rfl
@[simp] theorem State.markOverrun_done (s : State) : (s.markOverrun).done = s.done := rfl
@[simp] theorem State.markOverrun_err (s : State) : (s.markOverrun).err = s.err := rfl
@[simp] theorem State.markOverrun_cmdOvr (s : State) : (s.markOverrun).cmdOvr = true := rfl
@[simp] theorem State.markOverrun_busyWr (s : State) : (s.markOverrun).busyWr = s.busyWr := rfl
@[simp] theorem State.markOverrun_conn (s : State) : (s.markOverrun).conn = s.conn := rfl
@[simp] theorem State.markOverrun_hsValid (s : State) : (s.markOverrun).hsValid = s.hsValid := rfl
@[simp] theorem State.markOverrun_tokenWr (s : State) : (s.markOverrun).tokenWr = s.tokenWr := rfl
@[simp] theorem State.markOverrun_cmdLatch (s : State) : (s.markOverrun).cmdLatch = s.cmdLatch := rfl
@[simp] theorem State.markOverrun_resCode (s : State) : (s.markOverrun).resCode = s.resCode := rfl
@[simp] theorem State.markOverrun_resOpc (s : State) : (s.markOverrun).resOpc = s.resOpc := rfl
@[simp] theorem State.markOverrun_resV (s : State) : (s.markOverrun).resV = s.resV := rfl
@[simp] theorem State.markOverrun_inLen (s : State) : (s.markOverrun).inLen = s.inLen := rfl
@[simp] theorem State.markOverrun_outCap (s : State) : (s.markOverrun).outCap = s.outCap := rfl
@[simp] theorem State.markOverrun_outLen (s : State) : (s.markOverrun).outLen = s.outLen := rfl
@[simp] theorem State.markOverrun_token0 (s : State) : (s.markOverrun).token0 = s.token0 := rfl
@[simp] theorem State.markOverrun_token1 (s : State) : (s.markOverrun).token1 = s.token1 := rfl
@[simp] theorem State.markOverrun_token2 (s : State) : (s.markOverrun).token2 = s.token2 := rfl
@[simp] theorem State.markOverrun_token3 (s : State) : (s.markOverrun).token3 = s.token3 := rfl
@[simp] theorem State.markOverrun_tok (s : State) : (s.markOverrun).tok = s.tok := rfl
@[simp] theorem State.markOverrun_key (s : State) : (s.markOverrun).key = s.key := rfl
@[simp] theorem State.markOverrun_iv (s : State) : (s.markOverrun).iv = s.iv := rfl
@[simp] theorem State.markOverrun_devid (s : State) : (s.markOverrun).devid = s.devid := rfl
@[simp] theorem State.markOverrun_stamp (s : State) : (s.markOverrun).stamp = s.stamp := rfl
@[simp] theorem State.markOverrun_rxMagic (s : State) : (s.markOverrun).rxMagic = s.rxMagic := rfl
@[simp] theorem State.markOverrun_rxTotlen (s : State) : (s.markOverrun).rxTotlen = s.rxTotlen := rfl
@[simp] theorem State.markOverrun_rxDevid (s : State) : (s.markOverrun).rxDevid = s.rxDevid := rfl
@[simp] theorem State.markOverrun_rxStamp (s : State) : (s.markOverrun).rxStamp = s.rxStamp := rfl
@[simp] theorem State.markOverrun_rxCksum (s : State) : (s.markOverrun).rxCksum = s.rxCksum := rfl
@[simp] theorem State.markOverrun_digest (s : State) : (s.markOverrun).digest = s.digest := rfl
@[simp] theorem State.markOverrun_inBuf (s : State) : (s.markOverrun).inBuf = s.inBuf := rfl
@[simp] theorem State.markOverrun_outBuf (s : State) : (s.markOverrun).outBuf = s.outBuf := rfl
@[simp] theorem State.markOverrun_events (s : State) : (s.markOverrun).events = s.events := rfl
@[simp] theorem State.markOverrun_replies (s : State) : (s.markOverrun).replies = s.replies := rfl
@[simp] theorem State.markOverrun_draws (s : State) : (s.markOverrun).draws = s.draws := rfl

@[simp] theorem State.markBusyWrite_irqEn (s : State) : (s.markBusyWrite).irqEn = s.irqEn := rfl
@[simp] theorem State.markBusyWrite_hsOneshot (s : State) : (s.markBusyWrite).hsOneshot = s.hsOneshot := rfl
@[simp] theorem State.markBusyWrite_busy (s : State) : (s.markBusyWrite).busy = s.busy := rfl
@[simp] theorem State.markBusyWrite_done (s : State) : (s.markBusyWrite).done = s.done := rfl
@[simp] theorem State.markBusyWrite_err (s : State) : (s.markBusyWrite).err = s.err := rfl
@[simp] theorem State.markBusyWrite_cmdOvr (s : State) : (s.markBusyWrite).cmdOvr = s.cmdOvr := rfl
@[simp] theorem State.markBusyWrite_busyWr (s : State) : (s.markBusyWrite).busyWr = true := rfl
@[simp] theorem State.markBusyWrite_conn (s : State) : (s.markBusyWrite).conn = s.conn := rfl
@[simp] theorem State.markBusyWrite_hsValid (s : State) : (s.markBusyWrite).hsValid = s.hsValid := rfl
@[simp] theorem State.markBusyWrite_tokenWr (s : State) : (s.markBusyWrite).tokenWr = s.tokenWr := rfl
@[simp] theorem State.markBusyWrite_cmdLatch (s : State) : (s.markBusyWrite).cmdLatch = s.cmdLatch := rfl
@[simp] theorem State.markBusyWrite_resCode (s : State) : (s.markBusyWrite).resCode = s.resCode := rfl
@[simp] theorem State.markBusyWrite_resOpc (s : State) : (s.markBusyWrite).resOpc = s.resOpc := rfl
@[simp] theorem State.markBusyWrite_resV (s : State) : (s.markBusyWrite).resV = s.resV := rfl
@[simp] theorem State.markBusyWrite_inLen (s : State) : (s.markBusyWrite).inLen = s.inLen := rfl
@[simp] theorem State.markBusyWrite_outCap (s : State) : (s.markBusyWrite).outCap = s.outCap := rfl
@[simp] theorem State.markBusyWrite_outLen (s : State) : (s.markBusyWrite).outLen = s.outLen := rfl
@[simp] theorem State.markBusyWrite_token0 (s : State) : (s.markBusyWrite).token0 = s.token0 := rfl
@[simp] theorem State.markBusyWrite_token1 (s : State) : (s.markBusyWrite).token1 = s.token1 := rfl
@[simp] theorem State.markBusyWrite_token2 (s : State) : (s.markBusyWrite).token2 = s.token2 := rfl
@[simp] theorem State.markBusyWrite_token3 (s : State) : (s.markBusyWrite).token3 = s.token3 := rfl
@[simp] theorem State.markBusyWrite_tok (s : State) : (s.markBusyWrite).tok = s.tok := rfl
@[simp] theorem State.markBusyWrite_key (s : State) : (s.markBusyWrite).key = s.key := rfl
@[simp] theorem State.markBusyWrite_iv (s : State) : (s.markBusyWrite).iv = s.iv := rfl
@[simp] theorem State.markBusyWrite_devid (s : State) : (s.markBusyWrite).devid = s.devid := rfl
@[simp] theorem State.markBusyWrite_stamp (s : State) : (s.markBusyWrite).stamp = s.stamp := rfl
@[simp] theorem State.markBusyWrite_rxMagic (s : State) : (s.markBusyWrite).rxMagic = s.rxMagic := rfl
@[simp] theorem State.markBusyWrite_rxTotlen (s : State) : (s.markBusyWrite).rxTotlen = s.rxTotlen := rfl
@[simp] theorem State.markBusyWrite_rxDevid (s : State) : (s.markBusyWrite).rxDevid = s.rxDevid := rfl
@[simp] theorem State.markBusyWrite_rxStamp (s : State) : (s.markBusyWrite).rxStamp = s.rxStamp := rfl
@[simp] theorem State.markBusyWrite_rxCksum (s : State) : (s.markBusyWrite).rxCksum = s.rxCksum := rfl
@[simp] theorem State.markBusyWrite_digest (s : State) : (s.markBusyWrite).digest = s.digest := rfl
@[simp] theorem State.markBusyWrite_inBuf (s : State) : (s.markBusyWrite).inBuf = s.inBuf := rfl
@[simp] theorem State.markBusyWrite_outBuf (s : State) : (s.markBusyWrite).outBuf = s.outBuf := rfl
@[simp] theorem State.markBusyWrite_events (s : State) : (s.markBusyWrite).events = s.events := rfl
@[simp] theorem State.markBusyWrite_replies (s : State) : (s.markBusyWrite).replies = s.replies := rfl
@[simp] theorem State.markBusyWrite_draws (s : State) : (s.markBusyWrite).draws = s.draws := rfl

@[simp] theorem State.discard_irqEn (s : State) (i : Instr) : (s.discard i).irqEn = s.irqEn := by
  unfold State.discard; split <;> rfl
@[simp] theorem State.discard_hsOneshot (s : State) (i : Instr) : (s.discard i).hsOneshot = s.hsOneshot := by
  unfold State.discard; split <;> rfl
@[simp] theorem State.discard_busy (s : State) (i : Instr) : (s.discard i).busy = s.busy := by
  unfold State.discard; split <;> rfl
@[simp] theorem State.discard_done (s : State) (i : Instr) : (s.discard i).done = s.done := by
  unfold State.discard; split <;> rfl
@[simp] theorem State.discard_err (s : State) (i : Instr) : (s.discard i).err = s.err := by
  unfold State.discard; split <;> rfl
@[simp] theorem State.discard_cmdOvr (s : State) (i : Instr) : (s.discard i).cmdOvr = s.cmdOvr := by
  unfold State.discard; split <;> rfl
@[simp] theorem State.discard_busyWr (s : State) (i : Instr) : (s.discard i).busyWr = s.busyWr := by
  unfold State.discard; split <;> rfl
@[simp] theorem State.discard_conn (s : State) (i : Instr) : (s.discard i).conn = s.conn := by
  unfold State.discard; split <;> rfl
@[simp] theorem State.discard_hsValid (s : State) (i : Instr) :
    (s.discard i).hsValid = if i = .parseHello then false else s.hsValid := by
  unfold State.discard; split <;> rfl
@[simp] theorem State.discard_tokenWr (s : State) (i : Instr) : (s.discard i).tokenWr = s.tokenWr := by
  unfold State.discard; split <;> rfl
@[simp] theorem State.discard_cmdLatch (s : State) (i : Instr) : (s.discard i).cmdLatch = s.cmdLatch := by
  unfold State.discard; split <;> rfl
@[simp] theorem State.discard_resCode (s : State) (i : Instr) : (s.discard i).resCode = s.resCode := by
  unfold State.discard; split <;> rfl
@[simp] theorem State.discard_resOpc (s : State) (i : Instr) : (s.discard i).resOpc = s.resOpc := by
  unfold State.discard; split <;> rfl
@[simp] theorem State.discard_resV (s : State) (i : Instr) : (s.discard i).resV = s.resV := by
  unfold State.discard; split <;> rfl
@[simp] theorem State.discard_inLen (s : State) (i : Instr) : (s.discard i).inLen = s.inLen := by
  unfold State.discard; split <;> rfl
@[simp] theorem State.discard_outCap (s : State) (i : Instr) : (s.discard i).outCap = s.outCap := by
  unfold State.discard; split <;> rfl
@[simp] theorem State.discard_outLen (s : State) (i : Instr) : (s.discard i).outLen = s.outLen := by
  unfold State.discard; split <;> rfl
@[simp] theorem State.discard_token0 (s : State) (i : Instr) : (s.discard i).token0 = s.token0 := by
  unfold State.discard; split <;> rfl
@[simp] theorem State.discard_token1 (s : State) (i : Instr) : (s.discard i).token1 = s.token1 := by
  unfold State.discard; split <;> rfl
@[simp] theorem State.discard_token2 (s : State) (i : Instr) : (s.discard i).token2 = s.token2 := by
  unfold State.discard; split <;> rfl
@[simp] theorem State.discard_token3 (s : State) (i : Instr) : (s.discard i).token3 = s.token3 := by
  unfold State.discard; split <;> rfl
@[simp] theorem State.discard_tok (s : State) (i : Instr) : (s.discard i).tok = s.tok := by
  unfold State.discard; split <;> rfl
@[simp] theorem State.discard_key (s : State) (i : Instr) : (s.discard i).key = s.key := by
  unfold State.discard; split <;> rfl
@[simp] theorem State.discard_iv (s : State) (i : Instr) : (s.discard i).iv = s.iv := by
  unfold State.discard; split <;> rfl
@[simp] theorem State.discard_devid (s : State) (i : Instr) : (s.discard i).devid = s.devid := by
  unfold State.discard; split <;> rfl
@[simp] theorem State.discard_stamp (s : State) (i : Instr) : (s.discard i).stamp = s.stamp := by
  unfold State.discard; split <;> rfl
@[simp] theorem State.discard_rxMagic (s : State) (i : Instr) : (s.discard i).rxMagic = s.rxMagic := by
  unfold State.discard; split <;> rfl
@[simp] theorem State.discard_rxTotlen (s : State) (i : Instr) : (s.discard i).rxTotlen = s.rxTotlen := by
  unfold State.discard; split <;> rfl
@[simp] theorem State.discard_rxDevid (s : State) (i : Instr) : (s.discard i).rxDevid = s.rxDevid := by
  unfold State.discard; split <;> rfl
@[simp] theorem State.discard_rxStamp (s : State) (i : Instr) : (s.discard i).rxStamp = s.rxStamp := by
  unfold State.discard; split <;> rfl
@[simp] theorem State.discard_rxCksum (s : State) (i : Instr) : (s.discard i).rxCksum = s.rxCksum := by
  unfold State.discard; split <;> rfl
@[simp] theorem State.discard_digest (s : State) (i : Instr) : (s.discard i).digest = s.digest := by
  unfold State.discard; split <;> rfl
@[simp] theorem State.discard_inBuf (s : State) (i : Instr) : (s.discard i).inBuf = s.inBuf := by
  unfold State.discard; split <;> rfl
@[simp] theorem State.discard_outBuf (s : State) (i : Instr) : (s.discard i).outBuf = s.outBuf := by
  unfold State.discard; split <;> rfl
@[simp] theorem State.discard_events (s : State) (i : Instr) : (s.discard i).events = s.events := by
  unfold State.discard; split <;> rfl
@[simp] theorem State.discard_replies (s : State) (i : Instr) : (s.discard i).replies = s.replies := by
  unfold State.discard; split <;> rfl
@[simp] theorem State.discard_draws (s : State) (i : Instr) : (s.discard i).draws = s.draws := by
  unfold State.discard; split <;> rfl

@[simp] theorem State.setToken_irqEn (s : State) (k : Fin 4) (d : Word) : (s.setToken k d).irqEn = s.irqEn := by
  unfold State.setToken; split <;> rfl
@[simp] theorem State.setToken_hsOneshot (s : State) (k : Fin 4) (d : Word) : (s.setToken k d).hsOneshot = s.hsOneshot := by
  unfold State.setToken; split <;> rfl
@[simp] theorem State.setToken_busy (s : State) (k : Fin 4) (d : Word) : (s.setToken k d).busy = s.busy := by
  unfold State.setToken; split <;> rfl
@[simp] theorem State.setToken_done (s : State) (k : Fin 4) (d : Word) : (s.setToken k d).done = s.done := by
  unfold State.setToken; split <;> rfl
@[simp] theorem State.setToken_err (s : State) (k : Fin 4) (d : Word) : (s.setToken k d).err = s.err := by
  unfold State.setToken; split <;> rfl
@[simp] theorem State.setToken_cmdOvr (s : State) (k : Fin 4) (d : Word) : (s.setToken k d).cmdOvr = s.cmdOvr := by
  unfold State.setToken; split <;> rfl
@[simp] theorem State.setToken_busyWr (s : State) (k : Fin 4) (d : Word) : (s.setToken k d).busyWr = s.busyWr := by
  unfold State.setToken; split <;> rfl
@[simp] theorem State.setToken_conn (s : State) (k : Fin 4) (d : Word) : (s.setToken k d).conn = s.conn := by
  unfold State.setToken; split <;> rfl
@[simp] theorem State.setToken_hsValid (s : State) (k : Fin 4) (d : Word) : (s.setToken k d).hsValid = s.hsValid := by
  unfold State.setToken; split <;> rfl
@[simp] theorem State.setToken_cmdLatch (s : State) (k : Fin 4) (d : Word) : (s.setToken k d).cmdLatch = s.cmdLatch := by
  unfold State.setToken; split <;> rfl
@[simp] theorem State.setToken_resCode (s : State) (k : Fin 4) (d : Word) : (s.setToken k d).resCode = s.resCode := by
  unfold State.setToken; split <;> rfl
@[simp] theorem State.setToken_resOpc (s : State) (k : Fin 4) (d : Word) : (s.setToken k d).resOpc = s.resOpc := by
  unfold State.setToken; split <;> rfl
@[simp] theorem State.setToken_resV (s : State) (k : Fin 4) (d : Word) : (s.setToken k d).resV = s.resV := by
  unfold State.setToken; split <;> rfl
@[simp] theorem State.setToken_inLen (s : State) (k : Fin 4) (d : Word) : (s.setToken k d).inLen = s.inLen := by
  unfold State.setToken; split <;> rfl
@[simp] theorem State.setToken_outCap (s : State) (k : Fin 4) (d : Word) : (s.setToken k d).outCap = s.outCap := by
  unfold State.setToken; split <;> rfl
@[simp] theorem State.setToken_outLen (s : State) (k : Fin 4) (d : Word) : (s.setToken k d).outLen = s.outLen := by
  unfold State.setToken; split <;> rfl
@[simp] theorem State.setToken_tok (s : State) (k : Fin 4) (d : Word) : (s.setToken k d).tok = s.tok := by
  unfold State.setToken; split <;> rfl
@[simp] theorem State.setToken_key (s : State) (k : Fin 4) (d : Word) : (s.setToken k d).key = s.key := by
  unfold State.setToken; split <;> rfl
@[simp] theorem State.setToken_iv (s : State) (k : Fin 4) (d : Word) : (s.setToken k d).iv = s.iv := by
  unfold State.setToken; split <;> rfl
@[simp] theorem State.setToken_devid (s : State) (k : Fin 4) (d : Word) : (s.setToken k d).devid = s.devid := by
  unfold State.setToken; split <;> rfl
@[simp] theorem State.setToken_stamp (s : State) (k : Fin 4) (d : Word) : (s.setToken k d).stamp = s.stamp := by
  unfold State.setToken; split <;> rfl
@[simp] theorem State.setToken_rxMagic (s : State) (k : Fin 4) (d : Word) : (s.setToken k d).rxMagic = s.rxMagic := by
  unfold State.setToken; split <;> rfl
@[simp] theorem State.setToken_rxTotlen (s : State) (k : Fin 4) (d : Word) : (s.setToken k d).rxTotlen = s.rxTotlen := by
  unfold State.setToken; split <;> rfl
@[simp] theorem State.setToken_rxDevid (s : State) (k : Fin 4) (d : Word) : (s.setToken k d).rxDevid = s.rxDevid := by
  unfold State.setToken; split <;> rfl
@[simp] theorem State.setToken_rxStamp (s : State) (k : Fin 4) (d : Word) : (s.setToken k d).rxStamp = s.rxStamp := by
  unfold State.setToken; split <;> rfl
@[simp] theorem State.setToken_rxCksum (s : State) (k : Fin 4) (d : Word) : (s.setToken k d).rxCksum = s.rxCksum := by
  unfold State.setToken; split <;> rfl
@[simp] theorem State.setToken_digest (s : State) (k : Fin 4) (d : Word) : (s.setToken k d).digest = s.digest := by
  unfold State.setToken; split <;> rfl
@[simp] theorem State.setToken_inBuf (s : State) (k : Fin 4) (d : Word) : (s.setToken k d).inBuf = s.inBuf := by
  unfold State.setToken; split <;> rfl
@[simp] theorem State.setToken_outBuf (s : State) (k : Fin 4) (d : Word) : (s.setToken k d).outBuf = s.outBuf := by
  unfold State.setToken; split <;> rfl
@[simp] theorem State.setToken_events (s : State) (k : Fin 4) (d : Word) : (s.setToken k d).events = s.events := by
  unfold State.setToken; split <;> rfl
@[simp] theorem State.setToken_replies (s : State) (k : Fin 4) (d : Word) : (s.setToken k d).replies = s.replies := by
  unfold State.setToken; split <;> rfl
@[simp] theorem State.setToken_draws (s : State) (k : Fin 4) (d : Word) : (s.setToken k d).draws = s.draws := by
  unfold State.setToken; split <;> rfl
@[simp] theorem State.setToken_token0 (s : State) (k : Fin 4) (d : Word) :
    (s.setToken k d).token0 = if k = 0 then d else s.token0 := by
  match k with | 0 | 1 | 2 | 3 => rfl
@[simp] theorem State.setToken_token1 (s : State) (k : Fin 4) (d : Word) :
    (s.setToken k d).token1 = if k = 1 then d else s.token1 := by
  match k with | 0 | 1 | 2 | 3 => rfl
@[simp] theorem State.setToken_token2 (s : State) (k : Fin 4) (d : Word) :
    (s.setToken k d).token2 = if k = 2 then d else s.token2 := by
  match k with | 0 | 1 | 2 | 3 => rfl
@[simp] theorem State.setToken_token3 (s : State) (k : Fin 4) (d : Word) :
    (s.setToken k d).token3 = if k = 3 then d else s.token3 := by
  match k with | 0 | 1 | 2 | 3 => rfl
@[simp] theorem State.setToken_tokenWr (s : State) (k : Fin 4) (d : Word) :
    (s.setToken k d).tokenWr = s.tokenWr ||| BitVec.ofNat 4 (2 ^ k.val) := by
  match k with | 0 | 1 | 2 | 3 => rfl

@[simp] theorem State.buffer_input (s : State) : s.buffer .input = s.inBuf := rfl
@[simp] theorem State.buffer_output (s : State) : s.buffer .output = s.outBuf := rfl

@[simp] theorem State.resetBlock_irqEn (s : State) : s.resetBlock.irqEn = State.reset.irqEn := rfl
@[simp] theorem State.resetBlock_hsOneshot (s : State) : s.resetBlock.hsOneshot = State.reset.hsOneshot := rfl
@[simp] theorem State.resetBlock_busy (s : State) : s.resetBlock.busy = State.reset.busy := rfl
@[simp] theorem State.resetBlock_done (s : State) : s.resetBlock.done = State.reset.done := rfl
@[simp] theorem State.resetBlock_err (s : State) : s.resetBlock.err = State.reset.err := rfl
@[simp] theorem State.resetBlock_cmdOvr (s : State) : s.resetBlock.cmdOvr = State.reset.cmdOvr := rfl
@[simp] theorem State.resetBlock_busyWr (s : State) : s.resetBlock.busyWr = State.reset.busyWr := rfl
@[simp] theorem State.resetBlock_conn (s : State) : s.resetBlock.conn = State.reset.conn := rfl
@[simp] theorem State.resetBlock_hsValid (s : State) : s.resetBlock.hsValid = State.reset.hsValid := rfl
@[simp] theorem State.resetBlock_tokenWr (s : State) : s.resetBlock.tokenWr = State.reset.tokenWr := rfl
@[simp] theorem State.resetBlock_cmdLatch (s : State) : s.resetBlock.cmdLatch = State.reset.cmdLatch := rfl
@[simp] theorem State.resetBlock_resCode (s : State) : s.resetBlock.resCode = State.reset.resCode := rfl
@[simp] theorem State.resetBlock_resOpc (s : State) : s.resetBlock.resOpc = State.reset.resOpc := rfl
@[simp] theorem State.resetBlock_resV (s : State) : s.resetBlock.resV = State.reset.resV := rfl
@[simp] theorem State.resetBlock_inLen (s : State) : s.resetBlock.inLen = State.reset.inLen := rfl
@[simp] theorem State.resetBlock_outCap (s : State) : s.resetBlock.outCap = State.reset.outCap := rfl
@[simp] theorem State.resetBlock_outLen (s : State) : s.resetBlock.outLen = State.reset.outLen := rfl
@[simp] theorem State.resetBlock_token0 (s : State) : s.resetBlock.token0 = State.reset.token0 := rfl
@[simp] theorem State.resetBlock_token1 (s : State) : s.resetBlock.token1 = State.reset.token1 := rfl
@[simp] theorem State.resetBlock_token2 (s : State) : s.resetBlock.token2 = State.reset.token2 := rfl
@[simp] theorem State.resetBlock_token3 (s : State) : s.resetBlock.token3 = State.reset.token3 := rfl
@[simp] theorem State.resetBlock_tok (s : State) : s.resetBlock.tok = State.reset.tok := rfl
@[simp] theorem State.resetBlock_key (s : State) : s.resetBlock.key = State.reset.key := rfl
@[simp] theorem State.resetBlock_iv (s : State) : s.resetBlock.iv = State.reset.iv := rfl
@[simp] theorem State.resetBlock_devid (s : State) : s.resetBlock.devid = State.reset.devid := rfl
@[simp] theorem State.resetBlock_stamp (s : State) : s.resetBlock.stamp = State.reset.stamp := rfl
@[simp] theorem State.resetBlock_rxMagic (s : State) : s.resetBlock.rxMagic = State.reset.rxMagic := rfl
@[simp] theorem State.resetBlock_rxTotlen (s : State) : s.resetBlock.rxTotlen = State.reset.rxTotlen := rfl
@[simp] theorem State.resetBlock_rxDevid (s : State) : s.resetBlock.rxDevid = State.reset.rxDevid := rfl
@[simp] theorem State.resetBlock_rxStamp (s : State) : s.resetBlock.rxStamp = State.reset.rxStamp := rfl
@[simp] theorem State.resetBlock_rxCksum (s : State) : s.resetBlock.rxCksum = State.reset.rxCksum := rfl
@[simp] theorem State.resetBlock_digest (s : State) : s.resetBlock.digest = State.reset.digest := rfl
@[simp] theorem State.resetBlock_inBuf (s : State) : s.resetBlock.inBuf = State.reset.inBuf := rfl
@[simp] theorem State.resetBlock_outBuf (s : State) : s.resetBlock.outBuf = State.reset.outBuf := rfl
@[simp] theorem State.resetBlock_events (s : State) : s.resetBlock.events = s.events := rfl
@[simp] theorem State.resetBlock_replies (s : State) : s.resetBlock.replies = s.replies := rfl
@[simp] theorem State.resetBlock_draws (s : State) : s.resetBlock.draws = s.draws + 1 := rfl

end Sys2Proof.Machine
end

