-- ==== Sys2Proof/Laws/Memory.lean ====
section
/-! SUPPORT. The buffers: reading after a write, and the canonical form kept by every write. -/

namespace Sys2Proof.Machine

theorem lookup_cellsFrom (bs : Bytes) (a i : Nat) :
    (cellsFrom a bs).lookup i = if a ≤ i then bs[i - a]? else none := by
  induction bs generalizing a with
  | nil => simp [cellsFrom, Memory.lookup]
  | cons b bs ih =>
    rw [cellsFrom, Memory.lookup, ih]
    rcases Nat.lt_trichotomy i a with h | rfl | h
    · simp [show ¬ i = a by omega, show ¬ a + 1 ≤ i by omega, show ¬ a ≤ i by omega]
    · simp
    · rw [if_neg (by omega), if_pos (by omega), if_pos (by omega), show i - a = i - (a + 1) + 1 by omega,
        List.getElem?_cons_succ]

theorem lookup_append (m n : Memory) (i : Nat) :
    Memory.lookup (m ++ n) i = (Memory.lookup m i).or (Memory.lookup n i) := by
  induction m with
  | nil => simp [Memory.lookup]
  | cons c m ih =>
    obtain ⟨a, b⟩ := c
    simp only [List.cons_append, Memory.lookup]
    split <;> simp_all

theorem lookup_filter (q : Nat → Bool) (m : Memory) (i : Nat) :
    Memory.lookup (m.filter fun c => q c.1) i = if q i then Memory.lookup m i else none := by
  induction m with
  | nil => simp [Memory.lookup]
  | cons c m ih =>
    obtain ⟨a, b⟩ := c
    by_cases hi : i = a
    · subst hi
      by_cases hq : q i <;> simp_all [Memory.lookup]
    · by_cases hq : q a <;> simp_all [Memory.lookup]

/-- A byte after a write: the byte written there, or the byte of before. -/
theorem lookup_write (m : Memory) (a : Nat) (bs : Bytes) (i : Nat) :
    (m.write a bs).lookup i = if a ≤ i ∧ i < a + bs.length then bs[i - a]? else m.lookup i := by
  rw [Memory.write, lookup_append, lookup_append, lookup_filter (fun x => decide (x < a)), lookup_cellsFrom,
    lookup_filter (fun x => decide (a + bs.length ≤ x))]
  simp only [decide_eq_true_eq]
  rcases Nat.lt_or_ge i a with h | h
  · simp [h, show ¬ a ≤ i by omega, show ¬ a + bs.length ≤ i by omega]
  · rcases Nat.lt_or_ge i (a + bs.length) with h2 | h2
    · simp [h, h2, show ¬ i < a by omega, show ¬ a + bs.length ≤ i by omega]
    · simp [h2, show ¬ i < a by omega, show ¬ i < a + bs.length by omega, show bs.length ≤ i - a by omega]

/-- A write leaves every byte outside the written string alone. -/
theorem lookup_write_outside (m : Memory) (a : Nat) (bs : Bytes) (i : Nat) (h : i < a ∨ a + bs.length ≤ i) :
    (m.write a bs).lookup i = m.lookup i := by
  rw [lookup_write, if_neg (by omega)]

theorem lookup_write_inside (m : Memory) (a : Nat) (bs : Bytes) (i : Nat) (h : i < bs.length) :
    (m.write a bs).lookup (a + i) = some bs[i] := by
  rw [lookup_write, if_pos (by omega), show a + i - a = i by omega, List.getElem?_eq_getElem h]

theorem mem_cellsFrom (bs : Bytes) (a : Nat) (c : Host.Cell) (h : c ∈ cellsFrom a bs) :
    a ≤ c.1 ∧ c.1 < a + bs.length := by
  induction bs generalizing a with
  | nil => simp [cellsFrom] at h
  | cons b bs ih =>
    rcases List.mem_cons.1 h with rfl | h
    · simp
    · have := ih _ h
      simp only [List.length_cons]
      omega

theorem cellsFrom_wf (bs : Bytes) (a : Nat) : (cellsFrom a bs).wf := by
  induction bs generalizing a with
  | nil => exact List.Pairwise.nil
  | cons b bs ih => exact List.Pairwise.cons (fun c hc => (mem_cellsFrom _ _ _ hc).1) (ih _)

/-- Every write keeps the canonical form. -/
theorem write_wf (m : Memory) (a : Nat) (bs : Bytes) (h : m.wf) : (m.write a bs).wf := by
  unfold Memory.write Memory.wf
  rw [List.append_assoc, List.pairwise_append, List.pairwise_append]
  refine ⟨h.filter _, ⟨cellsFrom_wf _ _, h.filter _, ?_⟩, ?_⟩
  · intro c hc d hd
    have h1 := mem_cellsFrom _ _ _ hc
    have h2 := (List.mem_filter.1 hd).2
    simp only [decide_eq_true_eq] at h2
    omega
  · intro c hc d hd
    have h1 := (List.mem_filter.1 hc).2
    simp only [decide_eq_true_eq] at h1
    rcases List.mem_append.1 hd with hd | hd
    · have := mem_cellsFrom _ _ _ hd; omega
    · have h2 := (List.mem_filter.1 hd).2
      simp only [decide_eq_true_eq] at h2
      omega

/-- A write inside a buffer of `n` bytes keeps every index inside it. -/
theorem write_within (n : Nat) (m : Memory) (a : Nat) (bs : Bytes) (h : m.within n) (hb : a + bs.length ≤ n) :
    (m.write a bs).within n := by
  intro c hc
  rw [Memory.write, List.mem_append, List.mem_append] at hc
  rcases hc with (hc | hc) | hc
  · exact h c (List.mem_filter.1 hc).1
  · have := mem_cellsFrom _ _ _ hc; omega
  · exact h c (List.mem_filter.1 hc).1

@[simp] theorem length_memRead (s : State) (b : Buffer) (a n : Nat) : (s.memRead b a n).length = n := by
  simp [State.memRead]

@[simp] theorem length_input (s : State) : s.input.length = s.inLen.toNat := by simp [State.input]

/-- Reading back the string that was written at the start of OUT. -/
theorem memRead_writeOut (s : State) (bs : Bytes) : (s.writeOut bs).memRead .output 0 bs.length = bs := by
  apply List.ext_getElem
  · simp
  · intro i h1 h2
    have := lookup_write_inside s.outBuf 0 bs i h2
    simp only [Nat.zero_add] at this
    simp [State.memRead, State.readByte, this]

/-- Reading back the string that was written at the start of OUT, in any state with that OUT buffer. -/
theorem memRead_write_output (t : State) (m : Memory) (bs : Bytes) (h : t.outBuf = m.write 0 bs) :
    t.memRead .output 0 bs.length = bs := by
  apply List.ext_getElem
  · simp
  · intro i h1 h2
    have := lookup_write_inside m 0 bs i h2
    simp only [Nat.zero_add] at this
    simp [State.memRead, State.readByte, h, this]

/-- The word read from a window after a write of it. -/
theorem readWord_writeInWord (s : State) (i : Nat) (d : Word) : (s.writeInWord i d).readWord .input i = d := by
  have h : (s.writeInWord i d).memRead .input i 4 = be32 d := by
    apply List.ext_getElem
    · simp
    · intro k h1 h2
      have := lookup_write_inside s.inBuf i (be32 d) k h2
      simp [State.memRead, State.readByte, this]
  rw [State.readWord, h, rd32_be32]

end Sys2Proof.Machine
end

