-- ==== Sys2Proof/Machine/HostProgram.lean ====
section
/-! DEFINITION. The host notation (R131, R132): each line as the events it stands for. -/

namespace Sys2Proof.Machine

/-- The mnemonic of a command, `.V` part of the name (R122, R131). -/
def mnemonicOf : Instr → String
  | .derive => "DERIVE"
  | .close => "CLOSE"
  | .encrypt => "ENCRYPT"
  | .decrypt => "DECRYPT"
  | .mac => "MAC"
  | .encFrame => "ENCFRAME"
  | .decHdr => "DECHDR"
  | .decHdrV => "DECHDR.V"
  | .parseHello => "PARSEHELLO"
  | .probe => "PROBE"
  | .sealFrame => "SEAL"
  | .openFrame => "OPEN"
  | .openFrameV => "OPEN.V"

/-- `off(target)` of R131, for a target of a line that can be run (`canRun`). -/
def targetOffset : Target → BitVec 16
  | .reg r => BitVec.ofNat 16 (regOffset r)
  | .inAt n => BitVec.ofNat 16 (0x4000 + n)
  | .outAt n => BitVec.ofNat 16 (0x8000 + n)

/-- A target whose offset is aligned (R131) and lies in the block's 64 KiB (R80). -/
def targetInRange : Target → Bool
  | .reg _ => true
  | .inAt n => n % 4 == 0 && decide (0x4000 + n < 65536)
  | .outAt n => n % 4 == 0 && decide (0x8000 + n < 65536)

/-- `WR target, value` (R131). -/
def wrEvent (t : Target) (d : Word) : Event := .write (targetOffset t) 4 d

/-- `RD target` (R131). -/
def rdEvent (t : Target) : Event := .read (targetOffset t) 4

/-- The string of `LOADIN`, followed by zero bytes to a multiple of 4 (R132). -/
def zeroFilled (s : Bytes) : Bytes := s ++ List.replicate ((4 - s.length % 4) % 4) 0

/-- Whether a line can be run.  `LOADIN` of more than `BUF_BYTES` bytes cannot (R387 for a datagram; U19, `refuse`), and
for `IN+n` and `OUT+n` the offset is a multiple of 4 (R131) and one of the block's 65536 (R80).  Refusing every other
line, `LOADIN` outside R387 among them, is a DESIGN CHOICE (log 22). -/
def canRun (p : Params) : HostLine → Bool
  | .wr t _ => targetInRange t
  | .rd t _ => targetInRange t
  | .loadIn s => s.length ≤ p.bufBytes
  | .cmd _ => true
  | .wait => true
  | .run _ => true
  | .loadTok _ => true
  | .setCap _ => true
  | .ack => true

/-- The expansion of a line that can be run (R131, R132).  `WAIT` reads STATUS until BUSY is 0: here `polls` reads find
the command still in flight, then it completes, then one read finds BUSY = 0; `polls` is the schedule's choice (R334;
log 16). -/
def lineBus (polls : Nat) : HostLine → List Event
  | .wr t d => [wrEvent t d]
  | .rd t _ => [rdEvent t]
  | .cmd i => [wrEvent (.reg .cmd) (encode i)]
  | .wait => List.replicate polls (rdEvent (.reg .status)) ++ [.complete, rdEvent (.reg .status)]
  | .run i =>
    wrEvent (.reg .cmd) (encode i) ::
      (List.replicate polls (rdEvent (.reg .status)) ++ [.complete, rdEvent (.reg .status)])
  | .loadTok t =>
    [wrEvent (.reg (.token 0)) (wordOf t 0), wrEvent (.reg (.token 1)) (wordOf t 1),
     wrEvent (.reg (.token 2)) (wordOf t 2), wrEvent (.reg (.token 3)) (wordOf t 3)]
  | .loadIn s =>
    ((List.range ((s.length + 3) / 4)).map fun k => wrEvent (.inAt (4 * k)) (rd32 (zeroFilled s) (4 * k))) ++
      [wrEvent (.reg .inLen) (BitVec.ofNat 32 s.length)]
  | .setCap n => [wrEvent (.reg .outCap) n]
  | .ack => [wrEvent (.reg .status) 0x0000001E]

/-- A line as events; none for a line that cannot be run, which then has no event at all (U19; log 22). -/
def lineEvents (p : Params) (polls : Nat) (l : HostLine) : Option (List Event) :=
  if canRun p l then some (lineBus polls l) else none

/-- A host program as events, every `WAIT` after the same number of polls; none if one of its lines cannot be run
(log 22). -/
def programEvents (p : Params) (polls : Nat) (lines : List HostLine) : Option (List Event) :=
  if lines.all (canRun p) then some (lines.flatMap (lineBus polls)) else none

/-- The boot sequence of R385; steps 1 and 2 are optional in the rule, and step 2 is left out when `ctrl` is `none`. -/
def bootLines (ctrl : Option Word) (t : Block) : List HostLine :=
  [.rd (.reg .id) (some 0x4D434531), .rd (.reg .bufsize) none] ++
    (match ctrl with
     | some d => [.wr (.reg .ctrl) d]
     | none => []) ++
    [.loadTok t, .run .derive, .rd (.reg .result) (some 0x00000100)]

/-- The write-path sequence of R386: `response` is the datagram received after the probe was sent.  With a string longer
than `BUF_BYTES` it has no events (log 22). -/
def writeLines (response plaintext : Bytes) : List HostLine :=
  [.setCap 0x00001000, .run .probe, .loadIn response, .run .parseHello, .loadIn plaintext, .run .sealFrame]

/-- The read-path sequence of R387 for the datagram `d` and a caller's capacity `cap`, with or without
verification.  A datagram longer than `BUF_BYTES` cannot be loaded: the sequence then has no events (U19; log 22). -/
def readLines (d : Bytes) (cap : Word) (verify : Bool) : List HostLine :=
  [.loadIn d, .setCap cap, .run (if verify then .openFrameV else .openFrame)]

end Sys2Proof.Machine
end

