-- ==== Sys2Proof/Laws/Bus.lean ====
section
/-! SUPPORT. The address map, and what a bus write can and cannot change. -/

namespace Sys2Proof.Machine

theorem regAt_regOffset (r : Reg) : regAt (regOffset r) = some r := by
  cases r with
  | token k | key k | iv k | rxCksum k | digest k => revert k; decide
  | _ => decide

theorem regOffset_of_regAt {off : Nat} {r : Reg} (h : regAt off = some r) : regOffset r = off := by
  unfold regAt at h
  simpa using List.find?_some h

theorem regOffset_lt (r : Reg) : regOffset r ≤ 0x88 ∧ regOffset r % 4 = 0 := by
  cases r with
  | token k | key k | iv k | rxCksum k | digest k => revert k; decide
  | _ => decide

/-- A transaction of the right size at a register's offset reaches that register (R22). -/
theorem busTarget_reg (p : Params) (r : Reg) (off : BitVec 16) (h : off.toNat = regOffset r) :
    busTarget p off 4 = some (.reg r) := by
  have := regOffset_lt r
  unfold busTarget targetAt
  rw [if_neg (by simp), if_neg (by omega), h, if_pos (by omega), regAt_regOffset]
  rfl

/-- A transaction of the right size at a word of the IN window reaches that word (R88). -/
theorem busTarget_in (p : Params) (i : Nat) (off : BitVec 16) (h : off.toNat = 0x4000 + i) (hi : i < p.bufBytes)
    (h4 : i % 4 = 0) : busTarget p off 4 = some (.inAt i) := by
  unfold busTarget targetAt
  rw [if_neg (by simp), if_neg (by omega), if_neg (by omega), if_pos (by omega), show off.toNat - 0x4000 = i by omega]

/-- A transaction of the right size at a word of the OUT window reaches that word (R89). -/
theorem busTarget_out (p : Params) (i : Nat) (off : BitVec 16) (hp : p.bufBytes ≤ 0x4000)
    (h : off.toNat = 0x8000 + i) (hi : i < p.bufBytes) (h4 : i % 4 = 0) :
    busTarget p off 4 = some (.outAt i) := by
  unfold busTarget targetAt
  rw [if_neg (by simp), if_neg (by omega), if_neg (by omega), if_neg (by omega), if_neg (by omega),
    if_pos (by omega), show off.toNat - 0x8000 = i by omega]

/-- Every aligned offset up to 0x0088 is a register (R85). -/
theorem regAt_of_le {o : Nat} (h : o ≤ 0x88) (h4 : o % 4 = 0) : ∃ r, regAt o = some r := by
  have key : ∀ k : Fin 35, (regAt (4 * k.val)).isSome := by decide
  obtain ⟨r, hr⟩ := Option.isSome_iff_exists.1 (key ⟨o / 4, by omega⟩)
  exact ⟨r, by rw [← hr]; congr 1; dsimp only; omega⟩

/-- No register lies above 0x0088 (R81). -/
theorem regAt_of_gt {o : Nat} (h : 0x88 < o) : regAt o = none := by
  cases h' : regAt o with
  | none => rfl
  | some r =>
    have := regOffset_lt r
    rw [regOffset_of_regAt h'] at this
    omega

/-- A read at a register's offset gives what the register reads as (R87). -/
theorem busRead_reg (p : Params) (s : State) (r : Reg) (off : BitVec 16) (h : off.toNat = regOffset r) :
    busRead p s off 4 = .data (s.readReg p r) := by
  unfold busRead; rw [busTarget_reg p r off h]

/-- The fields of CTRL (R24). -/
theorem ctrlWord_fields (s : State) : s.ctrlWord.getLsbD 0 = s.irqEn ∧ s.ctrlWord.getLsbD 1 = s.hsOneshot ∧
    s.ctrlWord.extractLsb' 2 30 = 0 := by
  unfold State.ctrlWord
  cases s.irqEn <;> cases s.hsOneshot <;> decide

/-- The fields of STATUS (R26). -/
theorem statusWord_fields (s : State) :
    s.statusWord.getLsbD 0 = s.busy ∧ s.statusWord.getLsbD 1 = s.done ∧ s.statusWord.getLsbD 2 = s.err ∧
    s.statusWord.getLsbD 3 = s.cmdOvr ∧ s.statusWord.getLsbD 4 = s.busyWr ∧ s.statusWord.extractLsb' 5 3 = 0 ∧
    s.statusWord.getLsbD 8 = s.conn ∧ s.statusWord.getLsbD 9 = s.hsValid ∧ s.statusWord.extractLsb' 10 2 = 0 ∧
    s.statusWord.extractLsb' 12 4 = s.tokenWr ∧ s.statusWord.extractLsb' 16 16 = 0 := by
  have bits : ∀ (t : BitVec 4) (a b c d e f g : Bool),
      let w : Word := 0#16 ++ t ++ 0#2 ++ BitVec.ofBool a ++ BitVec.ofBool b ++ 0#3 ++ BitVec.ofBool c ++
        BitVec.ofBool d ++ BitVec.ofBool e ++ BitVec.ofBool f ++ BitVec.ofBool g
      w.getLsbD 0 = g ∧ w.getLsbD 1 = f ∧ w.getLsbD 2 = e ∧ w.getLsbD 3 = d ∧ w.getLsbD 4 = c ∧
      w.extractLsb' 5 3 = 0 ∧ w.getLsbD 8 = b ∧ w.getLsbD 9 = a ∧ w.extractLsb' 10 2 = 0 ∧
      w.extractLsb' 12 4 = t ∧ w.extractLsb' 16 16 = 0 := by decide +kernel
  exact bits _ _ _ _ _ _ _ _

/-- A 16-bit register as the bus reads it (R38 to R40, R47). -/
theorem half_setWidth (h : Half) : h.setWidth 32 = 0#16 ++ h := by
  apply BitVec.eq_of_toNat_eq
  show _ = BitVec.toNat (w := 16 + 16) (0#16 ++ h)
  rw [BitVec.toNat_append, BitVec.toNat_setWidth, Nat.mod_eq_of_lt (by have := h.isLt; omega)]
  simp

/-- The fields of RESULT (R37). -/
theorem resultWord_fields (s : State) : s.resultWord.extractLsb' 0 8 = s.resCode ∧
    s.resultWord.extractLsb' 8 8 = s.resOpc ∧ s.resultWord.getLsbD 16 = s.resV ∧
    s.resultWord.extractLsb' 17 15 = 0 := by
  have bit : ∀ i, s.resultWord.getLsbD i = if i < 8 then s.resCode.getLsbD i
      else if i - 8 < 8 then s.resOpc.getLsbD (i - 8) else decide (i - 8 - 8 = 0) && s.resV := by
    intro i
    show BitVec.getLsbD (w := 15 + 1 + 8 + 8) (0#15 ++ BitVec.ofBool s.resV ++ s.resOpc ++ s.resCode) i = _
    rw [BitVec.getLsbD_append, BitVec.getLsbD_append, BitVec.getLsbD_append]
    simp
  refine ⟨?_, ?_, by rw [bit]; simp, ?_⟩ <;> apply BitVec.eq_of_getLsbD_eq <;> intro i hi <;>
    rw [BitVec.getLsbD_extractLsb', bit] <;> simp <;> grind

/-- A read of a word of the IN window (R88). -/
theorem busRead_in (p : Params) (s : State) (i : Nat) (off : BitVec 16) (h : off.toNat = 0x4000 + i)
    (hi : i < p.bufBytes) (h4 : i % 4 = 0) : busRead p s off 4 = .data (s.readWord .input i) := by
  unfold busRead; rw [busTarget_in p i off h hi h4]

/-- A write at a writable register's offset is accepted and has the register's effect (R86). -/
theorem busWrite_reg (p : Params) (s : State) (r : Reg) (off : BitVec 16) (d : Word) (h : off.toNat = regOffset r)
    (hr : regWritable r = true) : busWrite p s off 4 d = ((s.writeReg r d).tick, .ok) := by
  unfold busWrite; rw [busTarget_reg p r off h]; simp only [hr, if_true]

/-- A write of a word of the IN window is accepted (R88). -/
theorem busWrite_in (p : Params) (s : State) (i : Nat) (off : BitVec 16) (d : Word) (h : off.toNat = 0x4000 + i)
    (hi : i < p.bufBytes) (h4 : i % 4 = 0) :
    busWrite p s off 4 d = ((s.writeInput (s.writeInWord i d)).tick, .ok) := by
  unfold busWrite; rw [busTarget_in p i off h hi h4]

/-- What a transaction's target says about its size and offset (R83, R84). -/
theorem busTarget_some {p : Params} {off : BitVec 16} {size : Nat} {t : Target} (h : busTarget p off size = some t) :
    size = 4 ∧ off.toNat % 4 = 0 ∧ targetAt p off.toNat = some t := by
  unfold busTarget at h
  split at h
  · cases h
  · split at h
    · cases h
    · exact ⟨by omega, by omega, h⟩

/-- A register that a transaction reaches stands at that offset. -/
theorem targetAt_reg {p : Params} {off : Nat} {r : Reg} (h : targetAt p off = some (.reg r)) : off = regOffset r := by
  unfold targetAt at h
  split at h
  · simp only [Option.map_eq_some_iff, Target.reg.injEq] at h
    obtain ⟨q, hq, rfl⟩ := h
    exact (regOffset_of_regAt hq).symm
  · repeat' split at h
    all_goals simp at h

/-- A word of the IN window that a transaction reaches lies in the buffer. -/
theorem targetAt_in {p : Params} {off i : Nat} (h : targetAt p off = some (.inAt i)) :
    off = 0x4000 + i ∧ i < p.bufBytes := by
  unfold targetAt at h
  by_cases h1 : off < 0x4000
  · rw [if_pos h1] at h
    simp at h
  · rw [if_neg h1] at h
    by_cases h2 : off < 0x4000 + p.bufBytes
    · rw [if_pos h2] at h
      simp only [Option.some.injEq, Target.inAt.injEq] at h
      omega
    · rw [if_neg h2] at h
      split at h
      · simp at h
      · split at h <;> simp at h

/-- An accepted write to an input, whether it is dropped or not, changes only what a write of it changes or BUSY_WR. -/
theorem writeInput_cases (s t : State) :
    (s.busy = true ∧ s.writeInput t = s.markBusyWrite) ∨ (s.busy = false ∧ s.writeInput t = t) := by
  unfold State.writeInput
  cases s.busy <;> simp

theorem writeInput_busy {s t : State} (h : s.busy = true) : s.writeInput t = s.markBusyWrite := by
  simp [State.writeInput, h]

theorem writeInput_idle {s t : State} (h : s.busy = false) : s.writeInput t = t := by
  simp [State.writeInput, h]

/-- The ways a bus write can end. -/
theorem busWrite_cases (p : Params) (s : State) (off : BitVec 16) (size : Nat) (d : Word) :
    busWrite p s off size d = (s, .busErr) ∨
    (∃ r, regWritable r = true ∧ busTarget p off size = some (.reg r) ∧
      busWrite p s off size d = ((s.writeReg r d).tick, .ok)) ∨
    (∃ i, busTarget p off size = some (.inAt i) ∧
      busWrite p s off size d = ((s.writeInput (s.writeInWord i d)).tick, .ok)) := by
  unfold busWrite
  cases h : busTarget p off size with
  | none => exact .inl rfl
  | some t =>
    cases t with
    | reg r =>
      by_cases hr : regWritable r = true
      · exact .inr (.inl ⟨r, hr, rfl, by simp [hr]⟩)
      · exact .inl (by simp [hr])
    | inAt i => exact .inr (.inr ⟨i, rfl, rfl⟩)
    | outAt i => exact .inl rfl

/-- What a register write changes, case by case. -/
theorem writeReg_cases (s : State) (r : Reg) (d : Word) :
    s.writeReg r d = s ∨ s.writeReg r d = s.ackStatus d ∨ s.writeReg r d = s.markOverrun ∨
    s.writeReg r d = s.markBusyWrite ∨
    (s.busy = false ∧ (s.writeReg r d = s.setCtrl d ∨ s.writeReg r d = s.issue d ∨
      s.writeReg r d = s.setInLen (d.setWidth 16) ∨ s.writeReg r d = s.setOutCap (d.setWidth 16) ∨
      ∃ k, s.writeReg r d = s.setToken k d)) := by
  unfold State.writeReg
  cases r with
  | ctrl => rcases writeInput_cases s (s.setCtrl d) with ⟨-, h⟩ | ⟨hb, h⟩ <;> simp [*]
  | inLen => rcases writeInput_cases s (s.setInLen (d.setWidth 16)) with ⟨-, h⟩ | ⟨hb, h⟩ <;> simp [*]
  | outCap => rcases writeInput_cases s (s.setOutCap (d.setWidth 16)) with ⟨-, h⟩ | ⟨hb, h⟩ <;> simp [*]
  | token k =>
    rcases writeInput_cases s (s.setToken k d) with ⟨-, h⟩ | ⟨hb, h⟩
    · simp [h]
    · exact .inr (.inr (.inr (.inr ⟨hb, .inr (.inr (.inr (.inr ⟨k, h⟩)))⟩)))
  | cmd => cases hb : s.busy <;> simp
  | status => simp
  | _ => simp

/-- No bus write changes what only commands write, nor the host's side of the state. -/
theorem writeReg_frame (s : State) (r : Reg) (d : Word) :
    (s.writeReg r d).conn = s.conn ∧ (s.writeReg r d).hsValid = s.hsValid ∧ (s.writeReg r d).resCode = s.resCode ∧
    (s.writeReg r d).resOpc = s.resOpc ∧ (s.writeReg r d).resV = s.resV ∧ (s.writeReg r d).outLen = s.outLen ∧
    (s.writeReg r d).tok = s.tok ∧ (s.writeReg r d).key = s.key ∧ (s.writeReg r d).iv = s.iv ∧
    (s.writeReg r d).devid = s.devid ∧ (s.writeReg r d).stamp = s.stamp ∧ (s.writeReg r d).digest = s.digest ∧
    (s.writeReg r d).inBuf = s.inBuf ∧ (s.writeReg r d).outBuf = s.outBuf ∧ (s.writeReg r d).events = s.events ∧
    (s.writeReg r d).replies = s.replies := by
  rcases writeReg_cases s r d with h | h | h | h | ⟨-, h | h | h | h | ⟨k, h⟩⟩ <;> rw [h] <;> simp

/-- The same for a bus write at any offset. -/
theorem busWrite_frame (p : Params) (s : State) (off : BitVec 16) (size : Nat) (d : Word) :
    (busWrite p s off size d).1.conn = s.conn ∧ (busWrite p s off size d).1.hsValid = s.hsValid ∧
    (busWrite p s off size d).1.resCode = s.resCode ∧ (busWrite p s off size d).1.tok = s.tok ∧
    (busWrite p s off size d).1.key = s.key ∧ (busWrite p s off size d).1.iv = s.iv ∧
    (busWrite p s off size d).1.devid = s.devid ∧ (busWrite p s off size d).1.stamp = s.stamp ∧
    (busWrite p s off size d).1.outLen = s.outLen ∧ (busWrite p s off size d).1.outBuf = s.outBuf := by
  rcases busWrite_cases p s off size d with e | ⟨r, -, -, e⟩ | ⟨i, -, e⟩ <;> rw [e]
  · simp
  · simp [writeReg_frame s r d]
  · rcases writeInput_cases s (s.writeInWord i d) with ⟨-, h⟩ | ⟨-, h⟩ <;> rw [h] <;> simp

/-- A line has events exactly if it can be run. -/
theorem lineEvents_eq_some {p : Params} {polls : Nat} {l : HostLine} {ev : List Event} :
    lineEvents p polls l = some ev ↔ canRun p l = true ∧ lineBus polls l = ev := by
  simp [lineEvents]

/-- `LOADIN` of a string that fits IN can be run (R132). -/
theorem canRun_loadIn_eq_true {p : Params} {s : Bytes} (h : s.length ≤ p.bufBytes) : canRun p (.loadIn s) = true :=
  decide_eq_true h

/-- `LOADIN` of a string longer than `BUF_BYTES` cannot be run (U19, log 22). -/
theorem canRun_loadIn_eq_false {p : Params} {s : Bytes} (h : p.bufBytes < s.length) : canRun p (.loadIn s) = false :=
  decide_eq_false (by omega)

/-- A program with a line that cannot be run has no events (log 22). -/
theorem programEvents_eq_none {p : Params} {polls : Nat} {lines : List HostLine} {l : HostLine} (hl : l ∈ lines)
    (h : canRun p l = false) : programEvents p polls lines = none :=
  if_neg fun ha => by simp [List.all_eq_true.1 ha l hl] at h

/-- `LOADIN` writes nothing but words of the IN window and IN_LEN (R132; U19, log 22). -/
theorem loadIn_writes_inputs {p : Params} {polls : Nat} {s : Bytes} {ev : List Event} (hp : p.bufBytes ≤ 16384)
    (h : lineEvents p polls (.loadIn s) = some ev) :
    ∀ e ∈ ev, ∃ off d, e = .write off 4 d ∧ off.toNat % 4 = 0 ∧ inputOffset p.bufBytes off = true := by
  obtain ⟨hc, rfl⟩ := lineEvents_eq_some.1 h
  have hc : s.length ≤ p.bufBytes := of_decide_eq_true hc
  intro e he
  simp only [lineBus, List.mem_append, List.mem_map, List.mem_range, List.mem_singleton] at he
  obtain ⟨k, hk, rfl⟩ | rfl := he
  · have ho : (BitVec.ofNat 16 (0x4000 + 4 * k)).toNat = 0x4000 + 4 * k := by
      rw [BitVec.toNat_ofNat]
      omega
    refine ⟨_, _, rfl, by simp only [targetOffset, ho]; omega, ?_⟩
    simp only [targetOffset, inputOffset, ho, Bool.or_eq_true, Bool.and_eq_true, decide_eq_true_eq]
    exact .inr ⟨by omega, by omega⟩
  · exact ⟨_, _, rfl, by decide, rfl⟩

end Sys2Proof.Machine
end

