-- ==== Sys2Proof/Laws/Primitives.lean ====
section
/-! SUPPORT. Padding, blocks and chains: lengths, and blocks of a string and back. -/

namespace Sys2Proof.Machine

theorem length_pad (s : Bytes) : (pad s).length = 16 * (s.length / 16 + 1) := by
  simp only [pad, List.length_append, List.length_replicate]
  omega

theorem pad_length_mod (s : Bytes) : (pad s).length % 16 = 0 := by
  rw [length_pad]; omega

@[simp] theorem length_toBlocks (s : Bytes) : (toBlocks s).length = s.length / 16 := by simp [toBlocks]

@[simp] theorem length_ofBlocks (bs : List Block) : (ofBlocks bs).length = 16 * bs.length := by
  induction bs with
  | nil => rfl
  | cons b bs ih =>
    rw [ofBlocks, List.flatMap_cons, List.length_append, length_be128]
    change 16 + (ofBlocks bs).length = _
    rw [ih, List.length_cons]
    ring

/-- Cutting into blocks undoes putting blocks together. -/
theorem toBlocks_ofBlocks (bs : List Block) : toBlocks (ofBlocks bs) = bs := by
  unfold toBlocks
  rw [length_ofBlocks, Nat.mul_div_cancel_left _ (by decide)]
  induction bs with
  | nil => rfl
  | cons b bs ih =>
    rw [ofBlocks, List.flatMap_cons, List.length_cons, pieces_append 16 _ (length_be128 b)]
    rw [List.map_cons, rd128_be128]
    exact congrArg _ ih

/-- Putting blocks together undoes cutting a string of whole blocks. -/
theorem ofBlocks_toBlocks (s : Bytes) (h : s.length % 16 = 0) : ofBlocks (toBlocks s) = s := by
  have hl : s.length = 16 * (s.length / 16) := by omega
  have key : ∀ n (s : Bytes), s.length = 16 * n → ((pieces 16 n s).map fun b => rd128 b 0).flatMap be128 = s := by
    intro n
    induction n with
    | zero => intro s hs; simpa [pieces] using (List.length_eq_zero_iff.1 (by simpa using hs)).symm
    | succ n ih =>
      intro s hs
      have hb : (s.take 16).length = 16 := by rw [List.length_take]; omega
      rw [pieces, List.map_cons, List.flatMap_cons, ih _ (by rw [List.length_drop]; omega),
        be128_rd128 _ _ (by omega), Nat.zero_add, slice_full_of_eq _ _ hb, List.take_append_drop]
  exact key _ s hl

@[simp] theorem length_cbcEncBlocks (p : Params) (k v : Block) (bs : List Block) :
    (cbcEncBlocks p k v bs).length = bs.length := by
  induction bs generalizing v with
  | nil => rfl
  | cons b bs ih => simp [cbcEncBlocks, ih]

@[simp] theorem length_cbcDecBlocks (p : Params) (k v : Block) (bs : List Block) :
    (cbcDecBlocks p k v bs).length = bs.length := by
  induction bs generalizing v with
  | nil => rfl
  | cons b bs ih => simp [cbcDecBlocks, ih]

theorem length_cbcEnc (p : Params) (k v : Block) (s : Bytes) : (cbcEnc p k v s).length = 16 * (s.length / 16) := by
  simp [cbcEnc]

theorem length_cbcDec (p : Params) (k v : Block) (s : Bytes) : (cbcDec p k v s).length = 16 * (s.length / 16) := by
  simp [cbcDec]

/-- What an unpadded string says about the string it came from. -/
theorem unpad_ok_length (c : PadCheck) (q body : Bytes) (h : unpad c q = .ok body) :
    q.length < body.length + 17 ∧ body.length < q.length := by
  unfold unpad at h
  split at h
  · cases h
  · dsimp only at h
    split at h
    · cases h
    · split at h
      · cases h
      · cases h
        rw [List.length_take]
        omega

/-- Unpadding never reports anything but DEC_PAD (R154). -/
theorem unpad_error (c : PadCheck) (q : Bytes) (e : ErrorCode) (h : unpad c q = .error e) : e = .decPad := by
  unfold unpad at h
  split at h
  · cases h; rfl
  · dsimp only at h
    split at h
    · cases h; rfl
    · split at h
      · cases h; rfl
      · cases h

/-- Decryption reports DEC_ALIGN or DEC_PAD (R157). -/
theorem decryptBytes_error (p : Params) (k v : Block) (c : Bytes) (e : ErrorCode)
    (h : decryptBytes p k v c = .error e) : e = .decAlign ∨ e = .decPad := by
  unfold decryptBytes at h
  split at h
  · cases h; exact .inl rfl
  · exact .inr (unpad_error _ _ _ h)

end Sys2Proof.Machine
end

