-- ==== Sys2Proof/Laws/Ops.lean ====
section
/-! SUPPORT. One lemma per shared operation and per command body that says everything it can do, and `exec` as the
completion of a body. -/

namespace Sys2Proof.Machine

theorem emit_ok (s t : State) (out : Bytes) :
    s.emit out = .ok t ↔ out.length ≤ s.outCap.toNat ∧ t = s.writeOut out := by
  unfold State.emit
  split
  · simp; omega
  · simp only [Except.ok.injEq, eq_comm (a := t)]; constructor
    · intro h; exact ⟨by omega, h⟩
    · exact fun h => h.2

theorem emit_error (s : State) (out : Bytes) (e : ErrorCode) :
    s.emit out = .error e ↔ s.outCap.toNat < out.length ∧ e = .outCap := by
  unfold State.emit
  split
  · simp_all [eq_comm]
  · simp_all

theorem emitFrame_ok (p : Params) (s t : State) (b : Bytes) :
    s.emitFrame p b = .ok t ↔ (frameOf p s b).length ≤ s.outCap.toNat ∧
      t = ((s.writeOut (frameOf p s b)).setDigest (bodyCksum p s b)).consumeHandshake := by
  unfold State.emitFrame
  cases h : s.emit (frameOf p s b) with
  | error e => have := (emit_error _ _ _).1 h; simp; omega
  | ok u =>
    obtain ⟨h1, rfl⟩ := (emit_ok _ _ _).1 h
    simp [h1, eq_comm]

theorem emitFrame_error (p : Params) (s : State) (b : Bytes) (e : ErrorCode) :
    s.emitFrame p b = .error e ↔ s.outCap.toNat < (frameOf p s b).length ∧ e = .outCap := by
  unfold State.emitFrame
  cases h : s.emit (frameOf p s b) with
  | error e' =>
    obtain ⟨h1, rfl⟩ := (emit_error _ _ _).1 h
    simp [h1, eq_comm]
  | ok u => have := (emit_ok _ _ _).1 h; simp; omega

theorem emitPlain_ok (p : Params) (s t : State) (c : Bytes) :
    s.emitPlain p c = .ok t ↔
      ∃ q, decryptBytes p s.key s.iv c = .ok q ∧ q.length ≤ s.outCap.toNat ∧ t = s.writeOut q := by
  unfold State.emitPlain
  cases h : decryptBytes p s.key s.iv c with
  | error e => simp
  | ok q => simp [emit_ok]

theorem emitPlain_error (p : Params) (s : State) (c : Bytes) (e : ErrorCode) :
    s.emitPlain p c = .error e ↔ decryptBytes p s.key s.iv c = .error e ∨
      ∃ q, decryptBytes p s.key s.iv c = .ok q ∧ s.outCap.toNat < q.length ∧ e = .outCap := by
  unfold State.emitPlain
  cases h : decryptBytes p s.key s.iv c with
  | error e' => simp
  | ok q => simp [emit_error]

@[simp] theorem length_headerPrefix (p : Params) (s : State) (n : Nat) : (headerPrefix p s n).length = 16 := by
  simp [headerPrefix]

@[simp] theorem length_frameOf (p : Params) (s : State) (b : Bytes) : (frameOf p s b).length = 32 + b.length := by
  simp [frameOf]; omega

@[simp] theorem length_probeBytes : probeBytes.length = 32 := rfl

/-- The pseudocode of a command, whichever it is. -/
def bodyOf (p : Params) (i : Instr) (s : State) : Except ErrorCode State :=
  match i with
  | .derive => deriveBody p s
  | .close => closeBody s
  | .encrypt => encryptBody p s
  | .decrypt => decryptBody p s
  | .mac => macBody p s
  | .encFrame => encFrameBody p s
  | .decHdr => decHdrBody p s
  | .decHdrV => decHdrVBody p s
  | .parseHello => parseHelloBody p s
  | .probe => probeBody p s
  | .sealFrame => sealBody p s
  | .openFrame => openBody p s
  | .openFrameV => openVBody p s

/-- `exec` is the completion step of the command's pseudocode (R335). -/
theorem exec_eq (i : Instr) (s : State) : exec i s = complete i s (bodyOf hw i s) := by
  cases i <;> rfl

/-- The two ways a completion can end (R335, R347). -/
theorem exec_cases (i : Instr) (s : State) :
    (∃ t, bodyOf hw i s = .ok t ∧ exec i s = .next (t.finish (encode i) 0)) ∨
    (∃ e, bodyOf hw i s = .error e ∧ exec i s = .next ((s.discard i).finish (encode i) (errorByte e))) := by
  rw [exec_eq]
  cases bodyOf hw i s with
  | ok t => exact .inl ⟨t, rfl, rfl⟩
  | error e => exact .inr ⟨e, rfl, rfl⟩

theorem exec_of_ok {i : Instr} {s t : State} (h : bodyOf hw i s = .ok t) :
    exec i s = .next (t.finish (encode i) 0) := by rw [exec_eq, h]; rfl

theorem exec_of_error {i : Instr} {s : State} {e : ErrorCode} (h : bodyOf hw i s = .error e) :
    exec i s = .next ((s.discard i).finish (encode i) (errorByte e)) := by rw [exec_eq, h]; rfl

theorem encode_opc (i : Instr) : (encode i).extractLsb' 0 8 = (instrFields i).opc := by cases i <;> decide

theorem encode_v (i : Instr) : (encode i).getLsbD 8 = (instrFields i).v := by cases i <;> decide

/-- A command that succeeds: its staged writes and its report (R335). -/
theorem exec_reports_ok {i : Instr} {s t : State} (h : bodyOf hw i s = .ok t) :
    exec i s = .next (t.reporting (instrFields i).opc (instrFields i).v 0) := by
  rw [exec_of_ok h, State.finish, encode_opc, encode_v]

/-- A command that fails: what it discards and its report (R335, R347). -/
theorem exec_reports_error {i : Instr} {s : State} {e : ErrorCode} (h : bodyOf hw i s = .error e) :
    exec i s = .next ((s.discard i).reporting (instrFields i).opc (instrFields i).v (errorByte e)) := by
  rw [exec_of_error h, State.finish, encode_opc, encode_v]

/-- The two ways a completion can end, read from the state it gives. -/
theorem exec_inversion {i : Instr} {s t : State} (h : exec i s = .next t) :
    (∃ u, bodyOf hw i s = .ok u ∧ t = u.reporting (instrFields i).opc (instrFields i).v 0) ∨
    (∃ e, bodyOf hw i s = .error e ∧
      t = (s.discard i).reporting (instrFields i).opc (instrFields i).v (errorByte e)) := by
  rcases exec_cases i s with ⟨u, hu, -⟩ | ⟨e, he, -⟩
  · rw [exec_reports_ok hu] at h
    cases h
    exact .inl ⟨u, hu, rfl⟩
  · rw [exec_reports_error he] at h
    cases h
    exact .inr ⟨e, he, rfl⟩

theorem errorByte_ne_zero (e : ErrorCode) : errorByte e ≠ 0 := by cases e <;> decide

/-- What each body does when it succeeds: the conditions it checked and the staged writes. -/
theorem deriveBody_ok (p : Params) (s t : State) : deriveBody p s = .ok t ↔ s.tokenWr = 0b1111 ∧
    t = s.clearLink.openLink s.stagedToken (keyOf p s.stagedToken) (ivOf p s.stagedToken) := by
  unfold deriveBody
  split
  · rename_i h
    exact ⟨fun e => (by cases e), fun e => absurd e.1 h⟩
  · rename_i h
    exact ⟨fun e => ⟨not_not.1 h, (Except.ok.inj e).symm⟩, fun e => congrArg _ e.2.symm⟩

theorem closeBody_ok (s t : State) : closeBody s = .ok t ↔ s.conn = true ∧
    t = s.clearLink.closeLink := by
  unfold closeBody
  split
  · rename_i h
    exact ⟨fun e => (by cases e), fun e => absurd e.1 (by rw [h]; decide)⟩
  · rename_i h
    exact ⟨fun e => ⟨by simpa using h, (Except.ok.inj e).symm⟩, fun e => congrArg _ e.2.symm⟩

theorem encryptBody_ok (p : Params) (s t : State) : encryptBody p s = .ok t ↔
    s.conn = true ∧ s.inLen.toNat ≤ p.bufBytes ∧ s.outCap.toNat ≤ p.bufBytes ∧
    (encryptBytes p s.key s.iv s.input).length ≤ s.outCap.toNat ∧
    t = s.writeOut (encryptBytes p s.key s.iv s.input) := by
  unfold encryptBody
  split
  · simp_all
  · split
    · simp_all [State.inTooLong, State.capTooLong]; omega
    · simp_all [State.inTooLong, State.capTooLong, emit_ok]

theorem decryptBody_ok (p : Params) (s t : State) : decryptBody p s = .ok t ↔
    s.conn = true ∧ s.inLen.toNat ≤ p.bufBytes ∧ s.outCap.toNat ≤ p.bufBytes ∧
    ∃ q, decryptBytes p s.key s.iv s.input = .ok q ∧ q.length ≤ s.outCap.toNat ∧ t = s.writeOut q := by
  unfold decryptBody
  split
  · simp_all
  · split
    · simp_all [State.inTooLong, State.capTooLong]; omega
    · simp_all [State.inTooLong, State.capTooLong, emitPlain_ok]

theorem macBody_ok (p : Params) (s t : State) : macBody p s = .ok t ↔
    s.conn = true ∧ s.inLen.toNat ≤ p.bufBytes ∧ 32 ≤ s.inLen.toNat ∧
    t = s.setDigest (frameCksum p s s.input) := by
  unfold macBody
  repeat' split
  all_goals simp_all [State.inTooLong]
  all_goals first | omega | exact eq_comm

theorem encFrameBody_ok (p : Params) (s t : State) : encFrameBody p s = .ok t ↔
    s.conn = true ∧ s.inLen.toNat ≤ p.bufBytes ∧ s.outCap.toNat ≤ p.bufBytes ∧ s.hsValid = true ∧
    32 + s.inLen.toNat ≤ s.outCap.toNat ∧
    t = ((s.writeOut (frameOf p s s.input)).setDigest (bodyCksum p s s.input)).consumeHandshake := by
  unfold encFrameBody
  repeat' split
  all_goals simp_all [State.inTooLong, State.capTooLong, emitFrame_ok]
  all_goals omega

theorem decHdrBody_ok (p : Params) (s t : State) : decHdrBody p s = .ok t ↔
    s.conn = true ∧ s.inLen.toNat ≤ p.bufBytes ∧ 32 ≤ s.inLen.toNat ∧ t = s.latchHeader s.input := by
  unfold decHdrBody
  repeat' split
  all_goals simp_all [State.inTooLong]
  all_goals first | omega | exact eq_comm

theorem decHdrVBody_ok (p : Params) (s t : State) : decHdrVBody p s = .ok t ↔
    s.conn = true ∧ s.inLen.toNat ≤ p.bufBytes ∧ 32 ≤ s.inLen.toNat ∧
    be128 (frameCksum p s s.input) = slice s.input 16 32 ∧
    t = (s.latchHeader s.input).setDigest (frameCksum p s s.input) := by
  unfold decHdrVBody
  repeat' split
  all_goals simp_all [State.inTooLong]
  all_goals first | omega | exact eq_comm

theorem parseHelloBody_ok (p : Params) (s t : State) : parseHelloBody p s = .ok t ↔
    s.conn = true ∧ s.inLen.toNat ≤ p.bufBytes ∧ s.inLen.toNat = 32 ∧
    t = s.storeHandshake (rd32 s.input 8) (rd32 s.input 12) := by
  unfold parseHelloBody
  repeat' split
  all_goals simp_all [State.inTooLong]
  all_goals first | omega | exact eq_comm

theorem probeBody_ok (p : Params) (s t : State) : probeBody p s = .ok t ↔
    s.conn = true ∧ s.outCap.toNat ≤ p.bufBytes ∧ 32 ≤ s.outCap.toNat ∧
    t = (s.writeOut probeBytes).setHsValid false := by
  unfold probeBody
  repeat' split
  all_goals simp_all [State.capTooLong]
  all_goals first | omega | exact eq_comm

theorem sealBody_ok (p : Params) (s t : State) : sealBody p s = .ok t ↔
    s.conn = true ∧ s.inLen.toNat ≤ p.bufBytes ∧ s.outCap.toNat ≤ p.bufBytes ∧ s.hsValid = true ∧
    32 + (encryptBytes p s.key s.iv s.input).length ≤ s.outCap.toNat ∧
    t = ((s.writeOut (frameOf p s (encryptBytes p s.key s.iv s.input))).setDigest
      (bodyCksum p s (encryptBytes p s.key s.iv s.input))).consumeHandshake := by
  unfold sealBody
  repeat' split
  all_goals simp_all [State.inTooLong, State.capTooLong, emitFrame_ok]
  all_goals omega

theorem openBody_ok (p : Params) (s t : State) : openBody p s = .ok t ↔
    s.conn = true ∧ s.inLen.toNat ≤ p.bufBytes ∧ s.outCap.toNat ≤ p.bufBytes ∧ 32 ≤ s.inLen.toNat ∧
    ∃ q, decryptBytes p s.key s.iv (slice s.input 32 s.inLen.toNat) = .ok q ∧ q.length ≤ s.outCap.toNat ∧
      t = (s.writeOut q).latchHeader s.input := by
  unfold openBody
  split
  · simp_all
  split
  · simp_all [State.inTooLong, State.capTooLong]; omega
  split
  · simp; omega
  · split
    · rename_i e he
      have := (emitPlain_error _ _ _ _).1 he
      simp only [reduceCtorEq, false_iff]
      rintro ⟨-, -, -, -, q, hq, hl, -⟩
      rcases this with h | ⟨q', h, h', -⟩ <;> rw [hq] at h <;> cases h
      omega
    · rename_i u hu
      obtain ⟨q, hq, hl, rfl⟩ := (emitPlain_ok _ _ _ _).1 hu
      simp_all [State.inTooLong, State.capTooLong]
      exact eq_comm

theorem openVBody_ok (p : Params) (s t : State) : openVBody p s = .ok t ↔
    s.conn = true ∧ s.inLen.toNat ≤ p.bufBytes ∧ s.outCap.toNat ≤ p.bufBytes ∧ 32 ≤ s.inLen.toNat ∧
    be128 (frameCksum p s s.input) = slice s.input 16 32 ∧
    ∃ q, decryptBytes p s.key s.iv (slice s.input 32 s.inLen.toNat) = .ok q ∧ q.length ≤ s.outCap.toNat ∧
      t = ((s.writeOut q).latchHeader s.input).setDigest (frameCksum p s s.input) := by
  unfold openVBody
  split
  · simp_all
  split
  · simp_all [State.inTooLong, State.capTooLong]; omega
  split
  · simp; omega
  split
  · simp_all
  · split
    · rename_i e he
      have := (emitPlain_error _ _ _ _).1 he
      simp only [reduceCtorEq, false_iff]
      rintro ⟨-, -, -, -, -, q, hq, hl, -⟩
      rcases this with h | ⟨q', h, h', -⟩ <;> rw [hq] at h <;> cases h
      omega
    · rename_i u hu
      obtain ⟨q, hq, hl, rfl⟩ := (emitPlain_ok _ _ _ _).1 hu
      simp_all [State.inTooLong, State.capTooLong]
      exact eq_comm

end Sys2Proof.Machine
end

