-- ==== Sys2Proof/Laws/PerInstr.lean ====
section
/-! SUPPORT. The family Encoding: what is said of every command as syntax, one lemma per constructor. -/

namespace Sys2Proof.Laws.Encoding

/-- The fields of the command's word are legal, the word is legal (R123), and the decoder reads the command back from
the word and from its bytes (R120 to R122). -/
def Statement (i : Instr) : Prop :=
  (instrFields i).wellFormed = true ∧ legalWord (encode i) = true ∧ decode (encode i) = .ok i ∧
    decodeBytes (encodeBytes i) = .ok (i, [])

theorem derive : Statement .derive := ⟨rfl, rfl, rfl, rfl⟩
theorem close : Statement .close := ⟨rfl, rfl, rfl, rfl⟩
theorem encrypt : Statement .encrypt := ⟨rfl, rfl, rfl, rfl⟩
theorem decrypt : Statement .decrypt := ⟨rfl, rfl, rfl, rfl⟩
theorem mac : Statement .mac := ⟨rfl, rfl, rfl, rfl⟩
theorem encFrame : Statement .encFrame := ⟨rfl, rfl, rfl, rfl⟩
theorem decHdr : Statement .decHdr := ⟨rfl, rfl, rfl, rfl⟩
theorem decHdrV : Statement .decHdrV := ⟨rfl, rfl, rfl, rfl⟩
theorem parseHello : Statement .parseHello := ⟨rfl, rfl, rfl, rfl⟩
theorem probe : Statement .probe := ⟨rfl, rfl, rfl, rfl⟩
theorem sealFrame : Statement .sealFrame := ⟨rfl, rfl, rfl, rfl⟩
theorem openFrame : Statement .openFrame := ⟨rfl, rfl, rfl, rfl⟩
theorem openFrameV : Statement .openFrameV := ⟨rfl, rfl, rfl, rfl⟩

end Sys2Proof.Laws.Encoding
end

