-- ==== Sys2Proof/Laws/Step.lean ====
section
/-! SUPPORT. What a step can do, said once; and what no command changes. -/

namespace Sys2Proof.Machine

/-- A command that succeeds leaves the control register, the flags of the bus, the host's registers, IN and the host's
side of the state alone (R125, R335). -/
theorem bodyOf_ok_frame {p : Params} {i : Instr} {s t : State} (h : bodyOf p i s = .ok t) :
    t.irqEn = s.irqEn ∧ t.hsOneshot = s.hsOneshot ∧ t.busy = s.busy ∧ t.done = s.done ∧ t.err = s.err ∧
    t.cmdOvr = s.cmdOvr ∧ t.busyWr = s.busyWr ∧ t.cmdLatch = s.cmdLatch ∧ t.inLen = s.inLen ∧ t.outCap = s.outCap ∧
    t.inBuf = s.inBuf ∧ t.events = s.events ∧ t.replies = s.replies ∧ t.draws = s.draws := by
  cases i with
  | derive => obtain ⟨-, rfl⟩ := (deriveBody_ok _ _ _).1 h; simp
  | close => obtain ⟨-, rfl⟩ := (closeBody_ok _ _).1 h; simp
  | encrypt => obtain ⟨-, -, -, -, rfl⟩ := (encryptBody_ok _ _ _).1 h; simp
  | decrypt => obtain ⟨-, -, -, q, -, -, rfl⟩ := (decryptBody_ok _ _ _).1 h; simp
  | mac => obtain ⟨-, -, -, rfl⟩ := (macBody_ok _ _ _).1 h; simp
  | encFrame => obtain ⟨-, -, -, -, -, rfl⟩ := (encFrameBody_ok _ _ _).1 h; simp
  | decHdr => obtain ⟨-, -, -, rfl⟩ := (decHdrBody_ok _ _ _).1 h; simp
  | decHdrV => obtain ⟨-, -, -, -, rfl⟩ := (decHdrVBody_ok _ _ _).1 h; simp
  | parseHello => obtain ⟨-, -, -, rfl⟩ := (parseHelloBody_ok _ _ _).1 h; simp
  | probe => obtain ⟨-, -, -, rfl⟩ := (probeBody_ok _ _ _).1 h; simp
  | sealFrame => obtain ⟨-, -, -, -, -, rfl⟩ := (sealBody_ok _ _ _).1 h; simp
  | openFrame => obtain ⟨-, -, -, -, q, -, -, rfl⟩ := (openBody_ok _ _ _).1 h; simp
  | openFrameV => obtain ⟨-, -, -, -, -, q, -, -, rfl⟩ := (openVBody_ok _ _ _).1 h; simp

/-- The ways a step that answers a next state can have gone (R331). -/
theorem step_cases {s t : State} (h : step s = .next t) :
    (s.busy = false ∧ s.events = [] ∧ t = s) ∨
    (∃ rest, s.busy = false ∧ s.events = .complete :: rest ∧ t = s.setEvents rest) ∨
    (∃ rest, s.events = .reset :: rest ∧ t = (s.setEvents rest).resetBlock) ∨
    (∃ off size rest, s.events = .read off size :: rest ∧
      t = (s.setEvents rest).addReply (busRead hw s off size)) ∨
    (∃ off size d rest, s.events = .write off size d :: rest ∧
      t = ((busWrite hw s off size d).1.setEvents rest).addReply (busWrite hw s off size d).2) ∨
    (∃ rest i, s.CompletesNext rest ∧ decode s.cmdLatch = .ok i ∧ exec i (s.setEvents rest) = .next t) ∨
    (∃ rest e, s.CompletesNext rest ∧ decode s.cmdLatch = .error e ∧
      t = (s.setEvents rest).finish s.cmdLatch 0x4F) := by
  have run : ∀ rest, s.CompletesNext rest →
      (match (s.setEvents rest).fetch with
        | .ok i => exec i (s.setEvents rest)
        | .error _ => completeIllegal (s.setEvents rest)) = .next t →
      (∃ rest i, s.CompletesNext rest ∧ decode s.cmdLatch = .ok i ∧ exec i (s.setEvents rest) = .next t) ∨
      (∃ rest e, s.CompletesNext rest ∧ decode s.cmdLatch = .error e ∧
        t = (s.setEvents rest).finish s.cmdLatch 0x4F) := by
    intro rest hc h
    simp only [State.fetch, State.setEvents_cmdLatch] at h
    cases hd : decode s.cmdLatch with
    | ok i => rw [hd] at h; exact .inl ⟨rest, i, hc, rfl, h⟩
    | error e =>
      rw [hd] at h
      injection h with h
      exact .inr ⟨rest, e, hc, rfl, h.symm⟩
  unfold step nextTurn at h
  cases he : s.events with
  | nil =>
    rw [he] at h
    simp only [State.engineTurn] at h
    cases hb : s.busy with
    | false => simp [hb] at h; exact .inl ⟨rfl, rfl, h.symm⟩
    | true =>
      simp only [hb, if_true] at h
      have hs : s.setEvents [] = s := by rw [← he]; rfl
      rcases run [] ⟨hb, .inr ⟨he, rfl⟩⟩ (by rw [hs]; exact h) with r | r
      · exact .inr (.inr (.inr (.inr (.inr (.inl r)))))
      · exact .inr (.inr (.inr (.inr (.inr (.inr r)))))
  | cons ev rest =>
    rw [he] at h
    cases ev with
    | read off size =>
      injection h with h
      exact .inr (.inr (.inr (.inl ⟨off, size, rest, rfl, h.symm⟩)))
    | write off size d =>
      injection h with h
      exact .inr (.inr (.inr (.inr (.inl ⟨off, size, d, rest, rfl, h.symm⟩))))
    | reset =>
      injection h with h
      exact .inr (.inr (.inl ⟨rest, rfl, h.symm⟩))
    | complete =>
      simp only [State.engineTurn, State.setEvents_busy] at h
      cases hb : s.busy with
      | false =>
        simp [hb] at h
        exact .inr (.inl ⟨rest, rfl, rfl, h.symm⟩)
      | true =>
        simp only [hb, if_true] at h
        rcases run rest ⟨hb, .inl he⟩ h with r | r
        · exact .inr (.inr (.inr (.inr (.inr (.inl r)))))
        · exact .inr (.inr (.inr (.inr (.inr (.inr r)))))

/-- The step of a completion: the command in flight, or the report of an illegal word (R335). -/
theorem step_of_completesNext {s : State} {rest : List Event} (h : s.CompletesNext rest) :
    step s = match decode s.cmdLatch with
      | .ok i => exec i (s.setEvents rest)
      | .error _ => completeIllegal (s.setEvents rest) := by
  have e : nextTurn hw s = .run (s.setEvents rest) := by
    obtain ⟨hb, he | ⟨he, rfl⟩⟩ := h
    · simp [nextTurn, he, State.engineTurn, hb]
    · rw [show s.setEvents [] = s by rw [← he]; rfl]
      simp [nextTurn, he, State.engineTurn, hb]
  unfold step
  rw [e]
  rfl

/-- A string written at the start of OUT is delivered (R40, R92). -/
theorem delivers_of_write {s t : State} {out : Bytes} (hl : out.length < 65536) (hb : t.outBuf = s.outBuf.write 0 out)
    (hn : t.outLen = BitVec.ofNat 16 out.length) : Delivers s t out := by
  refine ⟨?_, memRead_write_output t _ _ hb, fun a ha => ?_⟩
  · rw [hn, BitVec.toNat_ofNat]; omega
  · rw [hb]; exact lookup_write_outside _ _ _ _ (by omega)

/-- The strict check accepts exactly the padded strings (R153, R154). -/
theorem unpad_strict_iff (q x : Bytes) : unpad .strict q = .ok x ↔ Padded q x := by
  constructor
  · intro h
    unfold unpad at h
    split at h
    · cases h
    · dsimp only at h
      split at h
      · cases h
      · split at h
        · cases h
        · rename_i h0 h1 h2
          cases h
          generalize hn : (q.getD (q.length - 1) 0).toNat = n at *
          have h3 : q.drop (q.length - n) = List.replicate n (BitVec.ofNat 8 n) := by simpa using h2
          exact ⟨n, by omega, by omega, by rw [← h3, List.take_append_drop]⟩
  · rintro ⟨n, h1, h16, rfl⟩
    have hlast : (x ++ List.replicate n (BitVec.ofNat 8 n)).getD
        ((x ++ List.replicate n (BitVec.ofNat 8 n)).length - 1) 0 = BitVec.ofNat 8 n := by
      simp only [List.length_append, List.length_replicate]
      rw [List.getD_eq_getElem?_getD, List.getElem?_append_right (by omega), List.getElem?_replicate,
        if_pos (by omega)]
      rfl
    have hn : (BitVec.ofNat 8 n).toNat = n := by rw [BitVec.toNat_ofNat]; omega
    unfold unpad
    rw [if_neg (by simp; omega), hlast]
    simp only [hn]
    rw [if_neg (by omega), if_neg]
    · simp
    · simp

end Sys2Proof.Machine
end

