-- ==== Sys2Proof/Tests/Slice0.lean ====
section
/-! SUPPORT. Tests of the model against words and vectors of the spec, each about one step or less, and the witnesses:
for every statement with hypotheses a concrete state that meets them, clause by clause.  "V-x" is a vector of
95_test_vectors.md; no expected value here was taken from the model. -/

namespace Sys2Proof.Tests

set_option Elab.async false

open Sys2Proof.Machine

/-! ## Helpers -/

/-- A byte string written as words, as the spec writes it. -/
def bytesOf (l : List Word) : Bytes := l.flatMap be32

/-- The token T, its key and its iv (V-K1). -/
def tokT : Block := 0x00112233445566778899aabbccddeeff
def keyT : Block := 0x6e8311168ee16d6aa1aa48c64145003c
def ivT : Block := 0x6f434fa9acd75da73e5fb999f641cda2

/-- HELLO of section 1.1, the frame of V-E1, the frame of V-S4, RF of V-F3. -/
def hello : Bytes :=
  bytesOf [0x21310020, 0, 0x12345678, 0x00001a2b, 0xffffffff, 0xffffffff, 0xffffffff, 0xffffffff]
def emptyFrame : Bytes :=
  bytesOf [0x21310020, 0, 0x12345678, 0x00001a2b, 0x6b580a44, 0x8561fa77, 0xcf2c6460, 0x7fbf32e2]
def sealedEmpty : Bytes :=
  bytesOf [0x21310030, 0, 0x12345678, 0x00001a2b, 0x490b4110, 0x059129e7, 0xb18a20c3, 0x26a00c10,
    0x5419fbde, 0x6b2ec616, 0x1ec20f87, 0x72d0882b]
def frameRF : Bytes :=
  bytesOf [0x21310040, 0, 0x12345678, 0x00001a2c, 0x40842995, 0x1815a22e, 0x887c9347, 0x1eb0e7b2,
    0x95d444d9, 0x70e45e45, 0x3f755f03, 0x01fb09fd, 0x54a651c5, 0x3c7276a8, 0x9297333c, 0xde25f98b]

/-- S1 with `inp` in IN and capacity `cap`: the connection of T is open. -/
def opened (inp : Bytes) (cap : Half) : State :=
  { State.reset with
    conn := true, tok := tokT, key := keyT, iv := ivT, inLen := BitVec.ofNat 16 inp.length, outCap := cap,
    inBuf := cellsFrom 0 inp }

/-- S2 with `inp` in IN and capacity `cap`: the handshake result of HELLO is valid. -/
def greeted (inp : Bytes) (cap : Half) : State :=
  { opened inp cap with devid := 0x12345678, stamp := 0x00001a2b, hsValid := true }

/-- S0 after `LOADTOK T`. -/
def staged : State :=
  { State.reset with
    token0 := 0x00112233, token1 := 0x44556677, token2 := 0x8899aabb, token3 := 0xccddeeff, tokenWr := 0xf }

/-- The same with lengths alone: the lengths of the input and of the capacity, and nothing written. -/
def sized (len cap : Half) : State := { opened [] cap with inLen := len }

/-- A command in flight, its completion the next event. -/
def inFlight (s : State) (w : Word) : State := { s with busy := true, cmdLatch := w, events := [.complete] }

/-- What `f` says of the next state, if there is one. -/
def look {α : Type} (o : Host.Outcome State Fault Refusal) (f : State → α) : Option α :=
  match o with
  | .next t => some (f t)
  | .fault _ => none
  | .refused _ => none

/-- OUT[0:OUT_LEN]. -/
def outOf (t : State) : Bytes := t.memRead .output 0 t.outLen.toNat

/-! ## Ill-formed terms, one for each check -/

theorem test_wf_reserved_bit : Cmd32.wellFormed ⟨0x01, false, 1⟩ = false := by decide
theorem test_wf_opcode : Cmd32.wellFormed ⟨0x03, false, 0⟩ = false := by decide
theorem test_wf_verify : Cmd32.wellFormed ⟨0x20, true, 0⟩ = false := by decide
theorem test_wf_verify_ok : Cmd32.wellFormed ⟨0x22, true, 0⟩ = true := by decide
theorem test_wf_word_zero : legalWord 0x00000000 = false := by decide
theorem test_wf_word_reserved : legalWord 0x00000200 = false := by decide
theorem test_wf_word_verify : legalWord 0x00000101 = false := by decide
theorem test_wf_access_size : accessWellFormed 0x0004 2 = false := by decide
theorem test_wf_access_alignment : accessWellFormed 0x0006 4 = false := by decide
theorem test_wf_reserved_low : reservedOffset 4096 0x008C = true := by decide
theorem test_wf_reserved_beyond_in : reservedOffset 4096 0x5000 = true := by decide
theorem test_wf_reserved_beyond_out : reservedOffset 4096 0x9000 = true := by decide
theorem test_wf_reserved_top : reservedOffset 4096 0xC000 = true := by decide
theorem test_wf_read_only : readOnlyOffset 0x0000 = true ∧ readOnlyOffset 0x002C = false := by decide
theorem test_wf_input : inputOffset 4096 0x4FFC = true ∧ inputOffset 4096 0x5000 = false := by decide

/-- Parameters with these numbers, the primitives of no interest. -/
def paramsOf (base buf : Nat) : Params := ⟨base, buf, 0, 0, .strict, fun _ => 0, fun _ b => b, fun _ b => b⟩

theorem test_wf_base : (paramsOf 4 4096).wellFormed = false := by decide
theorem test_wf_buf_multiple : (paramsOf 0 72).wellFormed = false := by decide
theorem test_wf_buf_small : (paramsOf 0 48).wellFormed = false := by decide
theorem test_wf_buf_large : (paramsOf 0 16400).wellFormed = false := by decide
theorem test_wf_params_ok : (paramsOf 65536 64).wellFormed = true := by decide

/-! ## Decoding: words written out bit by bit from R120 and R122 (RSVD, V, OPC) -/

theorem test_decode_derive : decode 0b00000000000000000000000_0_00000001 = .ok .derive := by decide
theorem test_decode_close : decode 0b00000000000000000000000_0_00000010 = .ok .close := by decide
theorem test_decode_encrypt : decode 0b00000000000000000000000_0_00010000 = .ok .encrypt := by decide
theorem test_decode_decrypt : decode 0b00000000000000000000000_0_00010001 = .ok .decrypt := by decide
theorem test_decode_mac : decode 0b00000000000000000000000_0_00100000 = .ok .mac := by decide
theorem test_decode_encframe : decode 0b00000000000000000000000_0_00100001 = .ok .encFrame := by decide
theorem test_decode_dechdr : decode 0b00000000000000000000000_0_00100010 = .ok .decHdr := by decide
theorem test_decode_dechdr_v : decode 0b00000000000000000000000_1_00100010 = .ok .decHdrV := by decide
theorem test_decode_parsehello : decode 0b00000000000000000000000_0_00100011 = .ok .parseHello := by decide
theorem test_decode_probe : decode 0b00000000000000000000000_0_00110000 = .ok .probe := by decide
theorem test_decode_seal : decode 0b00000000000000000000000_0_01000000 = .ok .sealFrame := by decide
theorem test_decode_open : decode 0b00000000000000000000000_0_01000001 = .ok .openFrame := by decide
theorem test_decode_open_v : decode 0b00000000000000000000000_1_01000001 = .ok .openFrameV := by decide
theorem test_decode_reserved : decode 0x80000001 = .error .reservedBits := by decide
theorem test_decode_unknown : decode 0x00000142 = .error .unknownOpc := by decide
theorem test_decode_verify : decode 0x00000140 = .error .verifyNotAllowed := by decide
theorem test_decode_bytes : decodeBytes [0x00, 0x00, 0x01, 0x41, 0x07] = .ok (.openFrameV, [0x07]) := by decide
theorem test_decode_short : decodeBytes [0x00, 0x00, 0x01] = .error .tooShort := by decide
theorem test_decode_table : decodeTableWord 32 0x122 = some .decHdrV ∧ decodeTableWord 16 0x22 = some .decHdr := by
  decide

/-! ## Primitives: the published vectors of section 1.2 -/

theorem test_md5_abc : md5 [0x61, 0x62, 0x63] = 0x900150983cd24fb0d6963f7d28e17f72 := by decide +kernel
theorem test_aes_enc : aes128Enc 0x000102030405060708090a0b0c0d0e0f 0x00112233445566778899aabbccddeeff =
    0x69c4e0d86a7b0430d8cdb78070b4c55a := by decide +kernel
theorem test_aes_dec : aes128Dec 0x000102030405060708090a0b0c0d0e0f 0x69c4e0d86a7b0430d8cdb78070b4c55a =
    0x00112233445566778899aabbccddeeff := by decide +kernel
theorem test_pad_empty : pad [] = List.replicate 16 0x10 := by decide
theorem test_pad_aligned : (pad (List.replicate 16 0xAA)).length = 32 := by decide
theorem test_unpad_last_byte : unpad .lastByte [0, 0, 2] = .ok [0] ∧ unpad .strict [0, 0, 2] = .error .decPad := by
  decide

/-! ## Commands -/

/-- V-K1. -/
theorem test_derive : look (exec .derive staged) (fun t => (t.key, t.iv, t.resultWord, t.statusWord)) =
    some (keyT, ivT, 0x00000100, 0x00000102) := by decide +kernel
/-- V-K2. -/
theorem test_derive_incomplete : look (exec .derive { State.reset with tokenWr := 7 })
    (fun t => (t.resultWord, t.statusWord)) = some (0x00000111, 0x00007006) := by decide +kernel
/-- The example of R202. -/
theorem test_close : look (exec .close (greeted [] 16)) (fun t => (t.resultWord, t.statusWord, t.key, t.tok)) =
    some (0x00000200, 0x00000002, 0, 0) := by decide +kernel
theorem test_close_twice : look (exec .close State.reset) (fun t => t.resultWord) = some 0x00000241 := by
  decide +kernel
/-- V-C1a. -/
theorem test_encrypt_empty : look (exec .encrypt (opened [] 4096)) (fun t => (outOf t, t.resultWord)) =
    some (bytesOf [0x5419fbde, 0x6b2ec616, 0x1ec20f87, 0x72d0882b], 0x00001000) := by decide +kernel
/-- R220: one byte of capacity short. -/
theorem test_encrypt_capacity : look (exec .encrypt (sized 0 15)) (fun t => (t.resultWord, t.statusWord)) =
    some (0x00001043, 0x00000106) := by decide +kernel
/-- The inverse of V-C1a. -/
theorem test_decrypt_empty :
    look (exec .decrypt (opened (bytesOf [0x5419fbde, 0x6b2ec616, 0x1ec20f87, 0x72d0882b]) 0))
      (fun t => (t.resultWord, t.outLen)) = some (0x00001100, 0) := by decide +kernel
/-- The example of R221. -/
theorem test_decrypt_padding :
    look (exec .decrypt (opened (bytesOf [0x898febde, 0x9c9bfcc0, 0x0153d096, 0x667cd961]) 4096))
      (fun t => t.resultWord) = some 0x00001132 := by decide +kernel
/-- The checksum of V-E1. -/
theorem test_mac : look (exec .mac (opened emptyFrame 0)) (fun t => (t.digest, t.resultWord)) =
    some (0x6b580a448561fa77cf2c64607fbf32e2, 0x00002000) := by decide +kernel
theorem test_mac_short : look (exec .mac (opened (hello.take 31) 0)) (fun t => t.resultWord) = some 0x00002021 := by
  decide +kernel
/-- V-E1. -/
theorem test_encframe : look (exec .encFrame (greeted [] 4096)) (fun t => (outOf t, t.resultWord, t.statusWord)) =
    some (emptyFrame, 0x00002100, 0x00000102) := by decide +kernel
/-- V-E5. -/
theorem test_encframe_capacity : look (exec .encFrame (greeted [] 31)) (fun t => (t.resultWord, t.statusWord)) =
    some (0x00002143, 0x00000306) := by decide +kernel
/-- V-H1. -/
theorem test_dechdr : look (exec .decHdr (opened hello 0))
    (fun t => (t.rxMagic, t.rxTotlen, t.rxDevid, t.rxStamp, t.rxCksum)) =
    some (0x2131, 0x0020, 0x12345678, 0x00001a2b, 0xffffffffffffffffffffffffffffffff) := by decide +kernel
/-- V-H4. -/
theorem test_dechdr_short : look (exec .decHdr (opened (hello.take 31) 0)) (fun t => t.resultWord) =
    some 0x00002221 := by decide +kernel
/-- V-H6 with an empty body: the frame of V-E1 verifies. -/
theorem test_dechdr_v : look (exec .decHdrV (opened emptyFrame 0)) (fun t => (t.resultWord, t.digest, t.rxStamp)) =
    some (0x00012200, 0x6b580a448561fa77cf2c64607fbf32e2, 0x00001a2b) := by decide +kernel
/-- V-H5. -/
theorem test_dechdr_v_mismatch : look (exec .decHdrV (opened hello 0)) (fun t => (t.resultWord, t.rxMagic)) =
    some (0x00012223, 0) := by decide +kernel
/-- V-P1. -/
theorem test_parsehello : look (exec .parseHello (opened hello 0)) (fun t => (t.devid, t.stamp, t.statusWord)) =
    some (0x12345678, 0x00001a2b, 0x00000302) := by decide +kernel
/-- R262, R263. -/
theorem test_parsehello_length : look (exec .parseHello (greeted (hello.take 31) 0))
    (fun t => (t.resultWord, t.statusWord, t.devid)) = some (0x00002322, 0x00000106, 0x12345678) := by decide +kernel
/-- V-R1. -/
theorem test_probe : look (exec .probe { greeted [] 4096 with inLen := 0xFFFF })
    (fun t => (outOf t, t.resultWord, t.statusWord)) =
    some (bytesOf [0x21310020, 0xffffffff, 0xffffffff, 0xffffffff, 0xffffffff, 0xffffffff, 0xffffffff, 0xffffffff],
      0x00003000, 0x00000102) := by decide +kernel
/-- V-R2. -/
theorem test_probe_capacity : look (exec .probe (sized 0 31)) (fun t => t.resultWord) = some 0x00003043 := by
  decide +kernel
/-- V-S4. -/
theorem test_seal : look (exec .sealFrame (greeted [] 4096)) (fun t => (outOf t, t.resultWord, t.statusWord)) =
    some (sealedEmpty, 0x00004000, 0x00000102) := by decide +kernel
/-- R303. -/
theorem test_seal_no_handshake : look (exec .sealFrame (opened [] 4096)) (fun t => (t.resultWord, t.statusWord)) =
    some (0x00004042, 0x00000106) := by decide +kernel
/-- The example of R301: RF opens to the 24 bytes of R. -/
theorem test_open : look (exec .openFrame (opened frameRF 24)) (fun t => (outOf t, t.resultWord, t.rxStamp)) =
    some (bytesOf [0x7b226964, 0x223a312c, 0x22726573, 0x756c7422, 0x3a5b226f, 0x6b225d7d], 0x00004100,
      0x00001a2c) := by decide +kernel
/-- R301: a header without a body has no padding. -/
theorem test_open_no_body : look (exec .openFrame (opened hello 64)) (fun t => (t.resultWord, t.rxMagic)) =
    some (0x00004132, 0) := by decide +kernel
/-- The frame of V-S4 verifies and opens to the empty plaintext. -/
theorem test_open_v : look (exec .openFrameV (opened sealedEmpty 0)) (fun t => (t.resultWord, t.outLen, t.digest)) =
    some (0x00014100, 0, 0x490b4110059129e7b18a20c326a00c10) := by decide +kernel
/-- The example of R302: one bit of the checksum changed. -/
theorem test_open_v_mismatch : look (exec .openFrameV (opened (frameRF.set 31 0xb3) 64)) (fun t => t.resultWord) =
    some 0x00014123 := by decide +kernel

/-! ## Steps and the bus -/

/-- R335: an illegal word reports 0x4F and bits of its own. -/
theorem test_step_illegal : look (step (inFlight (opened [] 0) 0x00000200)) (fun t => (t.resultWord, t.statusWord)) =
    some (0x0000004F, 0x00000106) := by decide +kernel
/-- R331: without an event and without a command in flight nothing happens. -/
theorem test_step_idle : look (step State.reset) (fun t => t) = some State.reset := by decide +kernel
theorem test_fetch_word : look (step (State.reset.withFetchWord 32 0x30)) (fun t => (t.resultWord, t.events)) =
    some (0x00003041, []) := by decide +kernel
/-- R382. -/
theorem test_step_reset : look (step { inFlight staged 0x00000001 with events := [.reset] })
    (fun t => (t.statusWord, t.resultWord, t.token0)) = some (0, 0, 0) := by decide +kernel

/-- V-B1, V-B2, V-B3, V-B6, V-B7. -/
theorem test_bus_reads : busRead hw State.reset 0x0000 4 = .data 0x4D434531 ∧
    busRead hw State.reset 0x008C 4 = .busErr ∧ busRead hw State.reset 0x0001 4 = .busErr ∧
    busRead hw staged 0x0020 4 = .data 0 ∧ busRead hw State.reset 0x5000 4 = .busErr ∧
    busRead hw State.reset 0xC000 4 = .busErr := by decide +kernel
/-- V-B4, V-B5. -/
theorem test_bus_refused_writes : busWrite hw State.reset 0x0000 4 1 = (State.reset, .busErr) ∧
    busWrite hw State.reset 0x8000 4 1 = (State.reset, .busErr) := by decide +kernel
/-- V-B9. -/
theorem test_bus_issue : busRead hw (busWrite hw staged 0x000C 4 0x00000001).1 0x0008 4 = .data 0x0000F001 := by
  decide +kernel
/-- V-B10: a dropped command, a dropped length. -/
theorem test_bus_overrun :
    (busWrite hw (inFlight staged 1) 0x000C 4 0x00000010).1.statusWord = 0x0000F009 ∧
    (busWrite hw (inFlight staged 1) 0x0014 4 7).1.statusWord = 0x0000F011 ∧
    (busWrite hw (inFlight staged 1) 0x0014 4 7).1.inLen = 0 := by decide +kernel
/-- R88, R90: the byte order of the IN window. -/
theorem test_bus_byte_order : (busWrite hw State.reset 0x4004 4 0xAABBCCDD).1.inBuf =
    [(4, 0xAA), (5, 0xBB), (6, 0xCC), (7, 0xDD)] := by decide +kernel
/-- The last word of each window. -/
theorem test_bus_window_ends : busTarget hw 0x4FFC 4 = some (.inAt 4092) ∧
    busTarget hw 0x8FFC 4 = some (.outAt 4092) := by decide +kernel
/-- R80: offsets of the block's 64 KiB and one beyond. -/
theorem test_bus_offset : offsetOf (paramsOf 65536 64) 65540 = some 4 ∧ offsetOf (paramsOf 65536 64) 131072 = none ∧
    busAddress (paramsOf 65536 64) 4 = 65540 := by decide +kernel
/-- V-B13, V-B14. -/
theorem test_irq : ({ State.reset with done := true, irqEn := true } : State).irq = true ∧
    (busWrite hw { State.reset with done := true, irqEn := true } 0x0008 4 2).1.irq = false := by decide +kernel

/-! ## The host notation (R131, R132) -/

theorem test_line_loadin : lineEvents hw 0 (.loadIn [1, 2, 3, 4, 5]) =
    some [.write 0x4000 4 0x01020304, .write 0x4004 4 0x05000000, .write 0x0014 4 5] := by decide +kernel
theorem test_line_loadin_empty : lineEvents hw 0 (.loadIn []) = some [.write 0x0014 4 0] := by decide +kernel
theorem test_line_loadtok : lineEvents hw 0 (.loadTok tokT) =
    some [.write 0x0020 4 0x00112233, .write 0x0024 4 0x44556677, .write 0x0028 4 0x8899aabb,
      .write 0x002C 4 0xccddeeff] := by decide +kernel
theorem test_line_run : lineEvents hw 1 (.run .openFrameV) =
    some [.write 0x000C 4 0x00000141, .read 0x0008 4, .complete, .read 0x0008 4] := by decide +kernel
theorem test_line_ack : lineEvents hw 0 .ack = some [.write 0x0008 4 0x0000001E] := by decide +kernel
theorem test_line_out : lineEvents hw 0 (.rd (.outAt 28) none) = some [.read 0x801C 4] := by decide +kernel
/-- U19, R387: a datagram of `BUF_BYTES` bytes is loaded, one of a byte more is not and the sequence has no events. -/
theorem test_line_fits : canRun hw (.loadIn (List.replicate Config.bufBytes 0)) = true :=
  canRun_loadIn_eq_true (by
    rw [List.length_replicate]
    exact Nat.le_refl Config.bufBytes)
theorem test_line_too_long : programEvents hw 0 (readLines (List.replicate (Config.bufBytes + 1) 0) 64 true) = none :=
  programEvents_eq_none (List.mem_cons_self ..) (canRun_loadIn_eq_false (by
    rw [List.length_replicate]
    exact Nat.lt_succ_self Config.bufBytes))
theorem test_line_target : canRun hw (.rd (.inAt 0xC000) none) = false ∧ canRun hw (.wr (.inAt 6) 0) = false ∧
    canRun hw (.rd (.outAt 0x8000) none) = false ∧ canRun hw (.rd (.outAt 0x7FFC) none) = true := by decide +kernel
theorem test_mnemonics : mnemonicOf .openFrameV = "OPEN.V" ∧ mnemonicOf .decHdrV = "DECHDR.V" := by decide

/-! ## Witnesses

Each theorem shows states and operands that meet the hypotheses of the statement it names, clause by clause, at the
boundaries of the clauses. -/

/-- A next state, from what was seen of it. -/
theorem next_of_look {α : Type} {o : Host.Outcome State Fault Refusal} {f : State → α} {v : α}
    (h : look o f = some v) : ∃ t, o = .next t ∧ f t = v := by
  cases o with
  | next t => exact ⟨t, rfl, Option.some.inj h⟩
  | fault r => cases h
  | refused r => cases h

theorem witness_completes_next :
    (inFlight (opened [] 0) 0x30).CompletesNext [] ∧ decode (inFlight (opened [] 0) 0x30).cmdLatch = .ok .probe :=
  ⟨⟨rfl, .inl rfl⟩, by decide⟩
theorem witness_completes_run_out : ({ inFlight (opened [] 0) 0x30 with events := [] } : State).CompletesNext [] :=
  ⟨rfl, .inr ⟨rfl, rfl⟩⟩
theorem witness_illegal_word : State.reset.busy = false ∧ (inFlight (opened [] 0) 0x100).CompletesNext [] ∧
    legalWord (inFlight (opened [] 0) 0x100).cmdLatch = false := ⟨rfl, ⟨rfl, .inl rfl⟩, by decide⟩
theorem witness_bus_read : ({ staged with events := [.read 0x0008 4, .read 0x0008 4] } : State).events =
    .read 0x0008 4 :: [.read 0x0008 4] := rfl
theorem witness_bus_write_ok : ({ staged with events := [.write 0x0004 4 3] } : State).events = [.write 0x0004 4 3] ∧
    (busWrite hw { staged with events := [.write 0x0004 4 3] } 0x0004 4 3).2 = .ok := by decide +kernel
theorem witness_bus_write_error :
    (busWrite hw { staged with events := [.write 0x0004 1 3] } 0x0004 1 3).2 = .busErr := by decide +kernel
theorem witness_busy_offsets : (inFlight staged 1).busy = true ∧
    inputOffset hw.bufBytes 0x0004 = true ∧ inputOffset hw.bufBytes 0x0014 = true ∧
    inputOffset hw.bufBytes 0x0018 = true ∧ inputOffset hw.bufBytes 0x0020 = true ∧
    inputOffset hw.bufBytes 0x002C = true ∧ inputOffset hw.bufBytes 0x4000 = true ∧
    inputOffset hw.bufBytes 0x4FFC = true ∧ inputOffset hw.bufBytes 0x0008 = false ∧
    inputOffset hw.bufBytes 0x000C = false ∧ readOnlyOffset 0x0030 = true ∧ readOnlyOffset 0x0088 = true ∧
    readOnlyOffset 0x8000 = true := by decide +kernel
theorem witness_frozen : ∃ t, step { inFlight staged 1 with events := [.write 0x0020 4 9] } = .next t ∧
    t.statusWord = 0x0000F011 ∧ t.token0 = 0x00112233 := by
  obtain ⟨t, h, e⟩ := next_of_look (f := fun t => (t.statusWord, t.token0)) (v := (0x0000F011, 0x00112233))
    (show look (step { inFlight staged 1 with events := [.write 0x0020 4 9] }) _ = _ by decide +kernel)
  exact ⟨t, h, (Prod.mk.inj e).1, (Prod.mk.inj e).2⟩
theorem witness_host_waits : ({ inFlight staged 1 with events := [.write 0x0008 4 2] } : State).HostWaits ∧
    ∃ t, step { inFlight staged 1 with events := [.write 0x0008 4 2] } = .next t ∧ t.cmdOvr = false := by
  constructor
  · intro off size d rest h _
    injection h with h _
    injection h with h _ _
    subst h
    decide +kernel
  · exact next_of_look (show look (step { inFlight staged 1 with events := [.write 0x0008 4 2] }) (·.cmdOvr) = _ by
      decide +kernel)
theorem witness_token_offsets : (0x0020 : BitVec 16).toNat = 0x0020 + 4 * (0 : Fin 4).val ∧
    (0x002C : BitVec 16).toNat = 0x0020 + 4 * (3 : Fin 4).val ∧ staged.busy = false := by decide
theorem witness_windows : 0 < hw.bufBytes ∧ 4092 < hw.bufBytes ∧ 4092 % 4 = 0 ∧
    (0x4FFC : BitVec 16).toNat = 0x4000 + 4092 ∧ (0x8FFC : BitVec 16).toNat = 0x8000 + 4092 := by decide +kernel
theorem witness_packing : (0x003C : BitVec 16).toNat = 0x0030 + 4 * (3 : Fin 4).val ∧
    (0x0040 : BitVec 16).toNat = 0x0040 + 4 * (0 : Fin 4).val ∧
    (0x0074 : BitVec 16).toNat = 0x0068 + 4 * (3 : Fin 4).val ∧
    (0x0084 : BitVec 16).toNat = 0x0078 + 4 * (3 : Fin 4).val := by decide
theorem witness_interrupt : (∃ t, exec .probe { opened [] 4096 with irqEn := true } = .next t ∧ t.irq = true) ∧
    ({ inFlight staged 0x200 with irqEn := true } : State).CompletesNext [] ∧
    staged.busy = false ∧ (2 : Word).getLsbD 1 = true ∧
    interruptInput hw { State.reset with irqEn := true, done := true } hw.irqLine = true := by
  refine ⟨next_of_look (show look (exec .probe { opened [] 4096 with irqEn := true }) State.irq = _ by decide +kernel),
    ⟨rfl, .inl rfl⟩, rfl, by decide, ?_⟩
  simp [interruptInput, State.irq]
theorem witness_reset_range : 0x0020 ≤ (0x0020 : BitVec 16).toNat ∧ (0x0084 : BitVec 16).toNat ≤ 0x0084 ∧
    (0x0084 : BitVec 16).toNat % 4 = 0 := by decide
theorem witness_reset_event : ({ inFlight staged 1 with events := [.reset] } : State).events = .reset :: [] := rfl

theorem witness_derive : State.reset.tokenWr ≠ 0b1111 ∧ staged.tokenWr = 0b1111 := by decide
theorem witness_derive_twice : staged.tokenWr = 0b1111 ∧ ({ opened [] 0 with
    token0 := 0x00112233, token1 := 0x44556677, token2 := 0x8899aabb, token3 := 0xccddeeff,
    tokenWr := 0xf } : State).stagedToken = staged.stagedToken := by decide
theorem witness_closed : State.reset.conn = false ∧ (opened [] 0).conn = true ∧ Instr.close ≠ .derive := by decide

theorem witness_closed_until_derive : (inFlight staged 1).conn = false ∧
    ∃ t, step (inFlight staged 1) = .next t ∧ t.conn = true :=
  ⟨rfl, next_of_look (show look (step (inFlight staged 1)) (·.conn) = _ by decide +kernel)⟩

/-- The length bounds: 4096 fits and 4097 does not, for IN_LEN and for OUT_CAP. -/
theorem witness_lengths_fit : (sized 4096 4096).LengthsFit hw ∧ ¬ (sized 4097 0).LengthsFit hw ∧
    ¬ (sized 0 4097).LengthsFit hw := by
  unfold State.LengthsFit
  decide +kernel
theorem witness_encrypt_capacity : (sized 15 15).outCap.toNat < 16 * ((sized 15 15).inLen.toNat / 16 + 1) ∧
    16 * ((sized 15 16).inLen.toNat / 16 + 1) ≤ (sized 15 16).outCap.toNat ∧
    (sized 16 31).outCap.toNat < 16 * ((sized 16 31).inLen.toNat / 16 + 1) := by decide
theorem witness_decrypt_align : (sized 17 4096).inLen.toNat % 16 ≠ 0 ∧ (sized 17 4096).LengthsFit hw := by
  unfold State.LengthsFit
  decide +kernel

/-- The ciphertext of V-C1a in IN. -/
def cipherEmpty (cap : Half) : State := opened (bytesOf [0x5419fbde, 0x6b2ec616, 0x1ec20f87, 0x72d0882b]) cap
/-- The ciphertext of the example of R221, which decrypts to zero bytes. -/
def cipherZeros : State := opened (bytesOf [0x898febde, 0x9c9bfcc0, 0x0153d096, 0x667cd961]) 4096

theorem not_padded_of_error {s : Bytes} {e : ErrorCode} (h : unpad .strict s = .error e) (q : Bytes) :
    ¬ Padded s q := by
  rw [← unpad_strict_iff, h]
  simp

theorem witness_decrypt_padding : cipherZeros.conn = true ∧ cipherZeros.inLen.toNat % 16 = 0 ∧
    ∀ q, ¬ Padded (cbcDec hw cipherZeros.key cipherZeros.iv cipherZeros.input) q :=
  ⟨rfl, by decide, not_padded_of_error (e := .decPad) (by
    rw [show cbcDec hw cipherZeros.key cipherZeros.iv cipherZeros.input = List.replicate 16 0 by decide +kernel]
    decide)⟩
theorem witness_decrypt_nothing : ∀ q, ¬ Padded (cbcDec hw keyT ivT []) q :=
  not_padded_of_error (e := .decPad) (by decide +kernel)
theorem witness_decrypt_ok : (cipherEmpty 0).conn = true ∧ (cipherEmpty 0).inLen.toNat % 16 = 0 ∧
    Padded (cbcDec hw (cipherEmpty 0).key (cipherEmpty 0).iv (cipherEmpty 0).input) [] ∧
    ([] : Bytes).length ≤ (cipherEmpty 0).outCap.toNat := by
  refine ⟨rfl, by decide, ⟨16, by decide, by decide, ?_⟩, by decide⟩
  decide +kernel

theorem witness_first_block : 16 ≤ (List.replicate 16 (7 : Byte)).length ∧
    (List.replicate 16 (7 : Byte)).take 16 = (List.replicate 16 7 ++ [(1 : Byte)]).take 16 := by decide

/-- A cipher pair that keeps the law of R151, with a digest of no interest. -/
def xorParams : Params := ⟨0, 4096, 0, 0, .lastByte, fun s => rd128 s 0, fun k b => b ^^^ k, fun k b => b ^^^ k⟩

theorem witness_inverse : xorParams.Inverse := by
  intro k b
  simp [xorParams]

/-- A string that decrypts, and a state that hides another token and differs in nothing a bus read shows. -/
theorem witness_decrypts : decryptBytes xorParams 1 2 (encryptBytes xorParams 1 2 [5]) = .ok [5] := by decide +kernel
theorem witness_token_differs : ({ staged with tok := 1, token0 := 0 } : State) ≠ staged := by decide
theorem witness_no_handshake : (opened [] 4096).hsValid = false ∧ (greeted [] 4096).hsValid = true := by decide

/-- MAC, DECHDR, DECHDR.V, PARSEHELLO, OPEN: the boundaries of IN_LEN. -/
theorem witness_frame_lengths : hw.bufBytes < (sized 4097 0).inLen.toNat ∧ (sized 31 0).inLen.toNat < 32 ∧
    (opened hello 0).inLen.toNat ≤ hw.bufBytes ∧ 32 ≤ (opened hello 0).inLen.toNat ∧
    (opened hello 0).inLen.toNat = 32 ∧ (sized 33 0).inLen.toNat ≠ 32 ∧ (sized 33 0).inLen.toNat ≤ hw.bufBytes := by
  decide +kernel
theorem witness_encframe : (greeted [] 32).hsValid = true ∧ (opened [] 32).hsValid = false ∧
    (greeted [] 31).outCap.toNat < 32 + (greeted [] 31).inLen.toNat ∧
    32 + (greeted [] 32).inLen.toNat ≤ (greeted [] 32).outCap.toNat := by decide
theorem witness_frame_built : ∃ t, exec .encFrame (greeted [] 4096) = .next t ∧ t.resCode = 0 :=
  next_of_look (show look (exec .encFrame (greeted [] 4096)) (·.resCode) = _ by decide +kernel)
theorem witness_checksum : CksumMatches hw (opened emptyFrame 0) ∧ ¬ CksumMatches hw (opened hello 0) := by
  constructor
  · show _ = _
    decide +kernel
  · intro h
    revert h
    show _ = _ → False
    decide +kernel
theorem witness_frame_integrity : ∃ t, exec .encFrame (greeted [] 4096) = .next t ∧ t.resCode = 0 ∧
    (opened emptyFrame 0).conn = true ∧ (opened emptyFrame 0).tok = (greeted [] 4096).tok ∧
    (opened emptyFrame 0).inLen = t.outLen ∧ (opened emptyFrame 0).input = t.memRead .output 0 t.outLen.toNat := by
  obtain ⟨t, h, e⟩ := next_of_look (f := fun t => (t.resCode, t.outLen, outOf t)) (v := (0, 32, emptyFrame))
    (show look (exec .encFrame (greeted [] 4096)) _ = _ by decide +kernel)
  obtain ⟨e1, e⟩ := Prod.mk.inj e
  obtain ⟨e2, e3⟩ := Prod.mk.inj e
  exact ⟨t, h, e1, rfl, rfl, by rw [e2]; rfl, Eq.trans (by decide +kernel) e3.symm⟩
theorem witness_probe : hw.bufBytes < (sized 0 4097).outCap.toNat ∧ (sized 0 31).outCap.toNat < 32 ∧
    (sized 0 32).outCap.toNat ≤ hw.bufBytes ∧ 32 ≤ (sized 0 32).outCap.toNat := by decide +kernel
theorem witness_seal : (greeted [] 47).outCap.toNat < 32 + 16 * ((greeted [] 47).inLen.toNat / 16 + 1) ∧
    32 + 16 * ((greeted [] 48).inLen.toNat / 16 + 1) ≤ (greeted [] 48).outCap.toNat ∧
    (greeted [] 48).hsValid = true ∧ (opened [] 48).hsValid = false := by decide
/-- Log 23: with OUT_CAP = 4096 the frame of 4063 bytes fits and that of 4064 does not. -/
theorem witness_seal_largest : 32 + 16 * ((sized 4063 4096).inLen.toNat / 16 + 1) = (sized 4063 4096).outCap.toNat ∧
    (sized 4064 4096).outCap.toNat < 32 + 16 * ((sized 4064 4096).inLen.toNat / 16 + 1) ∧
    (sized 4064 4096).LengthsFit hw := by
  unfold State.LengthsFit
  decide +kernel

theorem witness_open_align : (sized 33 0).inLen.toNat % 16 ≠ 0 ∧ 32 ≤ (sized 33 0).inLen.toNat := by decide
theorem witness_open_no_body : (opened hello 0).inLen.toNat % 16 = 0 ∧
    ∀ q, ¬ Padded (cbcDec hw (opened hello 0).key (opened hello 0).iv
      (slice (opened hello 0).input 32 (opened hello 0).inLen.toNat)) q :=
  ⟨by decide, not_padded_of_error (e := .decPad) (by decide +kernel)⟩
theorem witness_open_ok : Padded (cbcDec hw (opened sealedEmpty 0).key (opened sealedEmpty 0).iv
      (slice (opened sealedEmpty 0).input 32 (opened sealedEmpty 0).inLen.toNat)) [] ∧
    CksumMatches hw (opened sealedEmpty 0) ∧ (opened sealedEmpty 0).inLen.toNat % 16 = 0 := by
  refine ⟨⟨16, by decide, by decide, ?_⟩, ?_, by decide⟩
  · decide +kernel
  · show _ = _
    decide +kernel
/-- A plaintext longer than the capacity: RF holds 24 bytes of it. -/
theorem witness_open_capacity : Padded (cbcDec hw (opened frameRF 23).key (opened frameRF 23).iv
      (slice (opened frameRF 23).input 32 (opened frameRF 23).inLen.toNat))
      (bytesOf [0x7b226964, 0x223a312c, 0x22726573, 0x756c7422, 0x3a5b226f, 0x6b225d7d]) ∧
    CksumMatches hw (opened frameRF 23) ∧ (opened frameRF 23).outCap.toNat < 24 := by
  refine ⟨⟨8, by decide, by decide, ?_⟩, ?_, by decide⟩
  · decide +kernel
  · show _ = _
    decide +kernel
/-- A frame whose checksum holds and whose body is one byte, for the alignment and the padding clause of OPEN.V. -/
theorem witness_open_v_no_body : CksumMatches hw (opened emptyFrame 0) ∧ 32 ≤ (opened emptyFrame 0).inLen.toNat ∧
    (opened emptyFrame 0).inLen.toNat % 16 = 0 ∧ ∀ q, ¬ Padded (cbcDec hw keyT ivT
      (slice (opened emptyFrame 0).input 32 (opened emptyFrame 0).inLen.toNat)) q :=
  ⟨witness_checksum.1, by decide, by decide, not_padded_of_error (e := .decPad) (by decide +kernel)⟩

theorem witness_seal_steps : ∃ t, exec .sealFrame (greeted [] 4096) = .next t ∧ t.resCode = 0 :=
  next_of_look (show look (exec .sealFrame (greeted [] 4096)) (·.resCode) = _ by decide +kernel)
/-- The block between ENCRYPT and ENCFRAME: the ciphertext of V-C1a copied to IN. -/
theorem witness_seal_copied : ∃ e, exec .encrypt (greeted [] 4096) = .next e ∧ e.resCode = 0 ∧
    (greeted (bytesOf [0x5419fbde, 0x6b2ec616, 0x1ec20f87, 0x72d0882b]) 4096).inLen = e.outLen ∧
    (greeted (bytesOf [0x5419fbde, 0x6b2ec616, 0x1ec20f87, 0x72d0882b]) 4096).input =
      e.memRead .output 0 e.outLen.toNat ∧ e.hsValid = true ∧ e.conn = true := by
  obtain ⟨t, h, e⟩ := next_of_look (f := fun t => (t.resCode, t.outLen, outOf t, t.hsValid, t.conn))
    (v := (0, 16, bytesOf [0x5419fbde, 0x6b2ec616, 0x1ec20f87, 0x72d0882b], true, true))
    (show look (exec .encrypt (greeted [] 4096)) _ = _ by decide +kernel)
  obtain ⟨e1, e⟩ := Prod.mk.inj e
  obtain ⟨e2, e⟩ := Prod.mk.inj e
  obtain ⟨e3, e⟩ := Prod.mk.inj e
  obtain ⟨e4, e5⟩ := Prod.mk.inj e
  exact ⟨t, h, e1, by rw [e2]; rfl, Eq.trans (by decide +kernel) e3.symm, e4, e5⟩
/-- Sealed with the pair of `xorParams`: the state after SEAL and a state of the receiver. -/
theorem witness_sealed_frame_opens : xorParams.Inverse ∧ ∃ t u : State, sealBody xorParams (greeted [5] 4096) = .ok t ∧
    u.conn = true ∧ u.tok = tokT ∧ u.key = keyT ∧ u.iv = ivT ∧ u.inLen = t.outLen ∧
    u.input = t.memRead .output 0 t.outLen.toNat ∧ u.outCap.toNat ≤ xorParams.bufBytes ∧ 1 ≤ u.outCap.toNat := by
  refine ⟨witness_inverse, ?_⟩
  cases h : sealBody xorParams (greeted [5] 4096) with
  | error e =>
    have hn : (match sealBody xorParams (greeted [5] 4096) with
      | .ok _ => true
      | .error _ => false) = true := by decide +kernel
    rw [h] at hn
    cases hn
  | ok t =>
    have hl : (match sealBody xorParams (greeted [5] 4096) with
      | .ok t => t.outLen == 48
      | .error _ => false) = true := by decide +kernel
    rw [h] at hl
    have hl : t.outLen = 48 := by simpa using hl
    refine ⟨t, opened (t.memRead .output 0 48) 1, rfl, rfl, rfl, rfl, rfl, ?_, ?_, show (1 : Nat) ≤ 4096 by decide, Nat.le_refl 1⟩
    · rw [hl]
      simp [opened]
    · rw [hl]
      apply List.ext_getElem
      · simp [opened]
      · intro i h1 h2
        have hi : i < 48 := by simpa using h2
        have hc := lookup_cellsFrom (t.memRead .output 0 48) 0 i
        simp only [Nat.zero_le, if_true, Nat.sub_zero] at hc
        rw [List.getElem?_eq_getElem (by simpa using hi)] at hc
        simp [State.input, State.memRead, State.readByte, State.buffer, opened] at hc ⊢
        rw [hc]
        simp

theorem witness_failure : ∃ t, exec .parseHello (greeted [] 0) = .next t ∧ t.resCode = 0x22 :=
  next_of_look (show look (exec .parseHello (greeted [] 0)) (·.resCode) = _ by decide +kernel)
theorem witness_output : writesOut .probe = true ∧ writesOut .mac = false ∧
    ∃ t, exec .probe (opened [] 32) = .next t ∧ t.resCode = 0 :=
  ⟨rfl, rfl, next_of_look (show look (exec .probe (opened [] 32)) (·.resCode) = _ by decide +kernel)⟩
theorem witness_handshake_rises : (inFlight (opened hello 0) 0x23).hsValid = false ∧
    ∃ t, step (inFlight (opened hello 0) 0x23) = .next t ∧ t.hsValid = true :=
  ⟨rfl, next_of_look (show look (step (inFlight (opened hello 0) 0x23)) (·.hsValid) = _ by decide +kernel)⟩
/-- Two states that differ in every field that is no input and above IN_LEN. -/
theorem witness_inputs_agree : InputsAgree (greeted [] 4096) { greeted [] 4096 with
    done := true, resCode := 1, outLen := 7, digest := 3, rxDevid := 9, inBuf := [(0, 1)], outBuf := [(5, 5)],
    draws := 8 } := by
  refine ⟨rfl, rfl, rfl, rfl, rfl, rfl, rfl, rfl, rfl, rfl, rfl, rfl, rfl, rfl, rfl, ?_⟩
  decide +kernel
theorem witness_conn_inv : (opened [] 0).ConnInv hw ∧ ∃ t, step (inFlight (opened [] 0) 0x02) = .next t ∧
    t.conn = false := by
  refine ⟨⟨fun h => (by cases h), fun _ => ⟨?_, ?_⟩⟩,
    next_of_look (show look (step (inFlight (opened [] 0) 0x02)) (·.conn) = _ by decide +kernel)⟩
  · decide +kernel
  · decide +kernel
theorem witness_buf_inv : ({ State.reset with inBuf := [(0, 1), (4095, 2)], outLen := 4096 } : State).BufInv hw := by
  unfold State.BufInv
  decide +kernel
theorem witness_code : State.reset.resCode ∈ allCodes := by decide

end Sys2Proof.Tests
end

section
/-! The parameters of this hardware (R5): one equation per parameter with a fixed value, and their legality. -/

namespace Sys2Proof.Machine

/-- R5's column of legal values, taken apart. -/
theorem params_wellFormed_iff (p : Params) :
    p.wellFormed = true ↔ 65536 ∣ p.base ∧ 16 ∣ p.bufBytes ∧ 64 ≤ p.bufBytes ∧ p.bufBytes ≤ 16384 := by
  simp [Params.wellFormed, Nat.dvd_iff_mod_eq_zero, and_assoc]

@[simp] theorem hw_bufBytes : hw.bufBytes = 4096 := rfl
@[simp] theorem hw_hdrRsvd : hw.hdrRsvd = 0x00000000 := rfl
@[simp] theorem hw_padCheck : hw.padCheck = .strict := rfl

/-- `BASE` is open, but it is a multiple of 64 KiB whatever page it stands in. -/
theorem hw_base_aligned : 65536 ∣ hw.base := Nat.dvd_mul_left 65536 Config.basePage

theorem hw_wellFormed : hw.wellFormed = true := by
  rw [params_wellFormed_iff, hw_bufBytes]
  exact ⟨hw_base_aligned, by decide⟩

/-- Settles O21: `BASE` is aligned by its construction, and the other limits are facts about `BUF_BYTES` = 4096. -/
theorem parametersAreLegal : Obligations.ParametersAreLegal :=
  ⟨hw_wellFormed, hw_bufBytes, hw_hdrRsvd, hw_padCheck⟩

end Sys2Proof.Machine
end

section
/-! Step invariants, packaged once; and the three safety statements over every step: who raises HS_VALID (R33), the
connection invariant (R55) and the buffer invariant (R52). -/

namespace Sys2Proof.Machine

/-- `P` is kept by each of the moves that the steps of the block are made of (R331, R335). -/
structure KeptByEveryMove (P : State → Prop) : Prop where
  setEvents : ∀ s rest, P s → P (s.setEvents rest)
  addReply : ∀ s r, P s → P (s.addReply r)
  reset : ∀ s, P s → P s.resetBlock
  busWrite : ∀ s off size d, P s → P (busWrite hw s off size d).1
  success : ∀ i s t, bodyOf hw i s = .ok t → P s → P t
  discard : ∀ s i, P s → P (s.discard i)
  report : ∀ s opc v code, P s → P (s.reporting opc v code)

/-- What every move keeps, every command keeps. -/
theorem KeptByEveryMove.exec {P : State → Prop} (k : KeptByEveryMove P) {i : Instr} {s t : State} (hs : P s)
    (h : exec i s = .next t) : P t := by
  obtain ⟨u, hu, rfl⟩ | ⟨e, -, rfl⟩ := exec_inversion h
  · exact k.report _ _ _ _ (k.success i s u hu hs)
  · exact k.report _ _ _ _ (k.discard s i hs)

/-- What every move keeps, every step keeps. -/
theorem KeptByEveryMove.step {P : State → Prop} (k : KeptByEveryMove P) {s t : State} (hs : P s)
    (h : step s = .next t) : P t := by
  obtain ⟨-, -, rfl⟩ | ⟨rest, -, -, rfl⟩ | ⟨rest, -, rfl⟩ | ⟨off, size, rest, -, rfl⟩ | ⟨off, size, d, rest, -, rfl⟩ |
    ⟨rest, i, -, -, hx⟩ | ⟨rest, e, -, -, rfl⟩ := step_cases h
  · exact hs
  · exact k.setEvents _ _ hs
  · exact k.reset _ (k.setEvents _ _ hs)
  · exact k.addReply _ _ (k.setEvents _ _ hs)
  · exact k.addReply _ _ (k.setEvents _ _ (k.busWrite _ _ _ _ hs))
  · exact k.exec (k.setEvents _ _ hs) hx
  · exact k.report _ _ _ _ (k.setEvents _ _ hs)

/-- While no connection is open every command but DERIVE stops at its first check (R32, R338). -/
theorem bodyOf_of_closed {p : Params} {i : Instr} {s : State} (hc : s.conn = false) (hi : i ≠ .derive) :
    bodyOf p i s = .error .closed := by
  cases i with
  | derive => exact absurd rfl hi
  | _ => exact if_pos hc

/-- No command but DERIVE succeeds while no connection is open (R32, R338). -/
theorem conn_of_bodyOf_ok {p : Params} {i : Instr} {s t : State} (h : bodyOf p i s = .ok t) (hi : i ≠ .derive) :
    s.conn = true := by
  cases hc : s.conn with
  | true => rfl
  | false =>
    rw [bodyOf_of_closed hc hi] at h
    cases h

/-- No command but DERIVE and CLOSE changes the connection or its secrets (R125), and only PARSEHELLO can leave a
handshake result valid that was not (R33). -/
theorem link_of_bodyOf_ok {p : Params} {i : Instr} {s t : State} (h : bodyOf p i s = .ok t) (hd : i ≠ .derive)
    (hc : i ≠ .close) : t.conn = s.conn ∧ t.tok = s.tok ∧ t.key = s.key ∧ t.iv = s.iv ∧
      (t.hsValid = true → s.hsValid = true ∨ i = .parseHello) := by
  cases i with
  | derive => exact absurd rfl hd
  | close => exact absurd rfl hc
  | encrypt => obtain ⟨-, -, -, -, rfl⟩ := (encryptBody_ok _ _ _).1 h; simp
  | decrypt => obtain ⟨-, -, -, q, -, -, rfl⟩ := (decryptBody_ok _ _ _).1 h; simp
  | mac => obtain ⟨-, -, -, rfl⟩ := (macBody_ok _ _ _).1 h; simp
  | encFrame => obtain ⟨-, -, -, -, -, rfl⟩ := (encFrameBody_ok _ _ _).1 h; simp +contextual
  | decHdr => obtain ⟨-, -, -, rfl⟩ := (decHdrBody_ok _ _ _).1 h; simp
  | decHdrV => obtain ⟨-, -, -, -, rfl⟩ := (decHdrVBody_ok _ _ _).1 h; simp
  | parseHello => obtain ⟨-, -, -, rfl⟩ := (parseHelloBody_ok _ _ _).1 h; simp
  | probe => obtain ⟨-, -, -, rfl⟩ := (probeBody_ok _ _ _).1 h; simp
  | sealFrame => obtain ⟨-, -, -, -, -, rfl⟩ := (sealBody_ok _ _ _).1 h; simp +contextual
  | openFrame => obtain ⟨-, -, -, -, q, -, -, rfl⟩ := (openBody_ok _ _ _).1 h; simp
  | openFrameV => obtain ⟨-, -, -, -, -, q, -, -, rfl⟩ := (openVBody_ok _ _ _).1 h; simp

/-- A successful command leaves OUT alone, or writes at its start a string that fits it (R40, R92). -/
theorem out_of_bodyOf_ok {p : Params} {i : Instr} {s t : State} (h : bodyOf p i s = .ok t) :
    (t.outBuf = s.outBuf ∧ t.outLen = s.outLen) ∨
    ∃ out, out.length ≤ p.bufBytes ∧ t.outBuf = s.outBuf.write 0 out ∧ t.outLen = BitVec.ofNat 16 out.length := by
  cases i with
  | derive => obtain ⟨-, rfl⟩ := (deriveBody_ok _ _ _).1 h; exact .inl ⟨rfl, rfl⟩
  | close => obtain ⟨-, rfl⟩ := (closeBody_ok _ _).1 h; exact .inl ⟨rfl, rfl⟩
  | mac => obtain ⟨-, -, -, rfl⟩ := (macBody_ok _ _ _).1 h; exact .inl ⟨rfl, rfl⟩
  | decHdr => obtain ⟨-, -, -, rfl⟩ := (decHdrBody_ok _ _ _).1 h; exact .inl ⟨rfl, rfl⟩
  | decHdrV => obtain ⟨-, -, -, -, rfl⟩ := (decHdrVBody_ok _ _ _).1 h; exact .inl ⟨rfl, rfl⟩
  | parseHello => obtain ⟨-, -, -, rfl⟩ := (parseHelloBody_ok _ _ _).1 h; exact .inl ⟨rfl, rfl⟩
  | encrypt =>
    obtain ⟨-, -, hc, hl, rfl⟩ := (encryptBody_ok _ _ _).1 h
    exact .inr ⟨_, hl.trans hc, rfl, rfl⟩
  | decrypt =>
    obtain ⟨-, -, hc, q, -, hl, rfl⟩ := (decryptBody_ok _ _ _).1 h
    exact .inr ⟨q, hl.trans hc, rfl, rfl⟩
  | encFrame =>
    obtain ⟨-, -, hc, -, hl, rfl⟩ := (encFrameBody_ok _ _ _).1 h
    exact .inr ⟨frameOf p s s.input, by simpa using hl.trans hc, rfl, rfl⟩
  | probe =>
    obtain ⟨-, hc, hl, rfl⟩ := (probeBody_ok _ _ _).1 h
    exact .inr ⟨probeBytes, hl.trans hc, rfl, rfl⟩
  | sealFrame =>
    obtain ⟨-, -, hc, -, hl, rfl⟩ := (sealBody_ok _ _ _).1 h
    exact .inr ⟨frameOf p s (encryptBytes p s.key s.iv s.input), by simpa using hl.trans hc, rfl, rfl⟩
  | openFrame =>
    obtain ⟨-, -, hc, -, q, -, hl, rfl⟩ := (openBody_ok _ _ _).1 h
    exact .inr ⟨q, hl.trans hc, rfl, rfl⟩
  | openFrameV =>
    obtain ⟨-, -, hc, -, -, q, -, hl, rfl⟩ := (openVBody_ok _ _ _).1 h
    exact .inr ⟨q, hl.trans hc, rfl, rfl⟩

/-- A command after which HS_VALID is 1 found it so, or is a PARSEHELLO that succeeded (R33, R263). -/
theorem hsValid_of_exec {i : Instr} {s t : State} (h : exec i s = .next t) (ht : t.hsValid = true) :
    s.hsValid = true ∨ i = .parseHello ∧ t.resultWord = 0x00002300 := by
  obtain ⟨u, hu, rfl⟩ | ⟨e, -, rfl⟩ := exec_inversion h
  · by_cases hd : i = .derive
    · subst hd
      obtain ⟨-, rfl⟩ := (deriveBody_ok _ _ _).1 hu
      simp at ht
    · by_cases hc : i = .close
      · subst hc
        obtain ⟨-, rfl⟩ := (closeBody_ok _ _).1 hu
        simp at ht
      · obtain ⟨-, -, -, -, hv⟩ := link_of_bodyOf_ok hu hd hc
        refine (hv ht).imp_right ?_
        rintro rfl
        exact ⟨rfl, by simp [State.resultWord, instrFields]⟩
  · simp only [State.reporting_hsValid, State.discard_hsValid] at ht
    split at ht
    · cases ht
    · exact .inl ht

/-- Settles O51: of the steps only a completion can raise HS_VALID, and of the commands only PARSEHELLO. -/
theorem handshakeBecomesValidOnlyByParseHello : Obligations.HandshakeBecomesValidOnlyByParseHello := by
  intro s t h hs ht
  obtain ⟨-, -, rfl⟩ | ⟨rest, -, -, rfl⟩ | ⟨rest, -, rfl⟩ | ⟨off, size, rest, -, rfl⟩ | ⟨off, size, d, rest, -, rfl⟩ |
    ⟨rest, i, hn, hi, hx⟩ | ⟨rest, e, -, -, rfl⟩ := step_cases h
  · simp [hs] at ht
  · simp [hs] at ht
  · cases ht
  · simp [hs] at ht
  · obtain ⟨-, hv, -⟩ := busWrite_frame hw s off size d
    simp [hv, hs] at ht
  · obtain hv | ⟨rfl, hr⟩ := hsValid_of_exec hx ht
    · simp [hs] at hv
    · exact ⟨⟨rest, hn⟩, hi, hr⟩
  · simp [hs] at ht

/-- The connection invariant speaks of seven fields only. -/
theorem State.ConnInv.congr {p : Params} {s t : State} (h : s.ConnInv p) (hc : t.conn = s.conn) (ht : t.tok = s.tok)
    (hk : t.key = s.key) (hv : t.iv = s.iv) (hs : t.hsValid = s.hsValid) (hd : t.devid = s.devid)
    (hm : t.stamp = s.stamp) : t.ConnInv p := by
  unfold State.ConnInv
  rw [hc, ht, hk, hv, hs, hd, hm]
  exact h

/-- While a connection is open the invariant is about its secrets alone. -/
theorem State.ConnInv.of_open {p : Params} {s t : State} (h : s.ConnInv p) (hs : s.conn = true)
    (hc : t.conn = s.conn) (ht : t.tok = s.tok) (hk : t.key = s.key) (hv : t.iv = s.iv) : t.ConnInv p :=
  ⟨fun hf => by simp [hc, hs] at hf, fun _ => by rw [ht, hk, hv]; exact h.2 hs⟩

/-- Every command that succeeds keeps the connection invariant: DERIVE and CLOSE establish it (R200, R202), the others
run on an open connection and leave its secrets alone. -/
theorem connInv_of_bodyOf_ok {p : Params} {i : Instr} {s t : State} (h : bodyOf p i s = .ok t) (hs : s.ConnInv p) :
    t.ConnInv p := by
  by_cases hd : i = .derive
  · subst hd
    obtain ⟨-, rfl⟩ := (deriveBody_ok _ _ _).1 h
    exact ⟨by simp, fun _ => ⟨rfl, rfl⟩⟩
  · by_cases hc : i = .close
    · subst hc
      obtain ⟨-, rfl⟩ := (closeBody_ok _ _).1 h
      exact ⟨fun _ => ⟨rfl, rfl, rfl, rfl, rfl, rfl⟩, by simp⟩
    · obtain ⟨hcn, ht, hk, hv, -⟩ := link_of_bodyOf_ok h hd hc
      exact hs.of_open (conn_of_bodyOf_ok h hd) hcn ht hk hv

/-- Settles O55: after reset no connection is open and every secret is 0 (R381). -/
theorem connectionInvariantAtReset : Obligations.ConnectionInvariantAtReset :=
  ⟨fun _ => ⟨rfl, rfl, rfl, rfl, rfl, rfl⟩, by simp [State.reset]⟩

/-- Bus writes leave the link alone, a command that fails may at most clear HS_VALID, and Reset closes the link (R55). -/
theorem connInv_keptByEveryMove : KeptByEveryMove (State.ConnInv hw) where
  setEvents _ _ h := h
  addReply _ _ h := h
  reset _ _ := connectionInvariantAtReset
  busWrite s off size d h := by
    obtain ⟨hc, hs, -, ht, hk, hv, hd, hm, -, -⟩ := busWrite_frame hw s off size d
    exact h.congr hc ht hk hv hs hd hm
  success _ _ _ hb h := connInv_of_bodyOf_ok hb h
  discard s i h := by
    unfold State.discard
    split
    · exact ⟨fun hc => by obtain ⟨ht, hk, hv, -, hd, hm⟩ := h.1 hc; exact ⟨ht, hk, hv, rfl, hd, hm⟩, h.2⟩
    · exact h
  report _ _ _ _ h := h

/-- Settles O54, from the invariant kept by every move. -/
theorem connectionInvariantKept : Obligations.ConnectionInvariantKept :=
  fun _ _ hs h => connInv_keptByEveryMove.step hs h

/-- A bus write leaves IN alone, or stores one aligned word inside it (R88). -/
theorem inBuf_of_busWrite (p : Params) (s : State) (off : BitVec 16) (size : Nat) (d : Word) :
    (busWrite p s off size d).1.inBuf = s.inBuf ∨
    ∃ i, i < p.bufBytes ∧ i % 4 = 0 ∧ (busWrite p s off size d).1.inBuf = s.inBuf.write i (be32 d) := by
  obtain e | ⟨r, -, -, e⟩ | ⟨i, hi, e⟩ := busWrite_cases p s off size d <;> rw [e]
  · exact .inl rfl
  · exact .inl (by simp [writeReg_frame s r d])
  · obtain ⟨-, h4, ht⟩ := busTarget_some hi
    obtain ⟨ho, hl⟩ := targetAt_in ht
    obtain ⟨-, e⟩ | ⟨-, e⟩ := writeInput_cases s (s.writeInWord i d) <;> rw [e]
    · exact .inl rfl
    · exact .inr ⟨i, hl, by omega, rfl⟩

/-- Only an aligned word inside IN and a command's output inside OUT are ever stored (R52, R88, R343). -/
theorem bufInv_keptByEveryMove : KeptByEveryMove (State.BufInv hw) where
  setEvents _ _ h := h
  addReply _ _ h := h
  reset _ _ := by simp [State.BufInv, State.resetBlock, State.reset]
  busWrite s off size d h := by
    obtain ⟨hiw, how, hil, hol, hn⟩ := h
    obtain ⟨-, -, -, -, -, -, -, -, hlen, hout⟩ := busWrite_frame hw s off size d
    unfold State.BufInv
    rw [hlen, hout]
    obtain hin | ⟨i, hi, h4, hin⟩ := inBuf_of_busWrite hw s off size d <;> rw [hin]
    · exact ⟨hiw, how, hil, hol, hn⟩
    · have hfit : i + (be32 d).length ≤ hw.bufBytes := by
        rw [hw_bufBytes] at hi
        rw [length_be32, hw_bufBytes]
        omega
      exact ⟨write_wf _ _ _ hiw, how, write_within _ _ _ _ hil hfit, hol, hn⟩
  success i s t hb h := by
    obtain ⟨hiw, how, hil, hol, hn⟩ := h
    obtain ⟨-, -, -, -, -, -, -, -, -, -, hin, -⟩ := bodyOf_ok_frame hb
    unfold State.BufInv
    rw [hin]
    obtain ⟨hout, hlen⟩ | ⟨out, hl, hout, hlen⟩ := out_of_bodyOf_ok hb <;> rw [hout, hlen]
    · exact ⟨hiw, how, hil, hol, hn⟩
    · refine ⟨hiw, write_wf _ _ _ how, hil, write_within _ _ _ _ hol (by omega), ?_⟩
      rw [BitVec.toNat_ofNat]
      exact (Nat.mod_le _ _).trans hl
  discard s i h := by
    unfold State.discard
    split <;> exact h
  report _ _ _ _ h := h

/-- Settles O56, from the invariant kept by every move. -/
theorem bufferInvariantKept : Obligations.BufferInvariantKept :=
  fun _ _ hs h => bufInv_keptByEveryMove.step hs h

end Sys2Proof.Machine
end

section
/-! The words of CTRL, STATUS and the 16-byte registers, bit by bit and byte by byte: what a write does to them and what
the bus reads (R22 to R51, R87). -/

namespace Sys2Proof

/-- Neighbouring slices join. -/
theorem slice_append_slice (s : Bytes) {a b c : Nat} (hab : a ≤ b) (hbc : b ≤ c) :
    slice s a b ++ slice s b c = slice s a c := by
  unfold slice
  rw [show c - a = (b - a) + (c - b) by omega, List.take_add, List.drop_drop, show a + (b - a) = b by omega]

/-- A 16-byte value is its four words in order (R41). -/
theorem be128_eq_words (x : Block) :
    be128 x = be32 (wordOf x 0) ++ be32 (wordOf x 1) ++ be32 (wordOf x 2) ++ be32 (wordOf x 3) := by
  have word : ∀ k, k < 4 → be32 (wordOf x k) = slice (be128 x) (4 * k) (4 * k + 4) :=
    fun k hk => be32_rd32 _ _ (by rw [length_be128]; omega)
  rw [word 0 (by omega), word 1 (by omega), word 2 (by omega), word 3 (by omega),
    slice_append_slice _ (by omega) (by omega), slice_append_slice _ (by omega) (by omega),
    slice_append_slice _ (by omega) (by omega)]
  exact (slice_full_of_eq _ _ (length_be128 x)).symm

end Sys2Proof

namespace Sys2Proof.Machine

theorem ctrlWord_getLsbD (s : State) (i : Nat) :
    s.ctrlWord.getLsbD i = if i = 0 then s.irqEn else if i = 1 then s.hsOneshot else false := by
  show BitVec.getLsbD (w := 30 + 1 + 1) (0#30 ++ BitVec.ofBool s.hsOneshot ++ BitVec.ofBool s.irqEn) i = _
  simp only [BitVec.getLsbD_append, BitVec.getLsbD_ofBool, BitVec.getLsbD_zero]
  grind

/-- CTRL reads back the two bits written (R25). -/
theorem ctrlWord_setCtrl (s : State) (d : Word) : (s.setCtrl d).ctrlWord = d &&& 3 := by
  apply BitVec.eq_of_getLsbD_eq
  intro i hi
  rw [ctrlWord_getLsbD]
  interval_cases i <;> simp

theorem statusWord_getLsbD (s : State) {i : Nat} (hi : i < 32) : s.statusWord.getLsbD i =
    if i = 0 then s.busy else if i = 1 then s.done else if i = 2 then s.err else if i = 3 then s.cmdOvr
    else if i = 4 then s.busyWr else if i = 8 then s.conn else if i = 9 then s.hsValid
    else decide (12 ≤ i) && s.tokenWr.getLsbD (i - 12) := by
  show BitVec.getLsbD (w := 16 + 4 + 2 + 1 + 1 + 3 + 1 + 1 + 1 + 1 + 1) (0#16 ++ s.tokenWr ++ 0#2 ++
    BitVec.ofBool s.hsValid ++ BitVec.ofBool s.conn ++ 0#3 ++ BitVec.ofBool s.busyWr ++ BitVec.ofBool s.cmdOvr ++
    BitVec.ofBool s.err ++ BitVec.ofBool s.done ++ BitVec.ofBool s.busy) i = _
  simp only [BitVec.getLsbD_append, BitVec.getLsbD_ofBool, BitVec.getLsbD_zero]
  interval_cases i <;> simp

/-- STATUS after an acknowledge: the written ones of bits 1 to 4 are cleared (R35). -/
theorem statusWord_ackStatus (s : State) (d : Word) :
    (s.ackStatus d).statusWord = s.statusWord &&& ~~~(d &&& 0x1E) := by
  apply BitVec.eq_of_getLsbD_eq
  intro i hi
  rw [BitVec.getLsbD_and, statusWord_getLsbD _ hi, statusWord_getLsbD _ hi]
  interval_cases i <;> simp

/-- Bit 12 + k of a STATUS word is bit k of TOKEN_WR (R26). -/
theorem tokenBit_getLsbD : ∀ (k : Fin 4) (i : Fin 32), (1 <<< (12 + k.val) : Word).getLsbD i.val =
    (decide (12 ≤ i.val) && (BitVec.ofNat 4 (2 ^ k.val)).getLsbD (i.val - 12)) := by decide

/-- STATUS after a token word is staged (R34). -/
theorem statusWord_setToken (s : State) (k : Fin 4) (d : Word) :
    (s.setToken k d).statusWord = s.statusWord ||| (1 <<< (12 + k.val)) := by
  apply BitVec.eq_of_getLsbD_eq
  intro i hi
  rw [BitVec.getLsbD_or, statusWord_getLsbD _ hi, statusWord_getLsbD _ hi, tokenBit_getLsbD k ⟨i, hi⟩]
  simp only [State.setToken_busy, State.setToken_done, State.setToken_err, State.setToken_cmdOvr,
    State.setToken_busyWr, State.setToken_conn, State.setToken_hsValid, State.setToken_tokenWr, BitVec.getLsbD_or]
  grind

/-- The staged token after a word of it is written (R42). -/
theorem stagedToken_setToken (s : State) (k : Fin 4) (d : Word) :
    be128 (s.setToken k d).stagedToken = slice (be128 s.stagedToken) 0 (4 * k.val) ++ be32 d ++
      slice (be128 s.stagedToken) (4 * k.val + 4) 16 := by
  simp only [State.stagedToken, be128_append]
  match k with
  | 0 | 1 | 2 | 3 => simp [slice, List.take_append, List.drop_append, List.take_of_length_le, List.drop_eq_nil_of_le]

/-- A 16-bit register read back after a write of a bus word (R38, R39). -/
theorem setWidth_setWidth_half (d : Word) : (d.setWidth 16).setWidth 32 = d &&& 0xFFFF := by
  apply BitVec.eq_of_toNat_eq
  have hd : d.toNat % 65536 < 4294967296 := by omega
  simpa [Nat.mod_eq_of_lt hd] using (Nat.and_two_pow_sub_one_eq_mod d.toNat 16).symm

/-- Settles O18: the words are neighbouring slices of the 16 bytes, and each stands in the register map. -/
theorem wordPacking : Obligations.WordPacking :=
  ⟨fun x => ⟨be128_eq_words x, fun _ _ => rfl⟩, fun s k off =>
    ⟨busRead_reg hw s (.key k) off, busRead_reg hw s (.iv k) off, busRead_reg hw s (.rxCksum k) off,
      busRead_reg hw s (.digest k) off⟩⟩

/-- A 16-bit register as the bus reads it, bits 31:16 zero (R87). -/
theorem busRead_half (p : Params) (s : State) (r : Reg) (off : BitVec 16) (h : Half) (ho : off.toNat = regOffset r)
    (hr : s.readReg p r = h.setWidth 32) : busRead p s off 4 = .data (0#16 ++ h) := by
  rw [busRead_reg p s r off ho, hr, half_setWidth]

/-- Settles O60: one register of the map per clause. -/
theorem registerReads : Obligations.RegisterReads := fun s =>
  ⟨busRead_reg hw s .id _ rfl,
   ⟨_, busRead_reg hw s .ctrl _ rfl, ctrlWord_fields s⟩,
   ⟨_, busRead_reg hw s .status _ rfl, statusWord_fields s⟩,
   busRead_reg hw s .cmd _ rfl,
   ⟨_, busRead_reg hw s .result _ rfl, resultWord_fields s⟩,
   busRead_half hw s .inLen _ _ rfl rfl,
   busRead_half hw s .outCap _ _ rfl rfl,
   busRead_half hw s .outLen _ _ rfl rfl,
   busRead_reg hw s .devid _ rfl,
   busRead_reg hw s .stamp _ rfl,
   busRead_half hw s .rxMagic _ _ rfl rfl,
   busRead_half hw s .rxTotlen _ _ rfl rfl,
   busRead_reg hw s .rxDevid _ rfl,
   busRead_reg hw s .rxStamp _ rfl,
   busRead_reg hw s .bufsize _ rfl,
   fun k off => ⟨busRead_reg hw s (.token k) off, busRead_reg hw s (.key k) off, busRead_reg hw s (.iv k) off,
     busRead_reg hw s (.rxCksum k) off, busRead_reg hw s (.digest k) off⟩⟩

/-- Settles O19: no register's read names TOK or a staging word, and the windows read the buffers. -/
theorem tokenIsUnreadable : Obligations.TokenIsUnreadable := by
  intro s x a b c d off size
  unfold busRead
  cases busTarget hw off size with
  | none => rfl
  | some t =>
    cases t with
    | reg r => cases r <;> rfl
    | inAt i => rfl
    | outAt i => rfl

end Sys2Proof.Machine
end

section
/-! Bus writes to the registers, idle and busy; the step of a bus transaction; and what the interrupt does (R25, R35 to
R42, R53, R54). -/

namespace Sys2Proof.Machine

theorem busWrite_ctrl (p : Params) (s : State) (d : Word) :
    busWrite p s 0x0004 4 d = ((s.writeInput (s.setCtrl d)).tick, .ok) := busWrite_reg p s .ctrl _ d rfl rfl

theorem busWrite_status (p : Params) (s : State) (d : Word) :
    busWrite p s 0x0008 4 d = ((s.ackStatus d).tick, .ok) := busWrite_reg p s .status _ d rfl rfl

theorem busWrite_cmd_idle (p : Params) {s : State} (d : Word) (h : s.busy = false) :
    busWrite p s 0x000C 4 d = ((s.issue d).tick, .ok) := by
  rw [busWrite_reg p s .cmd _ d rfl rfl]
  simp [State.writeReg, h]

theorem busWrite_cmd_busy (p : Params) {s : State} (d : Word) (h : s.busy = true) :
    busWrite p s 0x000C 4 d = (s.markOverrun.tick, .ok) := by
  rw [busWrite_reg p s .cmd _ d rfl rfl]
  simp [State.writeReg, h]

theorem busWrite_inLen (p : Params) (s : State) (d : Word) :
    busWrite p s 0x0014 4 d = ((s.writeInput (s.setInLen (d.setWidth 16))).tick, .ok) :=
  busWrite_reg p s .inLen _ d rfl rfl

theorem busWrite_outCap (p : Params) (s : State) (d : Word) :
    busWrite p s 0x0018 4 d = ((s.writeInput (s.setOutCap (d.setWidth 16))).tick, .ok) :=
  busWrite_reg p s .outCap _ d rfl rfl

theorem busWrite_token (p : Params) (s : State) (k : Fin 4) (off : BitVec 16) (d : Word)
    (h : off.toNat = 0x0020 + 4 * k.val) :
    busWrite p s off 4 d = ((s.writeInput (s.setToken k d)).tick, .ok) := busWrite_reg p s (.token k) off d h rfl

/-- Settles O13: the acknowledge of R35, bit by bit. -/
theorem statusWriteClearsFlags : Obligations.StatusWriteClearsFlags :=
  fun s d => ⟨_, busWrite_status hw s d, statusWord_ackStatus s d, rfl⟩

/-- Settles O16: while idle the write is `State.setToken`, whose effect on STATUS and on the staged bytes is known. -/
theorem tokenStaging : Obligations.TokenStaging := by
  intro s k off d ho
  refine ⟨busRead_reg hw s (.token k) off ho, fun hb => ?_⟩
  rw [busWrite_token hw s k off d ho, writeInput_idle hb]
  refine ⟨_, rfl, statusWord_setToken s k d, stagedToken_setToken s k d, ?_⟩
  match k with
  | 0 | 1 | 2 | 3 => rfl

/-- Settles O12: the write is `State.setCtrl` while idle and is dropped while busy. -/
theorem controlRegisterWrite : Obligations.ControlRegisterWrite := by
  intro s d
  rw [busWrite_ctrl]
  constructor
  · intro hb
    rw [writeInput_idle hb]
    refine ⟨_, rfl, ?_, rfl⟩
    rw [busRead_reg hw _ .ctrl _ rfl]
    exact congrArg _ (ctrlWord_setCtrl s d)
  · intro hb
    rw [writeInput_busy hb]
    rfl

/-- Settles O14: the write issues the word while idle and only marks the overrun while busy. -/
theorem commandIssue : Obligations.CommandIssue :=
  fun s d => ⟨busRead_reg hw s .cmd _ rfl, busWrite_cmd_idle hw d, busWrite_cmd_busy hw d⟩

/-- Settles O15: cutting a bus word to 16 bits and widening it again is the mask 0xFFFF. -/
theorem lengthRegisterWrites : Obligations.LengthRegisterWrites := by
  intro s d hb
  rw [busWrite_inLen, busWrite_outCap, writeInput_idle hb, writeInput_idle hb]
  refine ⟨⟨_, rfl, ?_, rfl⟩, ⟨_, rfl, ?_, rfl⟩⟩
  · rw [busRead_reg hw _ .inLen _ rfl]
    exact congrArg _ (setWidth_setWidth_half d)
  · rw [busRead_reg hw _ .outCap _ rfl]
    exact congrArg _ (setWidth_setWidth_half d)

/-- While a command is in flight a bus write reaches the flags of STATUS at most (R344, R345). -/
theorem busWrite_busy_frame (p : Params) {s : State} (off : BitVec 16) (size : Nat) (d : Word) (hb : s.busy = true) :
    ∃ done err cmdOvr busyWr draws, (busWrite p s off size d).1 =
      { s with done := done, err := err, cmdOvr := cmdOvr, busyWr := busyWr, draws := draws } := by
  obtain e | ⟨r, -, -, e⟩ | ⟨i, -, e⟩ := busWrite_cases p s off size d <;> rw [e]
  · exact ⟨_, _, _, _, _, rfl⟩
  · obtain h | h | h | h | ⟨hi, -⟩ := writeReg_cases s r d
    on_goal 5 => simp [hb] at hi
    all_goals
      rw [h]
      exact ⟨_, _, _, _, _, rfl⟩
  · rw [writeInput_busy hb]
    exact ⟨_, _, _, _, _, rfl⟩

theorem step_of_read {s : State} {off : BitVec 16} {size : Nat} {rest : List Event}
    (h : s.events = .read off size :: rest) :
    step s = .next ((s.setEvents rest).addReply (busRead hw s off size)) := by
  simp only [step, nextTurn, h]

theorem step_of_write {s : State} {off : BitVec 16} {size : Nat} {d : Word} {rest : List Event}
    (h : s.events = .write off size d :: rest) :
    step s = .next (((busWrite hw s off size d).1.setEvents rest).addReply (busWrite hw s off size d).2) := by
  simp only [step, nextTurn, h]

/-- Settles O10: a read only adds a reply, and a write is held to the flags by `busWrite_busy_frame`. -/
theorem inputsFrozenWhileBusy : Obligations.InputsFrozenWhileBusy := by
  rintro s t hb (⟨off, size, rest, he⟩ | ⟨off, size, d, rest, he⟩) h
  · rw [step_of_read he] at h
    cases h
    rfl
  · obtain ⟨_, _, _, _, _, hf⟩ := busWrite_busy_frame hw off size d hb
    rw [step_of_write he, hf] at h
    cases h
    rfl

/-- Every command's completion sets DONE, and IRQ then follows its mask (R335, R341). -/
theorem irq_of_exec {i : Instr} {s t : State} (h : exec i s = .next t) : t.done = true ∧ t.irq = s.irqEn := by
  obtain ⟨u, hu, rfl⟩ | ⟨e, -, rfl⟩ := exec_inversion h
  · obtain ⟨hirq, -⟩ := bodyOf_ok_frame hu
    simp [State.irq, hirq]
  · simp [State.irq]

/-- A completion next is a step that sets DONE, also for an illegal word (R335, R341). -/
theorem irq_of_completesNext {s : State} {rest : List Event} (h : s.CompletesNext rest) :
    ∃ t, step s = .next t ∧ t.done = true ∧ t.irq = s.irqEn := by
  rw [step_of_completesNext h]
  cases decode s.cmdLatch with
  | ok i =>
    obtain ⟨u, -, hx⟩ | ⟨e, -, hx⟩ := exec_cases i (s.setEvents rest)
    · have hirq := irq_of_exec hx
      exact ⟨_, hx, hirq⟩
    · have hirq := irq_of_exec hx
      exact ⟨_, hx, hirq⟩
  | error e => exact ⟨_, rfl, rfl, by simp [State.irq]⟩

/-- Settles O20: IRQ is a function of the mask and DONE, and each of these writes and completions fixes DONE. -/
theorem interruptLevel : Obligations.InterruptLevel := by
  refine ⟨fun s => by simp [State.irq], fun s rest => irq_of_completesNext, fun i s t => irq_of_exec,
    fun s d hb => ?_, fun s d hd => ?_, fun s d hb => ?_, fun s line => by simp [interruptInput]⟩
  · rw [busWrite_cmd_idle hw d hb]
    simp [State.irq]
  · rw [busWrite_status]
    simp [State.irq, State.ackStatus, hd]
  · rw [busWrite_ctrl, writeInput_idle hb]
    simp [State.irq]

end Sys2Proof.Machine
end

section
/-! The decoder accepts legal words only, so an illegal one only reports (R123, R124); and the report of every command
while no connection is open (R338). -/

namespace Sys2Proof

theorem legalOpcs_of_plainCommand {opc : BitVec 8} {i : Instr} (h : plainCommand opc = some i) :
    legalOpcs.contains opc = true := by
  unfold plainCommand at h
  split at h
  case h_12 => cases h
  all_goals rfl

theorem verifyOpcs_of_verifyCommand {opc : BitVec 8} {i : Instr} (h : verifyCommand opc = some i) :
    verifyOpcs.contains opc = true := by
  unfold verifyCommand at h
  split at h
  case h_3 => cases h
  all_goals rfl

/-- A word that decodes is legal (R123). -/
theorem legalWord_of_decode {w : Word} {i : Instr} (h : decode w = .ok i) : legalWord w = true := by
  have hr : w.extractLsb' 9 23 = 0 := by
    by_contra hr
    simp only [decode, cmdFields, ne_eq, hr, not_false_eq_true, if_true, reduceCtorEq] at h
  cases hp : plainCommand (w.extractLsb' 0 8) with
  | none => simp only [decode, cmdFields, hr, hp, ne_eq, not_true_eq_false, if_false, reduceCtorEq] at h
  | some j =>
    have hopc := legalOpcs_of_plainCommand hp
    cases hv : w.getLsbD 8 with
    | false => simp only [legalWord, hr, hopc, hv, beq_self_eq_true, Bool.and_true, Bool.true_or]
    | true =>
      cases hj : verifyCommand (w.extractLsb' 0 8) with
      | none =>
        simp only [decode, cmdFields, hr, hp, hv, hj, ne_eq, not_true_eq_false, if_false, if_true, reduceCtorEq] at h
      | some k =>
        simp only [legalWord, hr, hopc, verifyOpcs_of_verifyCommand hj, beq_self_eq_true, Bool.and_true, Bool.or_true]

theorem decode_of_illegal {w : Word} (h : legalWord w = false) : ∃ e, decode w = .error e := by
  cases hd : decode w with
  | ok i => simp [legalWord_of_decode hd] at h
  | error e => exact ⟨e, rfl⟩

end Sys2Proof

namespace Sys2Proof.Machine

/-- Settles O5: issue does not look at the word, and an illegal word does not decode. -/
theorem illegalWordOnlyReports : Obligations.IllegalWordOnlyReports := by
  constructor
  · intro s w hb
    rw [busWrite_cmd_idle hw w hb]
    exact ⟨rfl, rfl, rfl⟩
  · intro s rest hn hl
    obtain ⟨e, hd⟩ := decode_of_illegal hl
    rw [step_of_completesNext hn, hd]
    rfl

/-- What a failed command leaves, as one update of HS_VALID (R12, R263). -/
theorem discard_eq (s : State) (i : Instr) :
    s.discard i = { s with hsValid := if i = .parseHello then false else s.hsValid } := by
  unfold State.discard
  split <;> rfl

/-- Settles O27: the check of CONN comes first in every pseudocode but DERIVE's. -/
theorem closedConnectionRefusesCommands : Obligations.ClosedConnectionRefusesCommands := by
  intro i s hc hi
  rw [exec_reports_error (bodyOf_of_closed hc hi), discard_eq]
  rfl

end Sys2Proof.Machine
end

section
/-! The step of a bus transaction (R82, R95), bus errors (R83 to R86) and the IN and OUT windows (R88, R89). -/

namespace Sys2Proof.Machine

/-- `busRead` looks at neither of the model's own lists. -/
theorem busRead_setEvents_addReply (p : Params) (s : State) (rest : List Event) (r : Reply) (off : BitVec 16)
    (size : Nat) : busRead p ((s.setEvents rest).addReply r) off size = busRead p s off size := rfl

/-- Settles O6: the reply goes to the model's own list, which a second read does not look at. -/
theorem busReadChangesNothing : Obligations.BusReadChangesNothing := by
  refine fun s off size rest => ⟨step_of_read, fun h => ⟨_, _, step_of_read h, step_of_read rfl, ?_⟩⟩
  rw [busRead_setEvents_addReply]
  rfl

/-- A write that is not accepted changes nothing (R82). -/
theorem busWrite_eq_or_ok (p : Params) (s : State) (off : BitVec 16) (size : Nat) (d : Word) :
    busWrite p s off size d = (s, .busErr) ∨ (busWrite p s off size d).2 = .ok := by
  obtain e | ⟨r, -, -, e⟩ | ⟨i, -, e⟩ := busWrite_cases p s off size d
  · exact .inl e
  · exact .inr (by rw [e])
  · exact .inr (by rw [e])

/-- The block does not file its own replies (log 5). -/
theorem replies_of_busWrite (p : Params) (s : State) (off : BitVec 16) (size : Nat) (d : Word) :
    (busWrite p s off size d).1.replies = s.replies := by
  obtain e | ⟨r, -, -, e⟩ | ⟨i, -, e⟩ := busWrite_cases p s off size d <;> rw [e]
  · simp [writeReg_frame s r d]
  · obtain ⟨-, e⟩ | ⟨-, e⟩ := writeInput_cases s (s.writeInWord i d) <;> rw [e] <;> rfl

/-- Settles O7: the step keeps `busWrite`'s state and files its reply, and BUSERR comes with the old state. -/
theorem busWriteStep : Obligations.BusWriteStep := by
  intro s off size d rest h
  rw [step_of_write h, ← replies_of_busWrite hw s off size d]
  obtain e | e := busWrite_eq_or_ok hw s off size d <;> rw [e]
  · exact ⟨.inr rfl, nofun, fun _ => rfl⟩
  · exact ⟨.inl rfl, fun _ => rfl, nofun⟩

/-- Each buffer fits the window that the address map gives it (R5, R81). -/
theorem hw_bufBytes_le : hw.bufBytes ≤ 0x4000 := by rw [hw_bufBytes]; decide

/-- A word of the OUT window that a transaction reaches lies in the buffer. -/
theorem targetAt_out {p : Params} {off i : Nat} (h : targetAt p off = some (.outAt i)) :
    off = 0x8000 + i ∧ i < p.bufBytes := by
  unfold targetAt at h
  split at h
  · simp at h
  · repeat' split at h
    all_goals simp at h
    omega

/-- At an aligned offset the address map names nothing exactly in the reserved ranges (R81). -/
theorem targetAt_eq_none_iff {p : Params} (hp : p.bufBytes ≤ 0x4000) {off : BitVec 16} (h4 : off.toNat % 4 = 0) :
    targetAt p off.toNat = none ↔ reservedOffset p.bufBytes off = true := by
  simp only [targetAt, reservedOffset, Bool.or_eq_true, Bool.and_eq_true, decide_eq_true_eq]
  by_cases hr : off.toNat ≤ 0x88
  · obtain ⟨r, e⟩ := regAt_of_le hr h4
    rw [if_pos (by omega), e]
    simp
    omega
  · rw [regAt_of_gt (by omega)]
    split_ifs <;> simp <;> omega

/-- A transaction has no target exactly if its size, its alignment or its offset is bad (R83, R84, R85). -/
theorem busTarget_eq_none_iff {p : Params} (hp : p.bufBytes ≤ 0x4000) (off : BitVec 16) (size : Nat) :
    busTarget p off size = none ↔ accessWellFormed off size = false ∨ reservedOffset p.bufBytes off = true := by
  unfold busTarget accessWellFormed
  by_cases hs : size = 4
  · by_cases h4 : off.toNat % 4 = 0
    · simp [hs, h4, targetAt_eq_none_iff hp h4]
    · simp [hs, h4]
  · simp [hs]

theorem busRead_eq_busErr_iff (p : Params) (s : State) (off : BitVec 16) (size : Nat) :
    busRead p s off size = .busErr ↔ busTarget p off size = none := by
  unfold busRead
  cases busTarget p off size with
  | none => simp
  | some t => cases t <;> simp

/-- The read-only offsets among the registers are those of the registers with no writable field (R86). -/
theorem readOnlyOffset_regOffset (r : Reg) :
    readOnlyOffset (BitVec.ofNat 16 (regOffset r)) = !regWritable r := by
  cases r with
  | token k | key k | iv k | rxCksum k | digest k => revert k; decide
  | _ => decide

/-- A transaction with a target is a bus error on writing exactly at the read-only offsets (R86, R89). -/
theorem busWrite_busErr_iff_readOnly {p : Params} (hp : p.bufBytes ≤ 0x4000) (s : State) {off : BitVec 16} {size : Nat}
    (d : Word) {t : Target} (h : busTarget p off size = some t) :
    (busWrite p s off size d).2 = .busErr ↔ readOnlyOffset off = true := by
  obtain ⟨-, -, ht⟩ := busTarget_some h
  unfold busWrite
  rw [h]
  cases t with
  | reg r =>
    have ho : off = BitVec.ofNat 16 (regOffset r) := by rw [← targetAt_reg ht]; simp
    rw [ho, readOnlyOffset_regOffset]
    cases hr : regWritable r <;> simp [hr]
  | inAt i =>
    obtain ⟨ho, hi⟩ := targetAt_in ht
    simp [readOnlyOffset]
    omega
  | outAt i =>
    obtain ⟨ho, hi⟩ := targetAt_out ht
    simp [readOnlyOffset]
    omega

/-- Settles O8: a transaction without a target is refused both ways; with one, only a write at a read-only offset. -/
theorem busErrorsAreExactlyThese : Obligations.BusErrorsAreExactlyThese := by
  intro s off size d
  rw [busRead_eq_busErr_iff, ← or_assoc, ← busTarget_eq_none_iff hw_bufBytes_le]
  refine ⟨Iff.rfl, ?_⟩
  cases h : busTarget hw off size with
  | none => simp [busWrite, h]
  | some t => simp [busWrite_busErr_iff_readOnly hw_bufBytes_le s d h]

/-- A read of a word of the OUT window (R89). -/
theorem busRead_out (p : Params) (s : State) (i : Nat) (off : BitVec 16) (hp : p.bufBytes ≤ 0x4000)
    (h : off.toNat = 0x8000 + i) (hi : i < p.bufBytes) (h4 : i % 4 = 0) :
    busRead p s off 4 = .data (s.readWord .output i) := by
  unfold busRead; rw [busTarget_out p i off hp h hi h4]

/-- A write in the OUT window is a bus error (R89). -/
theorem busWrite_out (p : Params) (s : State) (i : Nat) (off : BitVec 16) (d : Word) (hp : p.bufBytes ≤ 0x4000)
    (h : off.toNat = 0x8000 + i) (hi : i < p.bufBytes) (h4 : i % 4 = 0) :
    busWrite p s off 4 d = (s, .busErr) := by
  unfold busWrite; rw [busTarget_out p i off hp h hi h4]

/-- Settles O17: while idle a write of the IN window is `State.writeInWord`, which the word and byte reads of the buffer
laws see. -/
theorem bufferWindows : Obligations.BufferWindows := by
  intro s i d hi h4
  refine ⟨fun off ho => ⟨busRead_in hw s i off ho hi h4, fun hb => ?_, fun hb => ?_⟩,
    fun off ho => ⟨busRead_out hw s i off hw_bufBytes_le ho hi h4, busWrite_out hw s i off d hw_bufBytes_le ho hi h4⟩,
    fun off size => ?_⟩
  · rw [busWrite_in hw s i off d ho hi h4, writeInput_busy hb]
    rfl
  · rw [busWrite_in hw s i off d ho hi h4, writeInput_idle hb]
    refine ⟨_, rfl, ?_, fun k hk => ?_, fun a ha => ?_, rfl⟩
    · rw [busRead_in hw _ i off ho hi h4]
      exact congrArg _ (readWord_writeInWord s.tick i d)
    · have hk : k < (be32 d).length := by rwa [length_be32]
      rw [List.getElem?_eq_getElem hk]
      exact lookup_write_inside s.inBuf i (be32 d) k hk
    · exact lookup_write_outside s.inBuf i (be32 d) a (by rwa [length_be32])
  · obtain ⟨-, -, -, -, -, -, -, -, -, hout⟩ := busWrite_frame hw s off size d
    exact hout

end Sys2Proof.Machine
end

section
/-! What a command leaves in OUT and OUT_LEN (R40, R92). -/

namespace Sys2Proof.Machine

/-- A successful command that does not write OUT leaves it and OUT_LEN alone (R125). -/
theorem out_kept_of_bodyOf_ok {p : Params} {i : Instr} {s t : State} (h : bodyOf p i s = .ok t)
    (hi : writesOut i = false) : t.outBuf = s.outBuf ∧ t.outLen = s.outLen := by
  cases i with
  | derive => obtain ⟨-, rfl⟩ := (deriveBody_ok _ _ _).1 h; exact ⟨rfl, rfl⟩
  | close => obtain ⟨-, rfl⟩ := (closeBody_ok _ _).1 h; exact ⟨rfl, rfl⟩
  | mac => obtain ⟨-, -, -, rfl⟩ := (macBody_ok _ _ _).1 h; exact ⟨rfl, rfl⟩
  | decHdr => obtain ⟨-, -, -, rfl⟩ := (decHdrBody_ok _ _ _).1 h; exact ⟨rfl, rfl⟩
  | decHdrV => obtain ⟨-, -, -, -, rfl⟩ := (decHdrVBody_ok _ _ _).1 h; exact ⟨rfl, rfl⟩
  | parseHello => obtain ⟨-, -, -, rfl⟩ := (parseHelloBody_ok _ _ _).1 h; exact ⟨rfl, rfl⟩
  | _ => cases hi

/-- A successful command that writes OUT writes at its start a string that OUT_CAP admits (R39, R40, R125). -/
theorem out_written_of_bodyOf_ok {p : Params} {i : Instr} {s t : State} (h : bodyOf p i s = .ok t)
    (hi : writesOut i = true) :
    ∃ out, out.length ≤ s.outCap.toNat ∧ t.outBuf = s.outBuf.write 0 out ∧ t.outLen = BitVec.ofNat 16 out.length := by
  cases i with
  | encrypt => obtain ⟨-, -, -, hl, rfl⟩ := (encryptBody_ok _ _ _).1 h; exact ⟨_, hl, rfl, rfl⟩
  | decrypt => obtain ⟨-, -, -, q, -, hl, rfl⟩ := (decryptBody_ok _ _ _).1 h; exact ⟨q, hl, rfl, rfl⟩
  | encFrame =>
    obtain ⟨-, -, -, -, hl, rfl⟩ := (encFrameBody_ok _ _ _).1 h
    exact ⟨frameOf p s s.input, by simpa using hl, rfl, rfl⟩
  | probe => obtain ⟨-, -, hl, rfl⟩ := (probeBody_ok _ _ _).1 h; exact ⟨probeBytes, hl, rfl, rfl⟩
  | sealFrame =>
    obtain ⟨-, -, -, -, hl, rfl⟩ := (sealBody_ok _ _ _).1 h
    exact ⟨frameOf p s (encryptBytes p s.key s.iv s.input), by simpa using hl, rfl, rfl⟩
  | openFrame => obtain ⟨-, -, -, -, q, -, hl, rfl⟩ := (openBody_ok _ _ _).1 h; exact ⟨q, hl, rfl, rfl⟩
  | openFrameV => obtain ⟨-, -, -, -, -, q, -, hl, rfl⟩ := (openVBody_ok _ _ _).1 h; exact ⟨q, hl, rfl, rfl⟩
  | _ => cases hi

/-- Settles O49: the output of a success is one write at the start of OUT, of a length that 16 bits hold; a failure
discards all writes. -/
theorem outputWritesExactlyItsLength : Obligations.OutputWritesExactlyItsLength := by
  intro i s t h
  obtain ⟨u, hu, rfl⟩ | ⟨e, -, rfl⟩ := exec_inversion h
  · cases hi : writesOut i with
    | false => simpa using out_kept_of_bodyOf_ok hu hi
    | true =>
      obtain ⟨out, hl, hbuf, hlen⟩ := out_written_of_bodyOf_ok hu hi
      have hn : (BitVec.ofNat 16 out.length).toNat = out.length := by
        rw [BitVec.toNat_ofNat]
        omega
      simp only [State.reporting_resCode, State.reporting_outBuf, State.reporting_outLen, hbuf, hlen, hn]
      refine ⟨fun _ => ⟨fun a ha => ?_, fun a ha => lookup_write_outside _ _ _ _ (by omega)⟩, by simp⟩
      rw [lookup_write, if_pos (by omega)]
      simpa using ha
  · exact ⟨fun hc => absurd hc.1 (errorByte_ne_zero e), fun _ => by simp⟩

end Sys2Proof.Machine
end

section
/-! The decoder and the encoder as inverses of each other, on words and on byte strings, and the legal words as the
words of the commands (R120 to R123). -/

namespace Sys2Proof

/-- The model's own statement of the encoding, for every command at once. -/
theorem encodingStatement (i : Instr) : Laws.Encoding.Statement i :=
  match i with
  | .derive => Laws.Encoding.derive
  | .close => Laws.Encoding.close
  | .encrypt => Laws.Encoding.encrypt
  | .decrypt => Laws.Encoding.decrypt
  | .mac => Laws.Encoding.mac
  | .encFrame => Laws.Encoding.encFrame
  | .decHdr => Laws.Encoding.decHdr
  | .decHdrV => Laws.Encoding.decHdrV
  | .parseHello => Laws.Encoding.parseHello
  | .probe => Laws.Encoding.probe
  | .sealFrame => Laws.Encoding.sealFrame
  | .openFrame => Laws.Encoding.openFrame
  | .openFrameV => Laws.Encoding.openFrameV

theorem decode_encode (i : Instr) : decode (encode i) = .ok i := by
  obtain ⟨-, -, h, -⟩ := encodingStatement i
  exact h

/-- The three fields of R120 are the whole word. -/
theorem packFields_cmdFields (w : Word) : packFields (cmdFields w) = w := by
  apply BitVec.eq_of_getLsbD_eq
  intro i hi
  show BitVec.getLsbD (w := 23 + 1 + 8) (w.extractLsb' 9 23 ++ BitVec.ofBool (w.getLsbD 8) ++ w.extractLsb' 0 8) i = _
  simp only [BitVec.getLsbD_append, BitVec.getLsbD_extractLsb', BitVec.getLsbD_ofBool]
  interval_cases i <;> simp

/-- A row of the map with V = 0 holds the fields of its command's word (R122). -/
theorem instrFields_of_plainCommand {opc : BitVec 8} {i : Instr} (h : plainCommand opc = some i) :
    instrFields i = ⟨opc, false, 0⟩ := by
  unfold plainCommand at h
  split at h <;> cases h <;> rfl

/-- A row of the map with V = 1 holds the fields of its command's word (R122). -/
theorem instrFields_of_verifyCommand {opc : BitVec 8} {i : Instr} (h : verifyCommand opc = some i) :
    instrFields i = ⟨opc, true, 0⟩ := by
  unfold verifyCommand at h
  split at h <;> cases h <;> rfl

/-- The decoder accepts a word only with the fields of the command's own word (R122, R123). -/
theorem cmdFields_of_decode {w : Word} {i : Instr} (h : decode w = .ok i) : cmdFields w = instrFields i := by
  unfold decode at h
  generalize cmdFields w = c at h ⊢
  obtain ⟨opc, v, rsvd⟩ := c
  dsimp only at h
  split at h
  · cases h
  · rename_i hr
    obtain rfl : rsvd = 0 := not_not.1 hr
    cases hp : plainCommand opc with
    | none => simp [hp] at h
    | some j =>
      cases v with
      | false =>
        obtain rfl : j = i := by simpa [hp] using h
        exact (instrFields_of_plainCommand hp).symm
      | true =>
        cases hv : verifyCommand opc with
        | none => simp [hp, hv] at h
        | some k =>
          obtain rfl : k = i := by simpa [hp, hv] using h
          exact (instrFields_of_verifyCommand hv).symm

theorem eq_encode_of_cmdFields {w : Word} {i : Instr} (h : cmdFields w = instrFields i) : w = encode i := by
  rw [encode, ← h, packFields_cmdFields]

theorem decode_eq_ok_iff (w : Word) (i : Instr) : decode w = .ok i ↔ w = encode i := by
  constructor
  · exact fun h => eq_encode_of_cmdFields (cmdFields_of_decode h)
  · rintro rfl
    exact decode_encode i

/-- The byte decoder on a string that begins with a word (R121). -/
theorem decodeBytes_be32_append (w : Word) (rest : Bytes) :
    decodeBytes (be32 w ++ rest) = (decode w).map (·, rest) := by
  have hw := rd32_be32 w
  obtain ⟨b0, b1, b2, b3, hb⟩ := List.length_eq_four.1 (length_be32 w)
  rw [hb] at hw ⊢
  simp only [List.cons_append, List.nil_append, decodeBytes, hw]
  cases decode w <;> rfl

theorem decodeBytes_of_short {s : Bytes} (h : s.length < 4) : decodeBytes s = .error .tooShort := by
  match s with
  | [] | [_] | [_, _] | [_, _, _] => rfl
  | _ :: _ :: _ :: _ :: _ => simp at h; omega

/-- A string of at least four bytes begins with a word. -/
theorem eq_be32_append {s : Bytes} (h : 4 ≤ s.length) : s = be32 (rd32 s 0) ++ s.drop 4 := by
  rw [be32_rd32 s 0 (by omega)]
  exact (List.take_append_drop 4 s).symm

theorem decodeBytes_eq_ok_iff (s : Bytes) (i : Instr) (rest : Bytes) :
    decodeBytes s = .ok (i, rest) ↔ s = encodeBytes i ++ rest := by
  constructor
  · intro h
    by_cases hl : s.length < 4
    · rw [decodeBytes_of_short hl] at h
      cases h
    · have hs := eq_be32_append (Nat.le_of_not_lt hl)
      generalize rd32 s 0 = w at hs
      rw [hs, decodeBytes_be32_append] at h
      cases hd : decode w with
      | error e =>
        rw [hd] at h
        cases h
      | ok j =>
        rw [hd] at h
        cases h
        rw [hs, (decode_eq_ok_iff w i).1 hd]
        rfl
  · rintro rfl
    rw [encodeBytes, decodeBytes_be32_append, decode_encode]
    rfl

/-- Settles O2: the fields of a word are the whole word, and the decoder accepts only a command's own fields; a string
of four bytes or more is a word and a rest. -/
theorem decodeAndEncodeAgree : Obligations.DecodeAndEncodeAgree :=
  ⟨decode_eq_ok_iff, fun i rest => (decodeBytes_eq_ok_iff _ i rest).2 rfl,
    fun s i rest => (decodeBytes_eq_ok_iff s i rest).1⟩

/-- The rows of the map with V = 0 are the operation codes of R123. -/
theorem isSome_plainCommand : ∀ opc, (plainCommand opc).isSome = legalOpcs.contains opc := by decide

/-- The rows of the map with V = 1 are the operation codes that R123 admits with V. -/
theorem isSome_verifyCommand : ∀ opc, (verifyCommand opc).isSome = verifyOpcs.contains opc := by decide

/-- Well-formed fields are the fields of some command's word (R122, R123). -/
theorem exists_instrFields_of_wellFormed {c : Cmd32} (h : c.wellFormed = true) : ∃ i, c = instrFields i := by
  obtain ⟨opc, v, rsvd⟩ := c
  simp only [Cmd32.wellFormed, ← isSome_plainCommand, ← isSome_verifyCommand, Bool.and_eq_true, beq_iff_eq] at h
  obtain ⟨⟨rfl, hopc⟩, hv⟩ := h
  cases v with
  | false =>
    obtain ⟨i, hi⟩ := Option.isSome_iff_exists.1 hopc
    exact ⟨i, (instrFields_of_plainCommand hi).symm⟩
  | true =>
    obtain ⟨i, hi⟩ := Option.isSome_iff_exists.1 hv
    exact ⟨i, (instrFields_of_verifyCommand hi).symm⟩

/-- `legal` of R123 on a word is well-formedness of its fields. -/
theorem wellFormed_cmdFields (w : Word) : (cmdFields w).wellFormed = legalWord w := by
  simp [Cmd32.wellFormed, legalWord, cmdFields]

theorem legalWord_iff_exists_encode (w : Word) : legalWord w = true ↔ ∃ i, w = encode i := by
  constructor
  · intro h
    obtain ⟨i, hi⟩ := exists_instrFields_of_wellFormed ((wellFormed_cmdFields w).trans h)
    exact ⟨i, eq_encode_of_cmdFields hi⟩
  · rintro ⟨i, rfl⟩
    exact legalWord_of_decode (decode_encode i)

/-- The commands in the order of the rows of R122. -/
def allInstrs : List Instr :=
  [.derive, .close, .encrypt, .decrypt, .mac, .encFrame, .decHdr, .decHdrV, .parseHello, .probe, .sealFrame, .openFrame,
    .openFrameV]

theorem mem_allInstrs (i : Instr) : i ∈ allInstrs := by cases i <;> decide

/-- Settles O3: the 13 words are the words of the commands, and a word that decodes to a command is that command's. -/
theorem legalWordsAreTheThirteen : Obligations.LegalWordsAreTheThirteen := by
  intro w
  rw [legalWord_iff_exists_encode]
  constructor
  · change _ ↔ w ∈ allInstrs.map encode
    simp [mem_allInstrs, eq_comm]
  · simp only [decode_eq_ok_iff]

/-- Settles O1: each of the words is the word of the command of its row. -/
theorem tableWordsDecode : Obligations.TableWordsDecode := by
  have row : ∀ {w i}, w = encode i → decode w = .ok i := (decode_eq_ok_iff _ _).2
  exact ⟨row rfl, row rfl, row rfl, row rfl, row rfl, row rfl, row rfl, row rfl, row rfl, row rfl, row rfl, row rfl,
    row rfl⟩

end Sys2Proof
end

section
/-! Which commands write the staged token, the handshake result, the RX registers and DIGEST (R125). -/

namespace Sys2Proof.Machine

/-- On success only DERIVE and CLOSE write the staged token, and DEVID and STAMP, the RX registers and DIGEST are written
by the commands of R125's column only. -/
theorem registers_of_bodyOf_ok {p : Params} {i : Instr} {s t : State} (h : bodyOf p i s = .ok t) :
    (i ≠ .derive → i ≠ .close → t.tokenWr = s.tokenWr ∧ t.stagedToken = s.stagedToken) ∧
    (i ≠ .derive → i ≠ .close → i ≠ .parseHello → t.devid = s.devid ∧ t.stamp = s.stamp) ∧
    (i ≠ .decHdr → i ≠ .decHdrV → i ≠ .openFrame → i ≠ .openFrameV →
      t.rxMagic = s.rxMagic ∧ t.rxTotlen = s.rxTotlen ∧ t.rxDevid = s.rxDevid ∧ t.rxStamp = s.rxStamp ∧
      t.rxCksum = s.rxCksum) ∧
    (i ≠ .close → i ≠ .mac → i ≠ .encFrame → i ≠ .sealFrame → i ≠ .decHdrV → i ≠ .openFrameV →
      t.digest = s.digest) := by
  unfold State.stagedToken
  cases i with
  | derive => obtain ⟨-, rfl⟩ := (deriveBody_ok _ _ _).1 h; simp
  | close => obtain ⟨-, rfl⟩ := (closeBody_ok _ _).1 h; simp
  | encrypt => obtain ⟨-, -, -, -, rfl⟩ := (encryptBody_ok _ _ _).1 h; simp
  | decrypt => obtain ⟨-, -, -, q, -, -, rfl⟩ := (decryptBody_ok _ _ _).1 h; simp
  | mac => obtain ⟨-, -, -, rfl⟩ := (macBody_ok _ _ _).1 h; simp
  | encFrame => obtain ⟨-, -, -, -, -, rfl⟩ := (encFrameBody_ok _ _ _).1 h; simp
  | decHdr => obtain ⟨-, -, -, rfl⟩ := (decHdrBody_ok _ _ _).1 h; simp
  | decHdrV => obtain ⟨-, -, -, -, rfl⟩ := (decHdrVBody_ok _ _ _).1 h; simp
  | parseHello => obtain ⟨-, -, -, rfl⟩ := (parseHelloBody_ok _ _ _).1 h; simp
  | probe => obtain ⟨-, -, -, rfl⟩ := (probeBody_ok _ _ _).1 h; simp
  | sealFrame => obtain ⟨-, -, -, -, -, rfl⟩ := (sealBody_ok _ _ _).1 h; simp
  | openFrame => obtain ⟨-, -, -, -, q, -, -, rfl⟩ := (openBody_ok _ _ _).1 h; simp
  | openFrameV => obtain ⟨-, -, -, -, -, q, -, -, rfl⟩ := (openVBody_ok _ _ _).1 h; simp

/-- Settles O50: a success writes what its pseudocode names; a failure discards all of it, and the report writes none of
these registers. -/
theorem commandsWriteOnlyTheirRegisters : Obligations.CommandsWriteOnlyTheirRegisters := by
  intro i s t h
  obtain ⟨u, hu, rfl⟩ | ⟨e, -, rfl⟩ := exec_inversion h
  · obtain ⟨hstage, hhello, hrx, hdigest⟩ := registers_of_bodyOf_ok hu
    refine ⟨fun hd hc => ?_, hhello, hrx, hdigest⟩
    obtain ⟨hconn, htok, hkey, hiv, -⟩ := link_of_bodyOf_ok hu hd hc
    exact ⟨hconn, htok, hkey, hiv, hstage hd hc⟩
  · simp [State.stagedToken]

end Sys2Proof.Machine
end

section
/-! The byte-level steps of AES-128 undone (R173 to R176): each step of a round has its inverse, so the inverse cipher
takes the rounds back one by one. -/

namespace Sys2Proof

theorem length_xorBytes (s t : Bytes) : (xorBytes s t).length = min s.length t.length := by
  simp [xorBytes]

/-- Adding the same round key twice gives the state back (`AddRoundKey` of R175). -/
theorem xorBytes_xorBytes_cancel {s t : Bytes} (h : s.length ≤ t.length) : xorBytes (xorBytes s t) t = s := by
  induction s generalizing t with
  | nil => simp [xorBytes]
  | cons a s ih =>
    cases t with
    | nil => simp at h
    | cons b t =>
      have hab : a ^^^ b ^^^ b = a := by rw [BitVec.xor_assoc, BitVec.xor_self, BitVec.xor_zero]
      simpa [xorBytes, hab] using ih (by simpa using h)

theorem length_nextRoundKey (r : Nat) {rk : Bytes} (h : rk.length = 16) :
    (nextRoundKey r rk).length = 16 := by
  simp [nextRoundKey, length_xorBytes, slice_length, keyCore, h]

/-- Every round key has 16 bytes (R174). -/
@[simp] theorem length_roundKey {k : Bytes} (h : k.length = 16) (r : Nat) : (roundKey k r).length = 16 := by
  induction r with
  | zero => exact h
  | succ r ih => exact length_nextRoundKey r ih

@[simp] theorem length_subBytes (s : Bytes) : (subBytes s).length = s.length := List.length_map _
@[simp] theorem length_shiftRows (s : Bytes) : (shiftRows s).length = 16 := by simp [shiftRows]
@[simp] theorem length_invShiftRows (s : Bytes) : (invShiftRows s).length = 16 := by simp [invShiftRows]
@[simp] theorem length_mixColumns (s : Bytes) : (mixColumns s).length = 16 := by simp [mixColumns]
@[simp] theorem length_invMixColumns (s : Bytes) : (invMixColumns s).length = 16 := by simp [invMixColumns]

/-- The two tables of R173 are inverse to each other. -/
theorem invSubByte_subByte : ∀ a : Byte, invSubByte (subByte a) = a := by decide

theorem invSubBytes_subBytes (s : Bytes) : invSubBytes (subBytes s) = s := by
  simp [invSubBytes, subBytes, Function.comp_def, invSubByte_subByte]

/-- Two cipher states are equal when their 16 entries are. -/
theorem eq_of_entries {s t : Bytes} (hs : s.length = 16) (ht : t.length = 16)
    (h : ∀ i < 16, s.getD i 0 = t.getD i 0) : s = t := by
  refine List.ext_getElem (hs.trans ht.symm) fun i hi hi' => ?_
  simpa [List.getD_eq_getElem?_getD, hi, hi'] using h i (hs ▸ hi)

/-- An entry of a state that is given entry by entry. -/
theorem getD_map_range (f : Nat → Byte) {i : Nat} (hi : i < 16) : ((List.range 16).map f).getD i 0 = f i := by
  simp [List.getD_eq_getElem?_getD, hi]

theorem invShiftRows_shiftRows {s : Bytes} (h : s.length = 16) : invShiftRows (shiftRows s) = s := by
  refine eq_of_entries (length_invShiftRows _) h fun i hi => ?_
  rw [invShiftRows, getD_map_range _ hi, shiftRows, getD_map_range _ (by omega)]
  congr 1
  omega

/-- The constant by which doubling reduces (R173). -/
theorem xtime_eq (a : Byte) : xtime a = a <<< 1 ^^^ (if a.msb then 0x1B else 0) := by
  unfold xtime
  split <;> simp

/-- Doubling is additive: the sum is reduced when exactly one of the two is. -/
theorem xtime_xor (a b : Byte) : xtime (a ^^^ b) = xtime a ^^^ xtime b := by
  have hreduce : (if (a ^^^ b).msb then 0x1B else 0 : Byte) =
      (if a.msb then 0x1B else 0) ^^^ (if b.msb then 0x1B else 0) := by
    rw [BitVec.msb_xor]
    cases a.msb <;> cases b.msb <;> rfl
  rw [xtime_eq, xtime_eq, xtime_eq, hreduce, BitVec.shiftLeft_xor_distrib]
  ac_rfl

theorem gmulBits_xor (n : Nat) (k a b : Byte) : gmulBits n k (a ^^^ b) = gmulBits n k a ^^^ gmulBits n k b := by
  induction n generalizing k a b with
  | zero => exact BitVec.xor_self.symm
  | succ n ih =>
    simp only [gmulBits, xtime_xor, ih]
    split
    · rfl
    · split
      · ac_rfl
      · rfl

/-- The field product is additive in its second factor. -/
theorem gmul_xor (k a b : Byte) : gmul k (a ^^^ b) = gmul k a ^^^ gmul k b := gmulBits_xor 8 k a b

/-- The first row of the product of the two coefficient matrices of R175, as it acts on a byte: the identity's row. -/
theorem invMix_mix_coefficients : ∀ a : Byte,
    gmul 14 (gmul 2 a) ^^^ gmul 11 (gmul 1 a) ^^^ gmul 13 (gmul 1 a) ^^^ gmul 9 (gmul 3 a) = a ∧
    gmul 14 (gmul 3 a) ^^^ gmul 11 (gmul 2 a) ^^^ gmul 13 (gmul 1 a) ^^^ gmul 9 (gmul 1 a) = 0 ∧
    gmul 14 (gmul 1 a) ^^^ gmul 11 (gmul 3 a) ^^^ gmul 13 (gmul 2 a) ^^^ gmul 9 (gmul 1 a) = 0 ∧
    gmul 14 (gmul 1 a) ^^^ gmul 11 (gmul 1 a) ^^^ gmul 13 (gmul 3 a) ^^^ gmul 9 (gmul 2 a) = 0 := by decide

/-- The two column mixes give the entry back: the terms, ordered by entry, have the coefficients of the identity. -/
theorem invMix_mix_column (a b c d : Byte) :
    gmul 14 (gmul 2 a ^^^ gmul 3 b ^^^ gmul 1 c ^^^ gmul 1 d) ^^^
    gmul 11 (gmul 2 b ^^^ gmul 3 c ^^^ gmul 1 d ^^^ gmul 1 a) ^^^
    gmul 13 (gmul 2 c ^^^ gmul 3 d ^^^ gmul 1 a ^^^ gmul 1 b) ^^^
    gmul 9 (gmul 2 d ^^^ gmul 3 a ^^^ gmul 1 b ^^^ gmul 1 c) = a := by
  obtain ⟨ha, -⟩ := invMix_mix_coefficients a
  obtain ⟨-, hb, -⟩ := invMix_mix_coefficients b
  obtain ⟨-, -, hc, -⟩ := invMix_mix_coefficients c
  obtain ⟨-, -, -, hd⟩ := invMix_mix_coefficients d
  simp only [gmul_xor]
  calc _ = (gmul 14 (gmul 2 a) ^^^ gmul 11 (gmul 1 a) ^^^ gmul 13 (gmul 1 a) ^^^ gmul 9 (gmul 3 a)) ^^^
      (gmul 14 (gmul 3 b) ^^^ gmul 11 (gmul 2 b) ^^^ gmul 13 (gmul 1 b) ^^^ gmul 9 (gmul 1 b)) ^^^
      (gmul 14 (gmul 1 c) ^^^ gmul 11 (gmul 3 c) ^^^ gmul 13 (gmul 2 c) ^^^ gmul 9 (gmul 1 c)) ^^^
      (gmul 14 (gmul 1 d) ^^^ gmul 11 (gmul 1 d) ^^^ gmul 13 (gmul 3 d) ^^^ gmul 9 (gmul 2 d)) := by ac_rfl
    _ = a ^^^ 0 ^^^ 0 ^^^ 0 := by rw [ha, hb, hc, hd]
    _ = a := by simp

/-- Entry `j` of the column that entry `i` lies in, counted from `i` and round the column. -/
def columnEntry (s : Bytes) (i j : Nat) : Byte := s.getD ((i + j) % 4 + 4 * (i / 4)) 0

theorem mixEntry_eq (k0 k1 k2 k3 : Byte) (s : Bytes) (i : Nat) : mixEntry k0 k1 k2 k3 s i =
    gmul k0 (columnEntry s i 0) ^^^ gmul k1 (columnEntry s i 1) ^^^ gmul k2 (columnEntry s i 2) ^^^
      gmul k3 (columnEntry s i 3) := rfl

theorem columnEntry_zero (s : Bytes) (i : Nat) : columnEntry s i 0 = s.getD i 0 := by
  rw [columnEntry]; congr 1; omega

theorem columnEntry_mod (s : Bytes) (i j : Nat) : columnEntry s i (j % 4) = columnEntry s i j := by
  rw [columnEntry, columnEntry, Nat.add_mod_mod]

/-- Counting on from another entry of the same column. -/
theorem columnEntry_columnEntry (s : Bytes) (i j l : Nat) :
    columnEntry s ((i + j) % 4 + 4 * (i / 4)) l = columnEntry s i (j + l) := by
  unfold columnEntry; congr 1; omega

theorem columnEntry_mixColumns (s : Bytes) {i : Nat} (j : Nat) (hi : i < 16) :
    columnEntry (mixColumns s) i j =
      gmul 2 (columnEntry s i (j % 4)) ^^^ gmul 3 (columnEntry s i ((j + 1) % 4)) ^^^
        gmul 1 (columnEntry s i ((j + 2) % 4)) ^^^ gmul 1 (columnEntry s i ((j + 3) % 4)) := by
  rw [columnEntry, mixColumns, getD_map_range _ (by omega), mixEntry_eq]
  simp only [columnEntry_columnEntry, columnEntry_mod, Nat.add_zero]

theorem invMixColumns_mixColumns {s : Bytes} (h : s.length = 16) : invMixColumns (mixColumns s) = s := by
  refine eq_of_entries (length_invMixColumns _) h fun i hi => ?_
  rw [invMixColumns, getD_map_range _ hi, mixEntry_eq]
  simp only [columnEntry_mixColumns s _ hi, Nat.reduceMod, Nat.reduceAdd]
  rw [invMix_mix_column, columnEntry_zero]

@[simp] theorem length_encRounds {k s : Bytes} (hk : k.length = 16) (hs : s.length = 16) (n : Nat) :
    (encRounds k n s).length = 16 := by
  cases n with
  | zero => exact hs
  | succ n => simp [encRounds, length_xorBytes, hk]

/-- `InvShiftRows` and `InvSubBytes` undo `SubBytes` and `ShiftRows`. -/
theorem invSubBytes_invShiftRows_cancel {s : Bytes} (h : s.length = 16) :
    invSubBytes (invShiftRows (shiftRows (subBytes s))) = s := by
  rw [invShiftRows_shiftRows (by simpa using h), invSubBytes_subBytes]

/-- The rounds of the inverse cipher take the rounds of the cipher back, last one first; between two rounds the inverse
cipher stands after `ShiftRows` of the next one (R176). -/
theorem decRounds_encRounds {k s : Bytes} (hk : k.length = 16) (hs : s.length = 16) (n : Nat) :
    decRounds k n (shiftRows (subBytes (encRounds k n s))) = shiftRows (subBytes s) := by
  induction n with
  | zero => rfl
  | succ n ih =>
    rw [decRounds, invSubBytes_invShiftRows_cancel (length_encRounds hk hs _), encRounds,
      xorBytes_xorBytes_cancel (by simp [hk]), invMixColumns_mixColumns (length_shiftRows _), ih]

/-- A string of 16 bytes is the bytes of its block. -/
theorem be128_rd128_of_length {s : Bytes} (h : s.length = 16) : be128 (rd128 s 0) = s := by
  rw [be128_rd128 s 0 h.ge, Nat.zero_add, slice_full_of_eq s 16 h]

/-- The law of R151 for AES-128. -/
theorem aes128Dec_aes128Enc (k b : Block) : aes128Dec k (aes128Enc k b) = b := by
  have hk : (be128 k).length = 16 := length_be128 k
  have hs : (xorBytes (be128 b) (roundKey (be128 k) 0)).length = 16 := by simp [length_xorBytes, hk]
  simp only [aes128Dec, aes128Enc]
  rw [be128_rd128_of_length (by simp [length_xorBytes, hk]), xorBytes_xorBytes_cancel (by simp [hk]),
    decRounds_encRounds hk hs, invSubBytes_invShiftRows_cancel hs, xorBytes_xorBytes_cancel (by simp [hk]), rd128_be128]

/-- Settles O33: the cipher pair of this hardware is AES-128. -/
theorem cipherPairIsInverse : Obligations.CipherPairIsInverse := aes128Dec_aes128Enc

end Sys2Proof
end

section
/-! Lengths of ciphertexts (R158), the first block of a chain (R160), and decryption as the inverse of encryption for
every cipher pair that keeps the law of R151 (R159). -/

namespace Sys2Proof.Machine

/-- A ciphertext has the length of the padded plaintext (R158). -/
@[simp] theorem length_encryptBytes (p : Params) (k v : Block) (x : Bytes) :
    (encryptBytes p k v x).length = 16 * (x.length / 16 + 1) := by
  rw [encryptBytes, length_cbcEnc, length_pad, Nat.mul_div_cancel_left _ (by decide)]

theorem decryptBytes_of_aligned (p : Params) (k v : Block) {c : Bytes} (h : c.length % 16 = 0) :
    decryptBytes p k v c = unpad p.padCheck (cbcDec p k v c) := if_neg (not_not.2 h)

/-- A successful decryption had whole blocks to decrypt, and padding to take off (R157). -/
theorem decryptBytes_ok {p : Params} {k v : Block} {c q : Bytes} (h : decryptBytes p k v c = .ok q) :
    c.length % 16 = 0 ∧ unpad p.padCheck (cbcDec p k v c) = .ok q := by
  unfold decryptBytes at h
  split at h
  · cases h
  · exact ⟨by omega, h⟩

/-- Settles O30: padding adds 1 to 16 bytes, and the chains keep the length of whole blocks. -/
theorem ciphertextLength : Obligations.CiphertextLength := by
  refine fun p k v => ⟨length_encryptBytes p k v, fun c q h => ?_⟩
  obtain ⟨haligned, hunpad⟩ := decryptBytes_ok h
  have hq := unpad_ok_length _ _ _ hunpad
  rw [length_cbcDec] at hq
  omega

/-- Valid padding is taken off under either check (R154). -/
theorem unpad_append_padding (check : PadCheck) (x : Bytes) {n : Nat} (hpos : 0 < n) (hle : n ≤ 16) :
    unpad check (x ++ List.replicate n (BitVec.ofNat 8 n)) = .ok x := by
  have hlast : (x ++ List.replicate n (BitVec.ofNat 8 n)).getD (x.length + n - 1) 0 = BitVec.ofNat 8 n := by
    rw [List.getD_append_right _ _ _ _ (by omega), List.getD_replicate _ (by omega)]
  have hcount : n % 256 = n := Nat.mod_eq_of_lt (by omega)
  simp only [unpad, List.length_append, List.length_replicate, hlast, BitVec.toNat_ofNat, hcount, Nat.reducePow,
    Nat.add_sub_cancel, List.drop_left, List.take_left]
  rw [if_neg (by omega), if_neg (by omega), if_neg (fun h => h.2 rfl)]

/-- Unpadding undoes padding (R153, R154). -/
theorem unpad_pad (check : PadCheck) (x : Bytes) : unpad check (pad x) = .ok x :=
  unpad_append_padding check x (by omega) (by omega)

/-- The chain of R156 undoes the chain of R155, block by block: both carry the ciphertext block before. -/
theorem cbcDecBlocks_cbcEncBlocks {p : Params} (hp : p.Inverse) (k v : Block) (bs : List Block) :
    cbcDecBlocks p k v (cbcEncBlocks p k v bs) = bs := by
  induction bs generalizing v with
  | nil => rfl
  | cons b bs ih =>
    rw [cbcEncBlocks, cbcDecBlocks, ih, hp, BitVec.xor_assoc, BitVec.xor_self, BitVec.xor_zero]

theorem cbcDec_cbcEnc {p : Params} (hp : p.Inverse) (k v : Block) {s : Bytes} (h : s.length % 16 = 0) :
    cbcDec p k v (cbcEnc p k v s) = s := by
  rw [cbcDec, cbcEnc, toBlocks_ofBlocks, cbcDecBlocks_cbcEncBlocks hp, ofBlocks_toBlocks s h]

theorem decryptBytes_encryptBytes {p : Params} (hp : p.Inverse) (k v : Block) (x : Bytes) :
    decryptBytes p k v (encryptBytes p k v x) = .ok x := by
  rw [decryptBytes_of_aligned _ _ _ (by simp), encryptBytes, cbcDec_cbcEnc hp k v (pad_length_mod x), unpad_pad]

/-- Settles O31: the chains cancel under the law of R151, and so does the padding. -/
theorem cipherRoundTrip : Obligations.CipherRoundTrip := fun _ hp => decryptBytes_encryptBytes hp

/-- The first block of a chain is the encryption of the first block and the iv (R155). -/
theorem take_cbcEnc (p : Params) (k v : Block) {s : Bytes} (h : 16 ≤ s.length) :
    (cbcEnc p k v s).take 16 = be128 (p.enc k (rd128 (s.take 16) 0 ^^^ v)) := by
  obtain ⟨n, hn⟩ : ∃ n, s.length / 16 = n + 1 := ⟨s.length / 16 - 1, by omega⟩
  simp only [cbcEnc, toBlocks, hn, pieces, List.map_cons, cbcEncBlocks, ofBlocks, List.flatMap_cons]
  exact List.take_left' (length_be128 _)

theorem take_pad {x : Bytes} {n : Nat} (h : n ≤ x.length) : (pad x).take n = x.take n :=
  List.take_append_of_le_length h

/-- Settles O32: padding does not reach the first block of a string of at least one block. -/
theorem firstBlockDependsOnFirstBlock : Obligations.FirstBlockDependsOnFirstBlock := by
  intro p k v x y hx hy hxy
  rw [encryptBytes, encryptBytes, take_cbcEnc _ _ _ (by rw [length_pad]; omega),
    take_cbcEnc _ _ _ (by rw [length_pad]; omega), take_pad hx, take_pad hy, hxy]

end Sys2Proof.Machine
end

section
/-! A frame that the block builds, read back field by field (R240 to R246), and a sealed frame opened (R300 to R302). -/

namespace Sys2Proof.Machine

theorem slice_frameOf_prefix (p : Params) (s : State) (b : Bytes) :
    slice (frameOf p s b) 0 16 = headerPrefix p s b.length := by
  rw [frameOf, List.append_assoc, slice_append_left _ _ _ _ (by simp), slice_full_of_eq _ _ (by simp)]

theorem slice_frameOf_cksum (p : Params) (s : State) (b : Bytes) :
    slice (frameOf p s b) 16 32 = be128 (bodyCksum p s b) := by
  rw [frameOf, slice_append_left _ _ _ _ (by simp), slice_append_right _ _ _ _ (by simp),
    length_headerPrefix, slice_full_of_eq _ _ (length_be128 _)]

theorem slice_frameOf_body (p : Params) (s : State) (b : Bytes) :
    slice (frameOf p s b) 32 (frameOf p s b).length = b := by
  have hpre : (headerPrefix p s b.length ++ be128 (bodyCksum p s b)).length = 32 := by simp
  rw [length_frameOf, frameOf, slice_append_right _ _ _ _ hpre.le, hpre, Nat.sub_self, Nat.add_sub_cancel_left,
    slice_full]

/-- The checksum of a built frame under the token it was built with is the one that stands in it (R240, R247). -/
theorem frameCksum_frameOf (p : Params) {s u : State} (h : u.tok = s.tok) (b : Bytes) :
    frameCksum p u (frameOf p s b) = bodyCksum p s b := by
  rw [frameCksum, slice_frameOf_prefix, slice_frameOf_body, h, bodyCksum]

theorem rd16_frameOf_totlen (p : Params) (s : State) (b : Bytes) :
    rd16 (frameOf p s b) 2 = BitVec.ofNat 16 (32 + b.length) := by
  simp only [frameOf, headerPrefix, List.append_assoc]
  rw [rd16_append_right _ _ _ (by simp), rd16_append_left _ _ _ (by simp), length_be16, rd16_be16]

theorem rd32_frameOf_devid (p : Params) (s : State) (b : Bytes) : rd32 (frameOf p s b) 8 = s.devid := by
  rw [frameOf, List.append_assoc, rd32_append_left _ _ _ (by simp), headerPrefix, rd32_append_left _ _ _ (by simp),
    rd32_append_right _ _ _ (by simp)]
  exact rd32_be32 _

theorem rd32_frameOf_stamp (p : Params) (s : State) (b : Bytes) : rd32 (frameOf p s b) 12 = s.stamp := by
  rw [frameOf, List.append_assoc, rd32_append_left _ _ _ (by simp), headerPrefix, rd32_append_right _ _ _ (by simp)]
  exact rd32_be32 _

/-- What SEAL leaves: the frame of the ciphertext in OUT, its length in OUT_LEN and its checksum in DIGEST; the frame
fits both lengths' bounds. -/
theorem sealBody_frame {p : Params} {s t : State} (h : sealBody p s = .ok t) :
    let f := frameOf p s (encryptBytes p s.key s.iv s.input)
    t.outLen.toNat = f.length ∧ t.memRead .output 0 t.outLen.toNat = f ∧
      t.digest = bodyCksum p s (encryptBytes p s.key s.iv s.input) ∧ f.length ≤ p.bufBytes := by
  intro f
  obtain ⟨-, -, hcap, -, hfit, rfl⟩ := (sealBody_ok _ _ _).1 h
  have hf : f.length ≤ s.outCap.toNat := (length_frameOf p s _).le.trans hfit
  have hlen : (BitVec.ofNat 16 f.length).toNat = f.length := by
    have := s.outCap.isLt
    rw [BitVec.toNat_ofNat, Nat.mod_eq_of_lt (by omega)]
  refine ⟨hlen, ?_, rfl, hf.trans hcap⟩
  exact (congrArg _ hlen).trans (memRead_write_output _ s.outBuf f rfl)

/-- A frame received with the sender's token, key and iv: its checksum is the one it carries, and its body decrypts to
what was sealed (R159, R240). -/
theorem received_frame {p : Params} (hp : p.Inverse) {s u : State} (htok : u.tok = s.tok) (hkey : u.key = s.key)
    (hiv : u.iv = s.iv) {x : Bytes} (hin : u.input = frameOf p s (encryptBytes p s.key s.iv x)) :
    frameCksum p u u.input = bodyCksum p s (encryptBytes p s.key s.iv x) ∧
    be128 (frameCksum p u u.input) = slice u.input 16 32 ∧
    decryptBytes p u.key u.iv (slice u.input 32 u.inLen.toNat) = .ok x := by
  have hck : frameCksum p u u.input = bodyCksum p s (encryptBytes p s.key s.iv x) := by
    rw [hin, frameCksum_frameOf p htok]
  refine ⟨hck, by rw [hck, hin, slice_frameOf_cksum], ?_⟩
  rw [← length_input, hin, slice_frameOf_body, hkey, hiv, decryptBytes_encryptBytes hp]

/-- Settles O46: the received frame passes the checks of OPEN.V and decrypts to the plaintext; its header holds what it
was sealed from.  OPEN delivers the same, and OPEN.V the checksum besides. -/
theorem sealedFrameOpens : Obligations.SealedFrameOpens := by
  intro p hp s t u hseal hconn htok hkey hiv hlen hread hcap hroom
  obtain ⟨houtLen, hout, hdigest, hfit⟩ := sealBody_frame hseal
  have hin := hread.trans hout
  obtain ⟨hck, hfield, hplain⟩ := received_frame hp htok hkey hiv hin
  have hinLen : u.inLen.toNat = 32 + (encryptBytes p s.key s.iv s.input).length := by
    rw [hlen, houtLen, length_frameOf]
  have hfits : u.inLen.toNat ≤ p.bufBytes := by rwa [hlen, houtLen]
  have hlong : 32 ≤ u.inLen.toNat := by omega
  have hroom' : s.input.length ≤ u.outCap.toNat := by rwa [length_input]
  let v := (u.writeOut s.input).latchHeader u.input
  have hlenOut : v.outLen = s.inLen := by simp [v]
  have hplainOut : v.memRead .output 0 s.inLen.toNat = s.input := by
    rw [← length_input s]
    exact memRead_write_output v u.outBuf _ rfl
  have hdevid : v.rxDevid = s.devid := by simp [v, hin, rd32_frameOf_devid]
  have hstamp : v.rxStamp = s.stamp := by simp [v, hin, rd32_frameOf_stamp]
  have htotlen : v.rxTotlen = t.outLen := by
    simp only [v, State.latchHeader_rxTotlen, hin, rd16_frameOf_totlen]
    rw [← hinLen, hlen, BitVec.ofNat_toNat, BitVec.setWidth_eq]
  exact ⟨⟨_, (openVBody_ok _ _ _).2 ⟨hconn, hfits, hcap, hlong, hfield, _, hplain, hroom', rfl⟩,
      hlenOut, hplainOut, hdevid, hstamp, htotlen, hck.trans hdigest.symm⟩,
    _, (openBody_ok _ _ _).2 ⟨hconn, hfits, hcap, hlong, _, hplain, hroom', rfl⟩,
      hlenOut, hplainOut, hdevid, hstamp, htotlen⟩

end Sys2Proof.Machine
end

section
/-! DERIVE and CLOSE: what each leaves (R200, R202), that the derived key and iv depend on the staged token only (R201),
and that nothing but a DERIVE that succeeds opens a connection (R32). -/

namespace Sys2Proof.Machine

/-- The staged token as 16 bytes (R42). -/
theorem be128_stagedToken (s : State) :
    be128 s.stagedToken = be32 s.token0 ++ be32 s.token1 ++ be32 s.token2 ++ be32 s.token3 :=
  be128_append _ _ _ _

/-- DERIVE with all four words of the token written (R200). -/
theorem exec_derive_of_staged {s : State} (h : s.tokenWr = 0b1111) :
    exec .derive s = .next ((s.clearLink.openLink s.stagedToken (keyOf hw s.stagedToken)
      (ivOf hw s.stagedToken)).reporting 0x01 false 0x00) :=
  exec_reports_ok ((deriveBody_ok _ _ _).2 ⟨h, rfl⟩)

/-- DERIVE with a word of the token unwritten stops at its one check (R200). -/
theorem bodyOf_derive_of_unstaged (p : Params) {s : State} (h : s.tokenWr ≠ 0b1111) :
    bodyOf p .derive s = .error .invalidToken := if_pos h

/-- Settles O24: the mask alone decides, and the bytes of the staged token are those of its four words. -/
theorem deriveCommand : Obligations.DeriveCommand := by
  refine ⟨decode_encode .derive, fun s => ⟨fun h => ?_, fun h => ?_⟩⟩
  · exact exec_reports_error (bodyOf_derive_of_unstaged hw h)
  · simp only [← be128_stagedToken, rd128_be128]
    exact exec_derive_of_staged h

/-- Settles O25: DERIVE computes KEY and IV from the staged token and nothing else. -/
theorem deriveIsDeterministic : Obligations.DeriveIsDeterministic := by
  intro s s' hs hs' htok
  exact ⟨_, _, exec_derive_of_staged hs, exec_derive_of_staged hs', rfl, rfl,
    congrArg (keyOf hw) htok, congrArg (ivOf hw) htok⟩

/-- A command that finds no connection and leaves one is a DERIVE that succeeded (R32, R202). -/
theorem derive_of_exec_opens {i : Instr} {s t : State} (h : exec i s = .next t) (hs : s.conn = false)
    (ht : t.conn = true) : i = .derive ∧ t.resCode = 0 := by
  obtain ⟨u, hu, rfl⟩ | ⟨e, -, rfl⟩ := exec_inversion h
  · refine ⟨?_, rfl⟩
    by_contra hi
    simp [conn_of_bodyOf_ok hu hi] at hs
  · simp [hs] at ht

/-- A step that opens a connection is the completion of a DERIVE that succeeds: bus transactions leave CONN alone, Reset
clears it and an illegal word only reports (R32, R202, R331). -/
theorem derive_of_step_opens {s t : State} (h : step s = .next t) (hs : s.conn = false) (ht : t.conn = true) :
    (∃ rest, s.CompletesNext rest) ∧ decode s.cmdLatch = .ok .derive ∧ t.resCode = 0 := by
  obtain ⟨-, -, rfl⟩ | ⟨rest, -, -, rfl⟩ | ⟨rest, -, rfl⟩ | ⟨off, size, rest, -, rfl⟩ | ⟨off, size, d, rest, -, rfl⟩ |
    ⟨rest, i, hn, hd, hx⟩ | ⟨rest, e, -, -, rfl⟩ := step_cases h
  · simp [hs] at ht
  · simp [hs] at ht
  · cases ht
  · simp [hs] at ht
  · obtain ⟨hc, -⟩ := busWrite_frame hw s off size d
    simp [hc, hs] at ht
  · obtain ⟨rfl, hr⟩ := derive_of_exec_opens hx hs ht
    exact ⟨⟨rest, hn⟩, hd, hr⟩
  · simp [hs] at ht

/-- Settles O26: CLOSE checks CONN alone; a closed connection refuses every other command and only a DERIVE opens it. -/
theorem closeCommand : Obligations.CloseCommand := by
  refine ⟨decode_encode .close, fun s => ⟨fun hc => ?_, fun hc => ?_, fun hc i hi => ?_, fun hc t h ht => ?_⟩⟩
  · exact exec_reports_error (bodyOf_of_closed hc (by decide))
  · exact ⟨_, exec_reports_ok ((closeBody_ok _ _).2 ⟨hc, rfl⟩), rfl⟩
  · exact ⟨_, closedConnectionRefusesCommands i s hc hi, rfl, hc⟩
  · exact derive_of_step_opens h hc ht

end Sys2Proof.Machine
end

section
/-! ENCRYPT and DECRYPT (R220, R221): the two checks they share with every command that has an input and an output, what
decryption answers for each kind of ciphertext under the strict check, and a success that only writes OUT. -/

namespace Sys2Proof.Machine

/-- The length check passes exactly if both lengths fit (R343). -/
theorem tooLong_iff_not_lengthsFit (p : Params) (s : State) :
    s.inTooLong p = true ∨ s.capTooLong p = true ↔ ¬ s.LengthsFit p := by
  simp only [State.inTooLong, State.capTooLong, State.LengthsFit, decide_eq_true_eq]
  omega

/-- Every command that reads IN and writes OUT checks both lengths next after the connection (R338, R343); PROBE reads
no input. -/
theorem bodyOf_of_unfit {p : Params} {i : Instr} {s : State} (hi : writesOut i = true) (hprobe : i ≠ .probe)
    (hc : s.conn = true) (hf : ¬ s.LengthsFit p) : bodyOf p i s = .error .badLen := by
  have hopen : ¬ s.conn = false := by simp [hc]
  have hlong := (tooLong_iff_not_lengthsFit p s).2 hf
  cases i with
  | probe => exact absurd rfl hprobe
  | encrypt | decrypt | encFrame | sealFrame | openFrame | openFrameV => exact (if_neg hopen).trans (if_pos hlong)
  | _ => cases hi

/-- Past its two checks ENCRYPT only emits the ciphertext (R220). -/
theorem bodyOf_encrypt_of_fit {p : Params} {s : State} (hc : s.conn = true) (hf : s.LengthsFit p) :
    bodyOf p .encrypt s = s.emit (encryptBytes p s.key s.iv s.input) :=
  (if_neg (by simp [hc])).trans (if_neg fun h => (tooLong_iff_not_lengthsFit p s).1 h hf)

/-- Past its two checks DECRYPT only delivers the plaintext (R221). -/
theorem bodyOf_decrypt_of_fit {p : Params} {s : State} (hc : s.conn = true) (hf : s.LengthsFit p) :
    bodyOf p .decrypt s = s.emitPlain p s.input :=
  (if_neg (by simp [hc])).trans (if_neg fun h => (tooLong_iff_not_lengthsFit p s).1 h hf)

/-- A command that succeeds by writing `out` to OUT, within the capacity, delivers it and changes nothing else (R92). -/
theorem exec_delivers {i : Instr} {s : State} {out : Bytes} (h : bodyOf hw i s = .ok (s.writeOut out))
    (hcap : out.length ≤ s.outCap.toNat) : ∃ t, exec i s = .next t ∧ Delivers s t out ∧
      t = { s with outBuf := t.outBuf, outLen := t.outLen }.reporting (instrFields i).opc (instrFields i).v 0 :=
  ⟨_, exec_reports_ok h, delivers_of_write (hcap.trans_lt s.outCap.isLt) rfl rfl, rfl⟩

/-- The length test of R157 comes first. -/
theorem decryptBytes_of_unaligned (p : Params) (k v : Block) {c : Bytes} (h : c.length % 16 ≠ 0) :
    decryptBytes p k v c = .error .decAlign := if_pos h

theorem unpad_strict_of_not_padded {q : Bytes} (h : ∀ x, ¬ Padded q x) : unpad .strict q = .error .decPad := by
  cases hu : unpad .strict q with
  | ok x => exact absurd ((unpad_strict_iff q x).1 hu) (h x)
  | error e => rw [unpad_error _ _ _ hu]

theorem decryptBytes_of_not_padded {k v : Block} {c : Bytes} (hc : c.length % 16 = 0)
    (h : ∀ q, ¬ Padded (cbcDec hw k v c) q) : decryptBytes hw k v c = .error .decPad :=
  (decryptBytes_of_aligned hw k v hc).trans (unpad_strict_of_not_padded h)

theorem decryptBytes_of_padded {k v : Block} {c q : Bytes} (hc : c.length % 16 = 0)
    (h : Padded (cbcDec hw k v c) q) : decryptBytes hw k v c = .ok q :=
  (decryptBytes_of_aligned hw k v hc).trans ((unpad_strict_iff _ _).2 h)

/-- Settles O28: past the shared checks the length of the ciphertext alone decides between 0x43 and the delivery. -/
theorem encryptCommand : Obligations.EncryptCommand := by
  refine ⟨decode_encode .encrypt, fun s => ?_⟩
  have hlen : (encryptBytes hw s.key s.iv s.input).length = 16 * (s.inLen.toNat / 16 + 1) := by simp
  refine ⟨fun hc => ?_, fun hc hf => ?_, fun hc hf hcap => ?_, fun hc hf hcap => ?_⟩
  · exact exec_reports_error (bodyOf_of_closed hc (by decide))
  · exact exec_reports_error (bodyOf_of_unfit rfl (by decide) hc hf)
  · have hemit := (emit_error s _ _).2 ⟨hcap.trans_eq hlen.symm, rfl⟩
    exact exec_reports_error ((bodyOf_encrypt_of_fit hc hf).trans hemit)
  · have hroom := hlen.trans_le hcap
    have hemit := (emit_ok s _ _).2 ⟨hroom, rfl⟩
    obtain ⟨t, hx, hd, ht⟩ := exec_delivers ((bodyOf_encrypt_of_fit hc hf).trans hemit) hroom
    exact ⟨t, hx, hd.1.trans hlen, hd, ht⟩

/-- Settles O29: past the shared checks decryption answers 0x31, 0x32 or the plaintext, whose length then decides
between 0x43 and the delivery. -/
theorem decryptCommand : Obligations.DecryptCommand := by
  refine ⟨decode_encode .decrypt, fun s => ?_⟩
  rw [← length_input s]
  refine ⟨fun hc => ?_, fun hc hf => ?_, fun hc hf ha => ?_, fun hc hf ha hp => ?_, fun q hc hf ha hp hcap => ?_,
    fun q hc hf ha hp hcap => ?_⟩
  · exact exec_reports_error (bodyOf_of_closed hc (by decide))
  · exact exec_reports_error (bodyOf_of_unfit rfl (by decide) hc hf)
  · have hplain := (emitPlain_error hw s _ _).2 (.inl (decryptBytes_of_unaligned hw _ _ ha))
    exact exec_reports_error ((bodyOf_decrypt_of_fit hc hf).trans hplain)
  · have hplain := (emitPlain_error hw s _ _).2 (.inl (decryptBytes_of_not_padded ha hp))
    exact exec_reports_error ((bodyOf_decrypt_of_fit hc hf).trans hplain)
  · have hplain := (emitPlain_error hw s _ _).2 (.inr ⟨q, decryptBytes_of_padded ha hp, hcap, rfl⟩)
    exact exec_reports_error ((bodyOf_decrypt_of_fit hc hf).trans hplain)
  · have hplain := (emitPlain_ok hw s _ _).2 ⟨q, decryptBytes_of_padded ha hp, hcap, rfl⟩
    exact exec_delivers ((bodyOf_decrypt_of_fit hc hf).trans hplain) hcap

end Sys2Proof.Machine
end

section
/-! MAC, DECHDR, DECHDR.V and PARSEHELLO (R241, R250, R251, R260): the checks they share, the checksum of the frame in
IN, and what each leaves. -/

namespace Sys2Proof

/-- A 16-byte field read from where its encoding stands. -/
theorem rd128_of_slice {f : Bytes} {o : Nat} {x : Block} (h : slice f o (o + 16) = be128 x) : rd128 f o = x := by
  have hx := rd128_be128 x
  rwa [rd128, Nat.zero_add, slice_full_of_eq _ _ (length_be128 x), ← h] at hx

end Sys2Proof

namespace Sys2Proof.Machine

/-- The checksum of the frame in IN, over the body IN[32:IN_LEN] (R240). -/
theorem frameCksum_input (p : Params) (s : State) :
    frameCksum p s s.input = p.digest (slice s.input 0 16 ++ be128 s.tok ++ slice s.input 32 s.inLen.toNat) := by
  rw [frameCksum, cksum, length_input]

theorem cksumMatches_iff (p : Params) (s : State) :
    CksumMatches p s ↔ be128 (frameCksum p s s.input) = slice s.input 16 32 := by
  rw [frameCksum_input, CksumMatches]

/-- The commands that read a frame or a hello and write no output check IN_LEN next after the connection (R338, R343). -/
theorem bodyOf_of_long_input {p : Params} {i : Instr} {s : State} (hi : i ∈ [.mac, .decHdr, .decHdrV, .parseHello])
    (hc : s.conn = true) (hlong : p.bufBytes < s.inLen.toNat) : bodyOf p i s = .error .badLen := by
  have hopen : ¬ s.conn = false := by simp [hc]
  have hbad : s.inTooLong p = true := decide_eq_true hlong
  cases i with
  | mac | decHdr | decHdrV | parseHello => exact (if_neg hopen).trans (if_pos hbad)
  | _ => simp at hi

/-- The commands that read a frame need its 32 bytes of header (R241, R250, R251). -/
theorem bodyOf_of_short_frame {p : Params} {i : Instr} {s : State} (hi : i ∈ [.mac, .decHdr, .decHdrV])
    (hc : s.conn = true) (hfit : s.inLen.toNat ≤ p.bufBytes) (hshort : s.inLen.toNat < 32) :
    bodyOf p i s = .error .frameShort := by
  have hopen : ¬ s.conn = false := by simp [hc]
  have hgood : ¬ s.inTooLong p = true := by simpa [State.inTooLong] using hfit
  cases i with
  | mac | decHdr | decHdrV => exact (if_neg hopen).trans ((if_neg hgood).trans (if_pos hshort))
  | _ => simp at hi

/-- A frame too short for its header is not too long for the buffer of this hardware. -/
theorem le_bufBytes_of_lt_32 {n : Nat} (h : n < 32) : n ≤ hw.bufBytes := by
  rw [hw_bufBytes]
  omega

/-- Settles O34: MAC's three checks, and the digest over IN's own prefix and body. -/
theorem macCommand : Obligations.MacCommand := by
  refine ⟨decode_encode .mac, fun s => ⟨fun hc => ?_, fun hc hl => ?_, fun hc hs => ?_, fun hc hl hs => ?_⟩⟩
  · exact exec_reports_error (bodyOf_of_closed hc (by decide))
  · exact exec_reports_error (bodyOf_of_long_input (by decide) hc hl)
  · exact exec_reports_error (bodyOf_of_short_frame (by decide) hc (le_bufBytes_of_lt_32 hs) hs)
  · rw [← frameCksum_input]
    exact exec_reports_ok ((macBody_ok _ _ _).2 ⟨hc, hl, hs, rfl⟩)

/-- Settles O37: DECHDR has MAC's checks and validates no field (R252). -/
theorem decHdrCommand : Obligations.DecHdrCommand := by
  refine ⟨decode_encode .decHdr, fun s => ⟨fun hc => ?_, fun hc hl => ?_, fun hc hs => ?_, fun hc hl hs => ?_⟩⟩
  · exact exec_reports_error (bodyOf_of_closed hc (by decide))
  · exact exec_reports_error (bodyOf_of_long_input (by decide) hc hl)
  · exact exec_reports_error (bodyOf_of_short_frame (by decide) hc (le_bufBytes_of_lt_32 hs) hs)
  · exact exec_reports_ok ((decHdrBody_ok _ _ _).2 ⟨hc, hl, hs, rfl⟩)

/-- Past its length checks DECHDR.V rejects a frame whose checksum field is not the computed one (R251). -/
theorem bodyOf_decHdrV_of_mismatch {p : Params} {s : State} (hc : s.conn = true) (hfit : s.inLen.toNat ≤ p.bufBytes)
    (hlong : 32 ≤ s.inLen.toNat) (h : ¬ CksumMatches p s) : bodyOf p .decHdrV s = .error .cksumMismatch := by
  have hgood : ¬ s.inTooLong p = true := by simpa [State.inTooLong] using hfit
  rw [cksumMatches_iff] at h
  exact (if_neg (by simp [hc])).trans ((if_neg hgood).trans ((if_neg hlong.not_gt).trans (if_pos h)))

/-- Settles O38: where the checksum holds, the computed value that goes to DIGEST is the field itself. -/
theorem decHdrVerifyCommand : Obligations.DecHdrVerifyCommand := by
  refine ⟨decode_encode .decHdrV, fun s => ⟨fun hc => ?_, fun hc hl => ?_, fun hc hs => ?_, fun hc hl hs hm => ?_,
    fun hc hl hs hm => ?_⟩⟩
  · exact exec_reports_error (bodyOf_of_closed hc (by decide))
  · exact exec_reports_error (bodyOf_of_long_input (by decide) hc hl)
  · exact exec_reports_error (bodyOf_of_short_frame (by decide) hc (le_bufBytes_of_lt_32 hs) hs)
  · exact exec_reports_error (bodyOf_decHdrV_of_mismatch hc hl hs hm)
  · have hfield := (cksumMatches_iff hw s).1 hm
    have hdigest : rd128 s.input 16 = frameCksum hw s s.input := rd128_of_slice hfield.symm
    have hrun := exec_reports_ok (i := .decHdrV) ((decHdrVBody_ok _ _ _).2 ⟨hc, hl, hs, hfield, rfl⟩)
    rwa [← hdigest] at hrun

/-- A PARSEHELLO that fails clears HS_VALID and only reports (R263). -/
theorem exec_parseHello_of_error {s : State} {e : ErrorCode} (h : bodyOf hw .parseHello s = .error e) :
    exec .parseHello s = .next ({ s with hsValid := false }.reporting 0x23 false (errorByte e)) := by
  rw [exec_reports_error h, discard_eq]
  rfl

/-- PARSEHELLO takes a hello of exactly 32 bytes (R260). -/
theorem bodyOf_parseHello_of_length {p : Params} {s : State} (hc : s.conn = true) (hfit : s.inLen.toNat ≤ p.bufBytes)
    (hlen : s.inLen.toNat ≠ 32) : bodyOf p .parseHello s = .error .helloLen := by
  have hgood : ¬ s.inTooLong p = true := by simpa [State.inTooLong] using hfit
  exact (if_neg (by simp [hc])).trans ((if_neg hgood).trans (if_pos hlen))

/-- Settles O40: three checks, each clearing HS_VALID when it fails, and a hello of 32 bytes passes them all. -/
theorem parseHelloCommand : Obligations.ParseHelloCommand := by
  refine ⟨decode_encode .parseHello, fun s => ⟨fun hc => ?_, fun hc hl => ?_, fun hc hl hn => ?_, fun hc hn => ?_⟩⟩
  · exact exec_parseHello_of_error (bodyOf_of_closed hc (by decide))
  · exact exec_parseHello_of_error (bodyOf_of_long_input (by decide) hc hl)
  · exact exec_parseHello_of_error (bodyOf_parseHello_of_length hc hl hn)
  · have hfit : s.inLen.toNat ≤ hw.bufBytes := by rw [hn, hw_bufBytes]; decide
    exact exec_reports_ok ((parseHelloBody_ok _ _ _).2 ⟨hc, hfit, hn, rfl⟩)

end Sys2Proof.Machine
end

section
/-! The frame that ENCFRAME and SEAL leave in OUT, read back field by field (R240 to R247), and such a frame received
again by DECHDR and DECHDR.V (R248). -/

namespace Sys2Proof.Machine

/-- Past its three checks ENCFRAME only emits the frame of its input (R247). -/
theorem bodyOf_encFrame_of_greeted {p : Params} {s : State} (hc : s.conn = true) (hf : s.LengthsFit p)
    (hv : s.hsValid = true) : bodyOf p .encFrame s = s.emitFrame p s.input :=
  (if_neg (by simp [hc])).trans ((if_neg fun h => (tooLong_iff_not_lengthsFit p s).1 h hf).trans (if_neg (by simp [hv])))

/-- With both lengths fitting ENCFRAME needs a handshake (R247, R303). -/
theorem bodyOf_encFrame_of_no_handshake {p : Params} {s : State} (hc : s.conn = true) (hf : s.LengthsFit p)
    (hv : s.hsValid = false) : bodyOf p .encFrame s = .error .noHandshake :=
  (if_neg (by simp [hc])).trans ((if_neg fun h => (tooLong_iff_not_lengthsFit p s).1 h hf).trans (if_pos hv))

/-- A frame uses up a handshake result that was valid exactly if HS_ONESHOT is 1 (R33). -/
theorem consumeHandshake_of_valid {s : State} (h : s.hsValid = true) :
    s.consumeHandshake = { s with hsValid := !s.hsOneshot } := by
  simp [State.consumeHandshake, h]

/-- A frame that was emitted stands at the start of OUT, in every later state that kept OUT and OUT_LEN. -/
theorem delivers_of_emitFrame {p : Params} {s t u : State} {b : Bytes} (h : s.emitFrame p b = .ok u)
    (hbuf : t.outBuf = u.outBuf) (hlen : t.outLen = u.outLen) : Delivers s t (frameOf p s b) := by
  obtain ⟨hcap, rfl⟩ := (emitFrame_ok _ _ _ _).1 h
  exact delivers_of_write (hcap.trans_lt s.outCap.isLt) hbuf hlen

/-- A command that emits the frame of `b`, within the capacity and with a valid handshake result, delivers it, leaves its
checksum in DIGEST, uses up the handshake if HS_ONESHOT is 1, and changes nothing else (R247, R300). -/
theorem exec_delivers_frame {i : Instr} {s : State} {b : Bytes} (h : bodyOf hw i s = s.emitFrame hw b)
    (hv : s.hsValid = true) (hcap : (frameOf hw s b).length ≤ s.outCap.toNat) :
    ∃ t, exec i s = .next t ∧ Delivers s t (frameOf hw s b) ∧
      t = { s with
        outBuf := t.outBuf, outLen := t.outLen, digest := bodyCksum hw s b,
        hsValid := !s.hsOneshot }.reporting (instrFields i).opc (instrFields i).v 0 := by
  have hemit := (emitFrame_ok hw s _ b).2 ⟨hcap, rfl⟩
  refine ⟨_, exec_reports_ok (h.trans hemit), delivers_of_emitFrame hemit rfl rfl, ?_⟩
  generalize frameOf hw s b = f
  rw [consumeHandshake_of_valid (by simpa using hv)]
  rfl

/-- The checksum of the frame of the input string, its length field from IN_LEN (R162, R242). -/
theorem bodyCksum_input (p : Params) (s : State) :
    bodyCksum p s s.input = cksum p (headerPrefix p s s.inLen.toNat) s.tok s.input := by
  rw [bodyCksum, length_input]

theorem frameOf_input (p : Params) (s : State) :
    frameOf p s s.input = headerPrefix p s s.inLen.toNat ++ be128 (bodyCksum p s s.input) ++ s.input := by
  rw [frameOf, length_input]

/-- Settles O35: past the three checks the length of the frame alone decides between 0x43 and the delivery. -/
theorem encFrameCommand : Obligations.EncFrameCommand := by
  refine ⟨decode_encode .encFrame, fun s => ?_⟩
  have hframe : (frameOf hw s s.input).length = 32 + s.inLen.toNat := by simp
  refine ⟨fun hc => ?_, fun hc hf => ?_, fun hc hf hv => ?_, fun hc hf hv hcap => ?_, fun hc hf hv hcap => ?_⟩
  · exact exec_reports_error (bodyOf_of_closed hc (by decide))
  · exact exec_reports_error (bodyOf_of_unfit rfl (by decide) hc hf)
  · exact exec_reports_error (bodyOf_encFrame_of_no_handshake hc hf hv)
  · have hemit := (emitFrame_error hw s _ _).2 ⟨hcap.trans_eq hframe.symm, rfl⟩
    exact exec_reports_error ((bodyOf_encFrame_of_greeted hc hf hv).trans hemit)
  · obtain ⟨t, hx, hd, ht⟩ :=
      exec_delivers_frame (bodyOf_encFrame_of_greeted hc hf hv) hv (hframe.trans_le hcap)
    rw [frameOf_input, bodyCksum_input] at hd
    rw [bodyCksum_input] at ht
    exact ⟨t, hx, hd, ht⟩

theorem rd16_frameOf_magic (p : Params) (s : State) (b : Bytes) : rd16 (frameOf p s b) 0 = 0x2131 := by
  simp only [frameOf, headerPrefix, List.append_assoc]
  rw [rd16_append_left _ _ _ (by simp), rd16_be16]

theorem rd32_frameOf_rsvd (p : Params) (s : State) (b : Bytes) : rd32 (frameOf p s b) 4 = p.hdrRsvd := by
  simp only [frameOf, headerPrefix, List.append_assoc]
  rw [← List.append_assoc, rd32_append_right _ _ _ (by simp), rd32_append_left _ _ _ (by simp)]
  exact rd32_be32 _

theorem rd128_frameOf_cksum (p : Params) (s : State) (b : Bytes) : rd128 (frameOf p s b) 16 = bodyCksum p s b :=
  rd128_of_slice (slice_frameOf_cksum p s b)

/-- The string that was delivered, read back over OUT_LEN bytes (R40). -/
theorem memRead_of_delivers {s t : State} {out : Bytes} (h : Delivers s t out) :
    t.memRead .output 0 t.outLen.toNat = out := by
  obtain ⟨hlen, hread, -⟩ := h
  rw [hlen, hread]

/-- The total length of a delivered frame fits its header field (R244). -/
theorem rd16_totlen_of_delivers {p : Params} {s t : State} {b : Bytes} (h : Delivers s t (frameOf p s b)) :
    (rd16 (frameOf p s b) 2).toNat = (frameOf p s b).length := by
  obtain ⟨hlen, -, -⟩ := h
  have hlt := t.outLen.isLt
  rw [hlen] at hlt
  rw [rd16_frameOf_totlen, ← length_frameOf p s b, BitVec.toNat_ofNat, Nat.mod_eq_of_lt hlt]

/-- A command that reports code 0 has succeeded (R335, R336). -/
theorem bodyOf_ok_of_resCode {i : Instr} {s t : State} (h : exec i s = .next t) (h0 : t.resCode = 0) :
    ∃ u, bodyOf hw i s = .ok u ∧ t = u.reporting (instrFields i).opc (instrFields i).v 0 := by
  obtain hok | ⟨e, -, rfl⟩ := exec_inversion h
  · exact hok
  · exact absurd h0 (errorByte_ne_zero e)

/-- What an ENCFRAME that succeeds leaves in OUT, and how long its input can have been (R247). -/
theorem encFrame_delivers {s t : State} (h : exec .encFrame s = .next t) (h0 : t.resCode = 0) :
    Delivers s t (frameOf hw s s.input) ∧ 32 + s.inLen.toNat ≤ hw.bufBytes := by
  obtain ⟨u, hu, rfl⟩ := bodyOf_ok_of_resCode h h0
  obtain ⟨-, -, hcap, -, hfit, hstate⟩ := (encFrameBody_ok _ _ _).1 hu
  have hemit := (emitFrame_ok hw s u s.input).2 ⟨by simpa using hfit, hstate⟩
  exact ⟨delivers_of_emitFrame hemit rfl rfl, hfit.trans hcap⟩

/-- What a SEAL that succeeds leaves in OUT (R300). -/
theorem seal_delivers {s t : State} (h : exec .sealFrame s = .next t) (h0 : t.resCode = 0) :
    Delivers s t (frameOf hw s (encryptBytes hw s.key s.iv s.input)) := by
  obtain ⟨u, hu, rfl⟩ := bodyOf_ok_of_resCode h h0
  obtain ⟨-, -, -, -, hfit, hstate⟩ := (sealBody_ok _ _ _).1 hu
  exact delivers_of_emitFrame ((emitFrame_ok hw s u _).2 ⟨by simpa using hfit, hstate⟩) rfl rfl

/-- Settles O36: either command leaves the frame of some body in OUT, and each field of a built frame reads back. -/
theorem frameHeaderFields : Obligations.FrameHeaderFields := by
  intro i s t hi h h0
  obtain ⟨b, hout⟩ : ∃ b, Delivers s t (frameOf hw s b) := by
    obtain rfl | rfl := hi
    · exact ⟨_, (encFrame_delivers h h0).1⟩
    · exact ⟨_, seal_delivers h h0⟩
  rw [memRead_of_delivers hout]
  refine ⟨by simp, rd16_totlen_of_delivers hout, rd16_frameOf_magic hw s b, rd32_frameOf_rsvd hw s b,
    rd32_frameOf_devid hw s b, rd32_frameOf_stamp hw s b, ?_⟩
  exact (rd128_frameOf_cksum hw s b).trans (frameCksum_frameOf hw rfl b).symm

/-- Settles O39: the received string is the built frame, so it is long enough, fits the buffer, carries the sender's
fields, and under the sender's token its checksum is the one computed. -/
theorem frameIntegrity : Obligations.FrameIntegrity := by
  intro s t u h h0 hconn hlen hread i hi
  obtain ⟨hout, hfits⟩ := encFrame_delivers h h0
  have hin : u.input = frameOf hw s s.input := hread.trans (memRead_of_delivers hout)
  have hinLen : u.inLen.toNat = 32 + s.inLen.toNat := by rw [← length_input, hin, length_frameOf, length_input]
  have hdevid : rd32 u.input 8 = s.devid := by rw [hin, rd32_frameOf_devid]
  have hstamp : rd32 u.input 12 = s.stamp := by rw [hin, rd32_frameOf_stamp]
  have htotlen : (rd16 u.input 2).toNat = 32 + s.inLen.toNat := by
    rw [hin, rd16_totlen_of_delivers hout, length_frameOf, length_input]
  have hfit : u.inLen.toNat ≤ hw.bufBytes := hinLen.trans_le hfits
  have hheader : 32 ≤ u.inLen.toNat := by omega
  obtain rfl | ⟨rfl, htok⟩ := hi
  · exact ⟨_, exec_reports_ok ((decHdrBody_ok _ _ _).2 ⟨hconn, hfit, hheader, rfl⟩), rfl, hdevid, hstamp, htotlen⟩
  · have hcksum : be128 (frameCksum hw u u.input) = slice u.input 16 32 := by
      rw [hin, frameCksum_frameOf hw htok, slice_frameOf_cksum]
    exact ⟨_, exec_reports_ok ((decHdrVBody_ok _ _ _).2 ⟨hconn, hfit, hheader, hcksum, rfl⟩), rfl, hdevid, hstamp,
      htotlen⟩

end Sys2Proof.Machine
end

section
/-! PROBE (R280, R281): the two checks of OUT_CAP, and a success that writes the fixed probe and drops the old handshake
result. -/

namespace Sys2Proof.Machine

/-- PROBE checks OUT_CAP next after the connection and reads no IN_LEN (R281, R343). -/
theorem bodyOf_probe_of_long_cap {p : Params} {s : State} (hc : s.conn = true) (hlong : p.bufBytes < s.outCap.toNat) :
    bodyOf p .probe s = .error .badLen :=
  (if_neg (by simp [hc])).trans (if_pos (decide_eq_true hlong))

/-- PROBE needs room for its 32 bytes (R281). -/
theorem bodyOf_probe_of_short_cap {p : Params} {s : State} (hc : s.conn = true) (hfit : s.outCap.toNat ≤ p.bufBytes)
    (hshort : s.outCap.toNat < 32) : bodyOf p .probe s = .error .outCap := by
  have hgood : ¬ s.capTooLong p = true := by simpa [State.capTooLong] using hfit
  exact (if_neg (by simp [hc])).trans ((if_neg hgood).trans (if_pos hshort))

/-- Settles O41: three checks, and past them the probe written at the start of OUT and HS_VALID cleared, whatever it and
HS_ONESHOT were. -/
theorem probeCommand : Obligations.ProbeCommand := by
  refine ⟨decode_encode .probe, fun s => ⟨fun hc => ?_, fun hc hl => ?_, fun hc hs => ?_, fun hc hfit hroom => ?_⟩⟩
  · exact exec_reports_error (bodyOf_of_closed hc (by decide))
  · exact exec_reports_error (bodyOf_probe_of_long_cap hc hl)
  · exact exec_reports_error (bodyOf_probe_of_short_cap hc (le_bufBytes_of_lt_32 hs) hs)
  · have hrun := exec_reports_ok (i := .probe) ((probeBody_ok hw s _).2 ⟨hc, hfit, hroom, rfl⟩)
    have hlen : probeBytes.length < 65536 := length_probeBytes.trans_lt (by decide)
    exact ⟨_, hrun, delivers_of_write hlen rfl rfl, rfl⟩

end Sys2Proof.Machine
end

section
/-! SEAL as ENCRYPT, a copy of OUT to IN, and ENCFRAME; its checks and its effect (R300); and that neither of the two
frame builders works without a handshake (R303). -/

namespace Sys2Proof.Machine

/-- The checksum of a frame depends on the state through the token and the handshake result only (R162, R242). -/
theorem bodyCksum_congr (p : Params) {s u : State} (htok : u.tok = s.tok) (hdevid : u.devid = s.devid)
    (hstamp : u.stamp = s.stamp) (b : Bytes) : bodyCksum p u b = bodyCksum p s b := by
  simp only [bodyCksum, headerPrefix, htok, hdevid, hstamp]

theorem frameOf_congr (p : Params) {s u : State} (htok : u.tok = s.tok) (hdevid : u.devid = s.devid)
    (hstamp : u.stamp = s.stamp) (b : Bytes) : frameOf p u b = frameOf p s b := by
  rw [frameOf, bodyCksum_congr p htok hdevid hstamp, headerPrefix, hdevid, hstamp, ← headerPrefix, ← frameOf]

/-- Two states with the same token, handshake and capacity emit the same frame of one body, and are left with the same
OUT_LEN, DIGEST and HS_VALID (R247, R333). -/
theorem emitFrame_congr {p : Params} {s t u : State} {b : Bytes} (h : s.emitFrame p b = .ok t) (htok : u.tok = s.tok)
    (hdevid : u.devid = s.devid) (hstamp : u.stamp = s.stamp) (hvalid : u.hsValid = s.hsValid)
    (honeshot : u.hsOneshot = s.hsOneshot) (hcap : u.outCap = s.outCap) :
    ∃ f, u.emitFrame p b = .ok f ∧ f.outLen = t.outLen ∧ f.digest = t.digest ∧ f.hsValid = t.hsValid := by
  obtain ⟨hroom, rfl⟩ := (emitFrame_ok _ _ _ _).1 h
  have hframe := frameOf_congr p htok hdevid hstamp b
  refine ⟨_, (emitFrame_ok p u _ b).2 ⟨by rwa [hframe, hcap], rfl⟩, ?_, ?_, ?_⟩
  · simp [hframe]
  · simp [bodyCksum_congr p htok hdevid hstamp]
  · simp [hvalid, honeshot]

/-- Where SEAL succeeds so does ENCRYPT, and it delivers the ciphertext that SEAL frames: a string that the frame leaves
room for fits OUT alone (R220, R300). -/
theorem encrypt_of_seal {s t : State} (h : bodyOf hw .sealFrame s = .ok t) :
    let c := encryptBytes hw s.key s.iv s.input
    let e := (s.writeOut c).reporting 0x10 false 0
    exec .encrypt s = .next e ∧ e.memRead .output 0 e.outLen.toNat = c := by
  obtain ⟨hc, hin, hcap, -, hfit, -⟩ := (sealBody_ok _ _ _).1 h
  have hroom := (Nat.le_add_left _ _).trans hfit
  have hencrypt := (encryptBody_ok hw s _).2 ⟨hc, hin, hcap, hroom, rfl⟩
  exact ⟨exec_reports_ok (i := .encrypt) hencrypt,
    memRead_of_delivers (delivers_of_write (s := s) (hroom.trans_lt s.outCap.isLt) rfl rfl)⟩

/-- Settles O45: ENCRYPT delivers the ciphertext that SEAL frames, the copy makes it ENCFRAME's input, and ENCFRAME
emits the frame of the same body from the same token and handshake. -/
theorem sealIsEncryptThenEncFrame : Obligations.SealIsEncryptThenEncFrame := by
  intro s t h h0
  have hsealed := memRead_of_delivers (seal_delivers h h0)
  obtain ⟨t, hseal, rfl⟩ := bodyOf_ok_of_resCode h h0
  obtain ⟨hencrypt, hcipher⟩ := encrypt_of_seal hseal
  refine ⟨_, hencrypt, rfl, fun u _ hcopy hconn htok hdevid hstamp hvalid honeshot houtCap => ?_⟩
  obtain ⟨hc, -, hcap, hv, hfit, hstate⟩ := (sealBody_ok _ _ _).1 hseal
  have hbody := hcopy.trans hcipher
  have hfits : u.LengthsFit hw := by
    refine ⟨?_, houtCap ▸ hcap⟩
    rw [← length_input, hbody]
    omega
  have hemit := (emitFrame_ok hw s t _).2 ⟨by rwa [length_frameOf], hstate⟩
  obtain ⟨f, hf, hlen, hdigest, hleft⟩ := emitFrame_congr hemit htok hdevid hstamp hvalid honeshot houtCap
  have hrun := (bodyOf_encFrame_of_greeted (hconn.trans hc) hfits (hvalid.trans hv)).trans (hbody ▸ hf)
  have hbuilt := memRead_of_delivers (delivers_of_emitFrame (t := f.reporting 0x21 false 0) hf rfl rfl)
  rw [frameOf_congr hw (s := s) htok hdevid hstamp, ← hsealed, State.reporting_outLen, hlen] at hbuilt
  exact ⟨_, exec_reports_ok hrun, rfl, hlen, hbuilt, hdigest, hleft⟩

/-- Past its three checks SEAL only emits the frame of the ciphertext (R300). -/
theorem bodyOf_seal_of_greeted {p : Params} {s : State} (hc : s.conn = true) (hf : s.LengthsFit p)
    (hv : s.hsValid = true) : bodyOf p .sealFrame s = s.emitFrame p (encryptBytes p s.key s.iv s.input) :=
  (if_neg (by simp [hc])).trans
    ((if_neg fun h => (tooLong_iff_not_lengthsFit p s).1 h hf).trans (if_neg (by simp [hv])))

/-- With both lengths fitting SEAL needs a handshake (R300, R303). -/
theorem bodyOf_seal_of_no_handshake {p : Params} {s : State} (hc : s.conn = true) (hf : s.LengthsFit p)
    (hv : s.hsValid = false) : bodyOf p .sealFrame s = .error .noHandshake :=
  (if_neg (by simp [hc])).trans ((if_neg fun h => (tooLong_iff_not_lengthsFit p s).1 h hf).trans (if_pos hv))

/-- Settles O42: past the three checks the length of the ciphertext's frame alone decides between 0x43 and the
delivery. -/
theorem sealCommand : Obligations.SealCommand := by
  refine ⟨decode_encode .sealFrame, fun s => ?_⟩
  have hframe : (frameOf hw s (encryptBytes hw s.key s.iv s.input)).length = 32 + 16 * (s.inLen.toNat / 16 + 1) := by
    simp
  refine ⟨fun hc => ?_, fun hc hf => ?_, fun hc hf hv => ?_, fun hc hf hv hcap => ?_, fun hc hf hv hcap => ?_⟩
  · exact exec_reports_error (bodyOf_of_closed hc (by decide))
  · exact exec_reports_error (bodyOf_of_unfit rfl (by decide) hc hf)
  · exact exec_reports_error (bodyOf_seal_of_no_handshake hc hf hv)
  · have hemit := (emitFrame_error hw s _ _).2 ⟨hcap.trans_eq hframe.symm, rfl⟩
    exact exec_reports_error ((bodyOf_seal_of_greeted hc hf hv).trans hemit)
  · obtain ⟨t, hx, hd, ht⟩ := exec_delivers_frame (bodyOf_seal_of_greeted hc hf hv) hv (hframe.trans_le hcap)
    exact ⟨t, hx, hd, hd.1.trans hframe, ht⟩

/-- A frame is built only on a valid handshake result (R303). -/
theorem hsValid_of_frame_built {p : Params} {i : Instr} {s t : State} (hi : i = .encFrame ∨ i = .sealFrame)
    (h : bodyOf p i s = .ok t) : s.hsValid = true := by
  obtain rfl | rfl := hi
  · obtain ⟨-, -, -, hv, -⟩ := (encFrameBody_ok _ _ _).1 h
    exact hv
  · obtain ⟨-, -, -, hv, -⟩ := (sealBody_ok _ _ _).1 h
    exact hv

/-- Settles O52: neither command can succeed, and a failure of either leaves OUT, OUT_LEN and HS_VALID. -/
theorem noFrameWithoutHandshake : Obligations.NoFrameWithoutHandshake := by
  intro i s hi hv
  cases h : bodyOf hw i s with
  | ok t => exact absurd (hsValid_of_frame_built hi h) (by simp [hv])
  | error e =>
    have hkeep : s.discard i = s := if_neg (by rintro rfl; simp at hi)
    refine ⟨_, exec_reports_error h, errorByte_ne_zero e, ?_⟩
    simp [hkeep, hv]

end Sys2Proof.Machine
end

section
/-! OPEN and OPEN.V (R301, R302): past their checks of the header both deliver the plaintext of the body, and a failing
decryption is their own failure; OPEN.V looks at the checksum before it decrypts. -/

namespace Sys2Proof.Machine

/-- The body of a frame is whole blocks exactly if the frame is: the header is two blocks long (R301). -/
theorem length_body_mod {s : State} (h : 32 ≤ s.inLen.toNat) :
    (slice s.input 32 s.inLen.toNat).length % 16 = s.inLen.toNat % 16 := by
  simp [slice]
  omega

/-- OPEN and OPEN.V need a header next after the shared checks (R301, R302). -/
theorem bodyOf_open_of_short_frame {p : Params} {i : Instr} {s : State} (hi : i = .openFrame ∨ i = .openFrameV)
    (hc : s.conn = true) (hf : s.LengthsFit p) (hshort : s.inLen.toNat < 32) :
    bodyOf p i s = .error .frameShort := by
  have hopen : ¬ s.conn = false := by simp [hc]
  have hgood := fun h => (tooLong_iff_not_lengthsFit p s).1 h hf
  obtain rfl | rfl := hi
  all_goals exact (if_neg hopen).trans ((if_neg hgood).trans (if_pos hshort))

/-- OPEN.V rejects a frame whose checksum field is not the computed one, whatever its body (R302). -/
theorem bodyOf_openV_of_mismatch {p : Params} {s : State} (hc : s.conn = true) (hf : s.LengthsFit p)
    (hlong : 32 ≤ s.inLen.toNat) (h : ¬ CksumMatches p s) : bodyOf p .openFrameV s = .error .cksumMismatch := by
  have hgood := fun h => (tooLong_iff_not_lengthsFit p s).1 h hf
  rw [cksumMatches_iff] at h
  exact (if_neg (by simp [hc])).trans ((if_neg hgood).trans ((if_neg hlong.not_gt).trans (if_pos h)))

/-- The command has come to the decryption of the body of the frame in IN: OPEN past its header checks, OPEN.V past the
checksum too (R301, R302). -/
structure ReachesBody (i : Instr) (s : State) : Prop where
  conn : s.conn = true
  fits : s.LengthsFit hw
  header : 32 ≤ s.inLen.toNat
  opens : i = .openFrame ∨ i = .openFrameV ∧ CksumMatches hw s

/-- A command that reached the body fails as its decryption or its delivery fails. -/
theorem bodyOf_open_of_plain_error {i : Instr} {s : State} {e : ErrorCode} (hr : ReachesBody i s)
    (h : s.emitPlain hw (slice s.input 32 s.inLen.toNat) = .error e) : bodyOf hw i s = .error e := by
  have hopen : ¬ s.conn = false := by simp [hr.conn]
  have hgood := fun h => (tooLong_iff_not_lengthsFit hw s).1 h hr.fits
  have hlong := hr.header.not_gt
  obtain rfl | ⟨rfl, hm⟩ := hr.opens
  · exact (if_neg hopen).trans ((if_neg hgood).trans ((if_neg hlong).trans (by rw [h])))
  · have hfield := not_not.2 ((cksumMatches_iff hw s).1 hm)
    exact (if_neg hopen).trans ((if_neg hgood).trans ((if_neg hlong).trans ((if_neg hfield).trans (by rw [h]))))

/-- A body that is not whole blocks is not decrypted (R157). -/
theorem bodyOf_open_of_unaligned {i : Instr} {s : State} (hr : ReachesBody i s) (ha : s.inLen.toNat % 16 ≠ 0) :
    bodyOf hw i s = .error .decAlign := by
  rw [← length_body_mod hr.header] at ha
  exact bodyOf_open_of_plain_error hr ((emitPlain_error _ _ _ _).2 (.inl (decryptBytes_of_unaligned hw _ _ ha)))

/-- Whole blocks that no valid padding ends are refused (R154). -/
theorem bodyOf_open_of_not_padded {i : Instr} {s : State} (hr : ReachesBody i s) (ha : s.inLen.toNat % 16 = 0)
    (hp : ∀ q, ¬ Padded (cbcDec hw s.key s.iv (slice s.input 32 s.inLen.toNat)) q) :
    bodyOf hw i s = .error .decPad := by
  rw [← length_body_mod hr.header] at ha
  exact bodyOf_open_of_plain_error hr ((emitPlain_error _ _ _ _).2 (.inl (decryptBytes_of_not_padded ha hp)))

theorem decryptBytes_body {s : State} {q : Bytes} (hlong : 32 ≤ s.inLen.toNat) (ha : s.inLen.toNat % 16 = 0)
    (hp : Padded (cbcDec hw s.key s.iv (slice s.input 32 s.inLen.toNat)) q) :
    decryptBytes hw s.key s.iv (slice s.input 32 s.inLen.toNat) = .ok q :=
  decryptBytes_of_padded ((length_body_mod hlong).trans ha) hp

/-- A plaintext longer than OUT_CAP is not delivered (R39). -/
theorem bodyOf_open_of_long_plain {i : Instr} {s : State} {q : Bytes} (hr : ReachesBody i s)
    (h : decryptBytes hw s.key s.iv (slice s.input 32 s.inLen.toNat) = .ok q) (hcap : s.outCap.toNat < q.length) :
    bodyOf hw i s = .error .outCap :=
  bodyOf_open_of_plain_error hr ((emitPlain_error _ _ _ _).2 (.inr ⟨q, h, hcap, rfl⟩))

/-- Settles O43: past the header checks the alignment, the padding and the length of the plaintext decide, in this
order. -/
theorem openCommand : Obligations.OpenCommand := by
  refine ⟨decode_encode .openFrame, fun s => ?_⟩
  refine ⟨fun hc => ?_, fun hc hf => ?_, fun hc hf hs => ?_, fun hc hf hl ha => ?_, fun hc hf hl ha hp => ?_,
    fun q hc hf hl ha hp hcap => ?_, fun q hc hf hl ha hp hcap => ?_⟩
  · exact exec_reports_error (bodyOf_of_closed hc (by decide))
  · exact exec_reports_error (bodyOf_of_unfit rfl (by decide) hc hf)
  · exact exec_reports_error (bodyOf_open_of_short_frame (.inl rfl) hc hf hs)
  · exact exec_reports_error (bodyOf_open_of_unaligned ⟨hc, hf, hl, .inl rfl⟩ ha)
  · exact exec_reports_error (bodyOf_open_of_not_padded ⟨hc, hf, hl, .inl rfl⟩ ha hp)
  · exact exec_reports_error (bodyOf_open_of_long_plain ⟨hc, hf, hl, .inl rfl⟩ (decryptBytes_body hl ha hp) hcap)
  · obtain ⟨hin, hout⟩ := hf
    have hopen := (openBody_ok hw s _).2 ⟨hc, hin, hout, hl, q, decryptBytes_body hl ha hp, hcap, rfl⟩
    exact ⟨_, exec_reports_ok (i := .openFrame) hopen, delivers_of_write (hcap.trans_lt s.outCap.isLt) rfl rfl, rfl⟩

/-- Settles O44: the checksum is decided before the body is looked at; past it OPEN.V goes as OPEN does, and the
computed checksum that goes to DIGEST is the field itself. -/
theorem openVerifyCommand : Obligations.OpenVerifyCommand := by
  refine ⟨decode_encode .openFrameV, fun s => ?_⟩
  refine ⟨fun hc => ?_, fun hc hf => ?_, fun hc hf hs => ?_, fun hc hf hl hm => ?_, fun hc hf hl hm ha => ?_,
    fun hc hf hl hm ha hp => ?_, fun q hc hf hl hm ha hp hcap => ?_, fun q hc hf hl hm ha hp hcap => ?_⟩
  · exact exec_reports_error (bodyOf_of_closed hc (by decide))
  · exact exec_reports_error (bodyOf_of_unfit rfl (by decide) hc hf)
  · exact exec_reports_error (bodyOf_open_of_short_frame (.inr rfl) hc hf hs)
  · exact exec_reports_error (bodyOf_openV_of_mismatch hc hf hl hm)
  · exact exec_reports_error (bodyOf_open_of_unaligned ⟨hc, hf, hl, .inr ⟨rfl, hm⟩⟩ ha)
  · exact exec_reports_error (bodyOf_open_of_not_padded ⟨hc, hf, hl, .inr ⟨rfl, hm⟩⟩ ha hp)
  · have hplain := decryptBytes_body hl ha hp
    exact exec_reports_error (bodyOf_open_of_long_plain ⟨hc, hf, hl, .inr ⟨rfl, hm⟩⟩ hplain hcap)
  · obtain ⟨hin, hout⟩ := hf
    have hfield := (cksumMatches_iff hw s).1 hm
    have hopen := (openVBody_ok hw s _).2 ⟨hc, hin, hout, hl, hfield, q, decryptBytes_body hl ha hp, hcap, rfl⟩
    have hdigest : rd128 s.input 16 = frameCksum hw s s.input := rd128_of_slice hfield.symm
    rw [← hdigest] at hopen
    exact ⟨_, exec_reports_ok (i := .openFrameV) hopen, delivers_of_write (hcap.trans_lt s.outCap.isLt) rfl rfl, rfl⟩

end Sys2Proof.Machine
end

section
/-! The completion of a command: which codes it can report and what it leaves alone (R335, R336), that a failure only
reports (R340), and that RESULT.CODE stays in the table (R336). -/

namespace Sys2Proof.Machine

/-- Settles O4: the completion step at a word that decodes. -/
theorem stepRunsTheCommandInFlight : Obligations.StepRunsTheCommandInFlight := by
  intro s rest i hn hi
  rw [step_of_completesNext hn, hi]
  rfl

/-- Settles O48: a success reports 0, and a failure discards all but PARSEHELLO's HS_VALID. -/
theorem failureOnlyReports : Obligations.FailureOnlyReports := by
  intro i s t h hcode
  obtain ⟨u, -, rfl⟩ | ⟨e, -, rfl⟩ := exec_inversion h
  · exact absurd rfl hcode
  · rw [discard_eq]
    rfl

/-- The pseudocode's answer `r` is no error but one whose code is among `codes`. -/
def FailsWithin (codes : List Byte) (r : Except ErrorCode State) : Prop :=
  ∀ e, r = .error e → errorByte e ∈ codes

theorem FailsWithin.ok {codes : List Byte} (t : State) : FailsWithin codes (.ok t) := nofun

theorem FailsWithin.error {codes : List Byte} {e : ErrorCode} (he : errorByte e ∈ codes) :
    FailsWithin codes (.error e) := by
  rintro _ ⟨⟩
  exact he

/-- A check that fails with `e`, and what comes after it. -/
theorem FailsWithin.guard {codes : List Byte} {c : Prop} [Decidable c] {e : ErrorCode} {r : Except ErrorCode State}
    (he : errorByte e ∈ codes) (hr : FailsWithin codes r) : FailsWithin codes (if c then .error e else r) := by
  split
  · exact .error he
  · exact hr

/-- What follows a step that can fail adds no failure of its own. -/
theorem FailsWithin.map {codes : List Byte} {r : Except ErrorCode State} (f : State → State) :
    FailsWithin codes r → FailsWithin codes (match r with | .error e => .error e | .ok t => .ok (f t)) := by
  intro hr
  cases r with
  | error e => exact .error (hr e rfl)
  | ok t => exact .ok _

theorem emit_failsWithin {codes : List Byte} (s : State) (out : Bytes) (h : errorByte .outCap ∈ codes) :
    FailsWithin codes (s.emit out) := .guard h (.ok _)

theorem emitFrame_failsWithin {codes : List Byte} (p : Params) (s : State) (b : Bytes)
    (h : errorByte .outCap ∈ codes) : FailsWithin codes (s.emitFrame p b) :=
  .map (fun t => (t.setDigest (bodyCksum p s b)).consumeHandshake) (emit_failsWithin s _ h)

theorem emitPlain_failsWithin {codes : List Byte} (p : Params) (s : State) (c : Bytes)
    (halign : errorByte .decAlign ∈ codes) (hpad : errorByte .decPad ∈ codes) (hcap : errorByte .outCap ∈ codes) :
    FailsWithin codes (s.emitPlain p c) := by
  intro e he
  obtain hd | ⟨q, -, -, rfl⟩ := (emitPlain_error p s c e).1 he
  · obtain rfl | rfl := decryptBytes_error p _ _ _ _ hd
    · exact halign
    · exact hpad
  · exact hcap

/-- Every check of a command's pseudocode fails with a code of the command's column (R339). -/
theorem bodyOf_failsWithin (p : Params) (i : Instr) (s : State) : FailsWithin (codesOf i) (bodyOf p i s) := by
  cases i with
  | derive | close => exact .guard (by decide) (.ok _)
  | encrypt => exact .guard (by decide) (.guard (by decide) (emit_failsWithin s _ (by decide)))
  | decrypt =>
    exact .guard (by decide) (.guard (by decide) (emitPlain_failsWithin p s _ (by decide) (by decide) (by decide)))
  | mac | decHdr | parseHello | probe =>
    exact .guard (by decide) (.guard (by decide) (.guard (by decide) (.ok _)))
  | decHdrV => exact .guard (by decide) (.guard (by decide) (.guard (by decide) (.guard (by decide) (.ok _))))
  | encFrame | sealFrame =>
    exact .guard (by decide) (.guard (by decide) (.guard (by decide) (emitFrame_failsWithin p s _ (by decide))))
  | openFrame =>
    exact .guard (by decide) (.guard (by decide) (.guard (by decide)
      (.map _ (emitPlain_failsWithin p s _ (by decide) (by decide) (by decide)))))
  | openFrameV =>
    exact .guard (by decide) (.guard (by decide) (.guard (by decide) (.guard (by decide)
      (.map _ (emitPlain_failsWithin p s _ (by decide) (by decide) (by decide))))))

theorem zero_mem_codesOf (i : Instr) : 0 ∈ codesOf i := by cases i <;> decide

/-- Settles O47: the report is the completion's own, its code is 0 or that of a failed check, and neither the staged
writes nor their discarding reach the host's registers. -/
theorem completionFrame : Obligations.CompletionFrame := by
  intro i s t h
  obtain ⟨u, hu, rfl⟩ | ⟨e, he, rfl⟩ := exec_inversion h
  · obtain ⟨hirq, hone, -, -, herr, hovr, hbw, hlatch, hin, hcap, hbuf, hev, hrep, -⟩ := bodyOf_ok_frame hu
    exact ⟨rfl, rfl, rfl, rfl, zero_mem_codesOf i, by simp [herr], hovr, hbw, hirq, hone, hlatch, hin, hcap,
      fun a => congrArg (·.lookup a) hbuf, hev, hrep⟩
  · rw [discard_eq]
    exact ⟨rfl, rfl, rfl, rfl, bodyOf_failsWithin hw i s e he, by simp [or_comm], rfl, rfl, rfl, rfl, rfl, rfl, rfl,
      fun _ => rfl, rfl, rfl⟩

/-- The column of every command lies in the table (R336, R339). -/
theorem codesOf_subset_allCodes (i : Instr) : codesOf i ⊆ allCodes := by cases i <;> decide

/-- Settles O58: bus transactions leave RESULT alone, Reset clears it, and a completion reports a code of its command or
0x4F. -/
theorem resultCodesStayInTheTable : Obligations.ResultCodesStayInTheTable := by
  intro s t hs h
  obtain ⟨-, -, rfl⟩ | ⟨rest, -, -, rfl⟩ | ⟨rest, -, rfl⟩ | ⟨off, size, rest, -, rfl⟩ | ⟨off, size, d, rest, -, rfl⟩ |
    ⟨rest, i, -, -, hx⟩ | ⟨rest, e, -, -, rfl⟩ := step_cases h
  · exact hs
  · exact hs
  · exact .head _
  · exact hs
  · obtain ⟨-, -, hcode, -⟩ := busWrite_frame hw s off size d
    simpa [hcode] using hs
  · obtain ⟨-, -, -, -, hcode, -⟩ := completionFrame i _ _ hx
    exact codesOf_subset_allCodes i hcode
  · exact show (0x4F : Byte) ∈ allCodes by decide

end Sys2Proof.Machine
end

section
/-! What a command reports and writes is a function of its inputs (R333): the pseudocode runs on two states with the same
inputs to the same failed check, or to successes with the same inputs left and the same writes. -/

namespace Sys2Proof.Machine

/-- Two answers of a pseudocode are the same error, or successes that `R` relates. -/
inductive SameAnswer (R : State → State → Prop) : Except ErrorCode State → Except ErrorCode State → Prop
  | error (e : ErrorCode) : SameAnswer R (.error e) (.error e)
  | ok {t t' : State} (h : R t t') : SameAnswer R (.ok t) (.ok t')

/-- The same check on both sides, and what comes after it. -/
theorem SameAnswer.guard {R : State → State → Prop} {c c' : Prop} [Decidable c] [Decidable c'] {e : ErrorCode}
    {r r' : Except ErrorCode State} (hc : c ↔ c') (hr : SameAnswer R r r') :
    SameAnswer R (if c then .error e else r) (if c' then .error e else r') := by
  by_cases h : c
  · rw [if_pos h, if_pos (hc.1 h)]
    exact .error e
  · rw [if_neg h, if_neg (mt hc.2 h)]
    exact hr

/-- What follows a step that can fail, on both sides. -/
theorem SameAnswer.map {R Q : State → State → Prop} {r r' : Except ErrorCode State} (f f' : State → State) :
    SameAnswer R r r' → (∀ t t', R t t' → Q (f t) (f' t')) →
    SameAnswer Q (match r with | .error e => .error e | .ok t => .ok (f t))
      (match r' with | .error e => .error e | .ok t => .ok (f' t)) := by
  intro hr hf
  cases hr with
  | error e => exact .error e
  | ok h => exact .ok (hf _ _ h)

theorem SameAnswer.imp {R Q : State → State → Prop} {r r' : Except ErrorCode State} (hr : SameAnswer R r r')
    (hi : ∀ t t', R t t' → Q t t') : SameAnswer Q r r' := by
  cases hr with
  | error e => exact .error e
  | ok h => exact .ok (hi _ _ h)

/-- OUT_LEN is the same, and so is every byte of OUT below it, all of them written (R40, R92). -/
def SameOutput (t t' : State) : Prop :=
  t.outLen = t'.outLen ∧
    ∀ a < t.outLen.toNat, ∃ b, t.outBuf.lookup a = some b ∧ t'.outBuf.lookup a = some b

/-- The same output reads the same, whatever unwritten bytes read as (R93). -/
theorem SameOutput.memRead_eq {t t' : State} (h : SameOutput t t') :
    t.memRead .output 0 t.outLen.toNat = t'.memRead .output 0 t.outLen.toNat := by
  obtain ⟨-, hbytes⟩ := h
  refine List.map_congr_left fun a ha => ?_
  obtain ⟨b, hb, hb'⟩ := hbytes a (List.mem_range.1 ha)
  simp [State.readByte, State.buffer, hb, hb']

/-- One string written at the start of OUT in two states. -/
theorem sameOutput_writeOut (s s' : State) {out : Bytes} (h : out.length < 65536) :
    SameOutput (s.writeOut out) (s'.writeOut out) := by
  have hn : (BitVec.ofNat 16 out.length).toNat = out.length := by
    rw [BitVec.toNat_ofNat]
    omega
  refine ⟨rfl, fun a ha => ?_⟩
  rw [State.writeOut_outLen, hn] at ha
  refine ⟨out[a], ?_, ?_⟩ <;> simpa using lookup_write_inside _ 0 out a ha

/-- The RX registers are the same (R47 to R49). -/
def SameHeader (t t' : State) : Prop :=
  t.rxMagic = t'.rxMagic ∧ t.rxTotlen = t'.rxTotlen ∧ t.rxDevid = t'.rxDevid ∧ t.rxStamp = t'.rxStamp ∧
    t.rxCksum = t'.rxCksum

/-- The header of one frame latched in two states. -/
theorem sameHeader_latchHeader (s s' : State) {f f' : Bytes} (h : f = f') :
    SameHeader (s.latchHeader f) (s'.latchHeader f') := by
  subst h
  exact ⟨rfl, rfl, rfl, rfl, rfl⟩

/-- Two successes of command `i`: they leave the same inputs, and what the command writes beside them is the same. -/
structure SameEffect (i : Instr) (t t' : State) : Prop where
  inputs : InputsAgree t t'
  output : writesOut i = true → SameOutput t t'
  header : i = .decHdr ∨ i = .decHdrV ∨ i = .openFrame ∨ i = .openFrameV → SameHeader t t'
  digest : i = .mac ∨ i = .encFrame ∨ i = .sealFrame ∨ i = .decHdrV ∨ i = .openFrameV → t.digest = t'.digest

/-- Two states in which one string was delivered: the same inputs are left, and the same output. -/
structure SameDelivery (t t' : State) : Prop where
  inputs : InputsAgree t t'
  output : SameOutput t t'

section
variable {s s' : State} (h : InputsAgree s s')
include h

theorem InputsAgree.closed_iff : s.conn = false ↔ s'.conn = false := by
  obtain ⟨hconn, -⟩ := h
  rw [hconn]

theorem InputsAgree.noHandshake_iff : s.hsValid = false ↔ s'.hsValid = false := by
  obtain ⟨-, hvalid, -⟩ := h
  rw [hvalid]

theorem InputsAgree.inLen_eq : s.inLen = s'.inLen := by
  obtain ⟨-, -, -, -, -, -, -, -, -, -, -, -, -, hlen, -⟩ := h
  exact hlen

theorem InputsAgree.outCap_eq : s.outCap = s'.outCap := by
  obtain ⟨-, -, -, -, -, -, -, -, -, -, -, -, -, -, hcap, -⟩ := h
  exact hcap

theorem InputsAgree.input_eq : s.input = s'.input := by
  obtain ⟨-, -, -, -, -, -, -, -, -, -, -, -, -, -, -, hinput⟩ := h
  exact hinput

theorem InputsAgree.inTooLong_iff (p : Params) : s.inTooLong p = true ↔ s'.inTooLong p = true := by
  rw [State.inTooLong, State.inTooLong, h.inLen_eq]

theorem InputsAgree.capTooLong_iff (p : Params) : s.capTooLong p = true ↔ s'.capTooLong p = true := by
  rw [State.capTooLong, State.capTooLong, h.outCap_eq]

theorem InputsAgree.tooLong_iff (p : Params) :
    s.inTooLong p = true ∨ s.capTooLong p = true ↔ s'.inTooLong p = true ∨ s'.capTooLong p = true :=
  or_congr (h.inTooLong_iff p) (h.capTooLong_iff p)

theorem InputsAgree.shortFrame_iff : s.inLen.toNat < 32 ↔ s'.inLen.toNat < 32 := by rw [h.inLen_eq]

theorem InputsAgree.stagedToken_eq : s.stagedToken = s'.stagedToken := by
  obtain ⟨-, -, -, -, htok0, htok1, htok2, htok3, -⟩ := h
  rw [State.stagedToken, htok0, htok1, htok2, htok3, ← State.stagedToken]

theorem InputsAgree.frameCksum_eq (p : Params) : frameCksum p s s.input = frameCksum p s' s'.input := by
  obtain ⟨-, -, -, -, -, -, -, -, htok, -, -, -, -, -, -, hinput⟩ := h
  rw [frameCksum, frameCksum, htok, hinput]

theorem InputsAgree.mismatch_iff (p : Params) : be128 (frameCksum p s s.input) ≠ slice s.input 16 32 ↔
    be128 (frameCksum p s' s'.input) ≠ slice s'.input 16 32 := by rw [h.frameCksum_eq, h.input_eq]

theorem InputsAgree.bodyCksum_eq (p : Params) (b : Bytes) : bodyCksum p s b = bodyCksum p s' b := by
  obtain ⟨-, -, -, -, -, -, -, -, htok, -, -, hdevid, hstamp, -⟩ := h
  exact bodyCksum_congr p htok hdevid hstamp b

theorem InputsAgree.frameOf_eq (p : Params) (b : Bytes) : frameOf p s b = frameOf p s' b := by
  obtain ⟨-, -, -, -, -, -, -, -, htok, -, -, hdevid, hstamp, -⟩ := h
  exact frameOf_congr p htok hdevid hstamp b

theorem InputsAgree.encryptBytes_eq (p : Params) :
    encryptBytes p s.key s.iv s.input = encryptBytes p s'.key s'.iv s'.input := by
  obtain ⟨-, -, -, -, -, -, -, -, -, hkey, hiv, -, -, -, -, hinput⟩ := h
  rw [hkey, hiv, hinput]

theorem InputsAgree.decryptBytes_eq (p : Params) (c : Bytes) :
    decryptBytes p s.key s.iv c = decryptBytes p s'.key s'.iv c := by
  obtain ⟨-, -, -, -, -, -, -, -, -, hkey, hiv, -⟩ := h
  rw [hkey, hiv]

theorem InputsAgree.setHsValid (v : Bool) : InputsAgree (s.setHsValid v) (s'.setHsValid v) := by
  obtain ⟨hconn, -, hrest⟩ := h
  exact ⟨hconn, rfl, hrest⟩

theorem InputsAgree.consumeHandshake : InputsAgree s.consumeHandshake s'.consumeHandshake := by
  obtain ⟨hconn, hvalid, hone, hrest⟩ := h
  refine ⟨hconn, ?_, hone, hrest⟩
  simp [hvalid, hone]

theorem InputsAgree.discard (i : Instr) : InputsAgree (s.discard i) (s'.discard i) := by
  unfold State.discard
  split
  · exact h.setHsValid false
  · exact h

theorem InputsAgree.storeHandshake (id st : Word) :
    InputsAgree (s.storeHandshake id st) (s'.storeHandshake id st) := by
  obtain ⟨hconn, -, hone, hmask, htok0, htok1, htok2, htok3, htok, hkey, hiv, -, -, hrest⟩ := h
  exact ⟨hconn, rfl, hone, hmask, htok0, htok1, htok2, htok3, htok, hkey, hiv, rfl, rfl, hrest⟩

theorem InputsAgree.clearLink : InputsAgree s.clearLink s'.clearLink := by
  obtain ⟨hconn, -, hone, -, -, -, -, -, htok, hkey, hiv, -, -, hrest⟩ := h
  exact ⟨hconn, rfl, hone, rfl, rfl, rfl, rfl, rfl, htok, hkey, hiv, rfl, rfl, hrest⟩

theorem InputsAgree.openLink (t k v : Block) : InputsAgree (s.openLink t k v) (s'.openLink t k v) := by
  obtain ⟨-, hvalid, hone, hmask, htok0, htok1, htok2, htok3, -, -, -, hrest⟩ := h
  exact ⟨rfl, hvalid, hone, hmask, htok0, htok1, htok2, htok3, rfl, rfl, rfl, hrest⟩

theorem InputsAgree.closeLink : InputsAgree s.closeLink s'.closeLink := by
  obtain ⟨-, hvalid, hone, hmask, htok0, htok1, htok2, htok3, -, -, -, hrest⟩ := h
  exact ⟨rfl, hvalid, hone, hmask, htok0, htok1, htok2, htok3, rfl, rfl, rfl, hrest⟩

/-- A string fits OUT_CAP on both sides or on neither (R39). -/
theorem emit_sameAnswer (out : Bytes) : SameAnswer SameDelivery (s.emit out) (s'.emit out) := by
  have hcap := h.outCap_eq
  by_cases hroom : out.length ≤ s.outCap.toNat
  · rw [(emit_ok s _ out).2 ⟨hroom, rfl⟩, (emit_ok s' _ out).2 ⟨hcap ▸ hroom, rfl⟩]
    exact .ok ⟨h, sameOutput_writeOut s s' (hroom.trans_lt s.outCap.isLt)⟩
  · rw [not_le] at hroom
    rw [(emit_error s out _).2 ⟨hroom, rfl⟩, (emit_error s' out _).2 ⟨hcap ▸ hroom, rfl⟩]
    exact .error _

theorem emitFrame_sameAnswer (p : Params) (b : Bytes) :
    SameAnswer (fun t t' => SameDelivery t t' ∧ t.digest = t'.digest) (s.emitFrame p b) (s'.emitFrame p b) := by
  have hemit := emit_sameAnswer h (frameOf p s b)
  rw [State.emitFrame, State.emitFrame, ← h.frameOf_eq, ← h.bodyCksum_eq]
  exact .map _ _ hemit fun t t' hd => ⟨⟨hd.inputs.consumeHandshake, hd.output⟩, rfl⟩

theorem emitPlain_sameAnswer (p : Params) (c : Bytes) :
    SameAnswer SameDelivery (s.emitPlain p c) (s'.emitPlain p c) := by
  rw [State.emitPlain, State.emitPlain, ← h.decryptBytes_eq]
  cases decryptBytes p s.key s.iv c with
  | error e => exact .error e
  | ok q => exact emit_sameAnswer h q

/-- A command's pseudocode reads nothing but its inputs (R91, R125, R333). -/
theorem bodyOf_sameAnswer (p : Params) (i : Instr) : SameAnswer (SameEffect i) (bodyOf p i s) (bodyOf p i s') := by
  cases i with
  | derive =>
    have hmask : s.tokenWr ≠ 0b1111 ↔ s'.tokenWr ≠ 0b1111 := by
      obtain ⟨-, -, -, hmask, -⟩ := h
      rw [hmask]
    refine .guard hmask (.ok { inputs := ?_, output := nofun, header := nofun, digest := nofun })
    rw [← h.stagedToken_eq]
    exact h.clearLink.openLink _ _ _
  | close =>
    exact .guard h.closed_iff (.ok
      { inputs := h.clearLink.closeLink, output := nofun, header := nofun, digest := nofun })
  | encrypt =>
    refine .guard h.closed_iff (.guard (h.tooLong_iff p) ?_)
    rw [← h.encryptBytes_eq]
    exact (emit_sameAnswer h _).imp fun t t' hd =>
      { inputs := hd.inputs, output := fun _ => hd.output, header := nofun, digest := nofun }
  | decrypt =>
    refine .guard h.closed_iff (.guard (h.tooLong_iff p) ?_)
    rw [← h.input_eq]
    exact (emitPlain_sameAnswer h p _).imp fun t t' hd =>
      { inputs := hd.inputs, output := fun _ => hd.output, header := nofun, digest := nofun }
  | mac =>
    exact .guard h.closed_iff (.guard (h.inTooLong_iff p) (.guard h.shortFrame_iff (.ok
      { inputs := h, output := nofun, header := nofun, digest := fun _ => h.frameCksum_eq p })))
  | encFrame =>
    refine .guard h.closed_iff (.guard (h.tooLong_iff p) (.guard h.noHandshake_iff ?_))
    rw [← h.input_eq]
    exact (emitFrame_sameAnswer h p _).imp fun t t' ⟨hd, hdigest⟩ =>
      { inputs := hd.inputs, output := fun _ => hd.output, header := nofun, digest := fun _ => hdigest }
  | decHdr =>
    refine .guard h.closed_iff (.guard (h.inTooLong_iff p) (.guard h.shortFrame_iff (.ok
      { inputs := h, output := nofun, header := fun _ => ?_, digest := nofun })))
    exact sameHeader_latchHeader s s' h.input_eq
  | decHdrV =>
    refine .guard h.closed_iff (.guard (h.inTooLong_iff p) (.guard h.shortFrame_iff (.guard (h.mismatch_iff p) (.ok
      { inputs := h, output := nofun, header := fun _ => ?_, digest := fun _ => h.frameCksum_eq p }))))
    exact sameHeader_latchHeader s s' h.input_eq
  | parseHello =>
    have hlen : s.inLen.toNat ≠ 32 ↔ s'.inLen.toNat ≠ 32 := by rw [h.inLen_eq]
    refine .guard h.closed_iff (.guard (h.inTooLong_iff p) (.guard hlen (.ok
      { inputs := ?_, output := nofun, header := nofun, digest := nofun })))
    rw [← h.input_eq]
    exact h.storeHandshake _ _
  | probe =>
    have hroom : s.outCap.toNat < 32 ↔ s'.outCap.toNat < 32 := by rw [h.outCap_eq]
    refine .guard h.closed_iff (.guard (h.capTooLong_iff p) (.guard hroom (.ok
      { inputs := h.setHsValid false, output := fun _ => ?_, header := nofun, digest := nofun })))
    exact sameOutput_writeOut s s' (length_probeBytes.trans_lt (by decide))
  | sealFrame =>
    refine .guard h.closed_iff (.guard (h.tooLong_iff p) (.guard h.noHandshake_iff ?_))
    rw [← h.encryptBytes_eq]
    exact (emitFrame_sameAnswer h p _).imp fun t t' ⟨hd, hdigest⟩ =>
      { inputs := hd.inputs, output := fun _ => hd.output, header := nofun, digest := fun _ => hdigest }
  | openFrame =>
    refine .guard h.closed_iff (.guard (h.tooLong_iff p) (.guard h.shortFrame_iff ?_))
    rw [← h.input_eq, ← h.inLen_eq]
    refine (emitPlain_sameAnswer h p _).map (·.latchHeader s.input) (·.latchHeader s.input) fun t t' hd =>
      { inputs := hd.inputs, output := fun _ => hd.output, header := fun _ => ?_, digest := nofun }
    exact sameHeader_latchHeader t t' rfl
  | openFrameV =>
    refine .guard h.closed_iff (.guard (h.tooLong_iff p) (.guard h.shortFrame_iff (.guard (h.mismatch_iff p) ?_)))
    rw [← h.frameCksum_eq, ← h.input_eq, ← h.inLen_eq]
    refine (emitPlain_sameAnswer h p _).map (fun t => (t.latchHeader s.input).setDigest (frameCksum p s s.input))
      (fun t => (t.latchHeader s.input).setDigest (frameCksum p s s.input)) fun t t' hd =>
      { inputs := hd.inputs, output := fun _ => hd.output, header := fun _ => ?_, digest := fun _ => rfl }
    exact sameHeader_latchHeader t t' rfl

end

/-- Settles O53: equal inputs give one error code and one discarding, or code 0 with the same inputs left and the same
writes; the report changes none of them. -/
theorem resultDependsOnInputsOnly : Obligations.ResultDependsOnInputsOnly := by
  intro i s s' t t' h hx hx'
  have hbody := bodyOf_sameAnswer h hw i
  rw [exec_eq] at hx hx'
  generalize bodyOf hw i s = r, bodyOf hw i s' = r' at hx hx' hbody
  cases hbody with
  | error e =>
    cases hx
    cases hx'
    have hd := h.discard i
    have hstaged := hd.stagedToken_eq
    obtain ⟨hconn, hvalid, -, hmask, -, -, -, -, htok, hkey, hiv, hdevid, hstamp, -⟩ := hd
    exact ⟨rfl, hconn, hvalid, hmask, hstaged, htok, hkey, hiv, hdevid, hstamp,
      fun h0 => absurd h0 (errorByte_ne_zero e), fun h0 => absurd h0 (errorByte_ne_zero e),
      fun h0 => absurd h0 (errorByte_ne_zero e)⟩
  | @ok u u' hu =>
    cases hx
    cases hx'
    have hstaged := hu.inputs.stagedToken_eq
    obtain ⟨⟨hconn, hvalid, -, hmask, -, -, -, -, htok, hkey, hiv, hdevid, hstamp, -⟩, hout, hheader, hdigest⟩ := hu
    refine ⟨rfl, hconn, hvalid, hmask, hstaged, htok, hkey, hiv, hdevid, hstamp, fun _ hi => ?_, fun _ => hheader,
      fun _ => hdigest⟩
    have hreport : SameOutput (u.finish (encode i) 0) (u'.finish (encode i) 0) := hout hi
    exact ⟨hreport.1, hreport.memRead_eq⟩

end Sys2Proof.Machine
end

section
/-! Progress: every step answers a next state and takes one event off the list, so a run past the last event ends idle
(R331, R334). -/

namespace Sys2Proof.Machine

/-- Every command answers a next state (R334). -/
theorem exec_total (i : Instr) (s : State) : ∃ t, exec i s = .next t := by
  obtain ⟨t, -, hx⟩ | ⟨e, -, hx⟩ := exec_cases i s
  · exact ⟨_, hx⟩
  · exact ⟨_, hx⟩

/-- No step stops (R330, R334). -/
theorem step_total (s : State) : ∃ t, step s = .next t := by
  unfold step
  cases nextTurn hw s with
  | done t => exact ⟨t, rfl⟩
  | run t =>
    dsimp only
    cases t.fetch with
    | ok i => exact exec_total i t
    | error e => exact ⟨_, rfl⟩

/-- What is to come after a completion is what the list holds behind its first event, or nothing (log 1). -/
theorem State.CompletesNext.rest_eq {s : State} {rest : List Event} (h : s.CompletesNext rest) :
    rest = s.events.tail := by
  obtain ⟨-, he | ⟨he, rfl⟩⟩ := h <;> simp [he]

/-- A step takes the first event off the list, if there is one (log 1). -/
theorem events_of_step {s t : State} (h : step s = .next t) : t.events = s.events.tail := by
  obtain ⟨-, he, rfl⟩ | ⟨rest, -, he, rfl⟩ | ⟨rest, he, rfl⟩ | ⟨off, size, rest, he, rfl⟩ |
    ⟨off, size, d, rest, he, rfl⟩ | ⟨rest, i, hn, -, hx⟩ | ⟨rest, e, hn, -, rfl⟩ := step_cases h
  · simp [he]
  · simp [he]
  · simp [he]
  · simp [he]
  · simp [he]
  · obtain ⟨-, -, -, -, -, -, -, -, -, -, -, -, -, -, hev, -⟩ := completionFrame i _ _ hx
    exact hev.trans hn.rest_eq
  · exact hn.rest_eq

/-- The step of a completion leaves no command in flight, also for an illegal word (R335). -/
theorem State.CompletesNext.idle_of_step {s t : State} {rest : List Event} (hn : s.CompletesNext rest)
    (h : step s = .next t) : t.busy = false := by
  rw [step_of_completesNext hn] at h
  cases hd : decode s.cmdLatch with
  | ok i =>
    rw [hd] at h
    obtain ⟨hidle, -⟩ := completionFrame i _ _ h
    exact hidle
  | error e =>
    rw [hd] at h
    cases h
    rfl

/-- When no event is left a step leaves no command in flight: the one there was has completed (R334). -/
theorem idle_of_step_of_no_events {s t : State} (h : step s = .next t) (he : s.events = []) : t.busy = false := by
  cases hb : s.busy with
  | false =>
    have hstay : step s = .next s := by simp [step, nextTurn, State.engineTurn, he, hb]
    rw [hstay] at h
    cases h
    exact hb
  | true =>
    have hn : s.CompletesNext [] := ⟨hb, .inr ⟨he, rfl⟩⟩
    exact hn.idle_of_step h

/-- A run is one step and the rest of the run. -/
theorem run_succ_of_step {M : Host.Core} {s t : M.State} (h : M.step s = .next t) (n : Nat) :
    M.run (n + 1) s = M.run n t := by
  rw [Host.Core.run, h]

/-- The events to come and one step more leave no command in flight (R334, log 1). -/
theorem run_ends_idle (events : List Event) : ∀ s : State, s.events = events →
    ∃ t : State, Host.Core.run Sys2Proof.core (events.length + 1) s = .next t ∧ t.busy = false ∧ t.events = [] := by
  induction events with
  | nil =>
    intro s he
    obtain ⟨t, ht⟩ := step_total s
    exact ⟨t, run_succ_of_step (M := core) ht 0, idle_of_step_of_no_events ht he, by simp [events_of_step ht, he]⟩
  | cons ev rest ih =>
    intro s he
    obtain ⟨t, ht⟩ := step_total s
    rw [List.length_cons, run_succ_of_step (M := core) ht]
    exact ih t (by simp [events_of_step ht, he])

/-- Settles O59: each step uses up an event, and the step after the last one completes what is in flight. -/
theorem everyIssuedCommandCompletes : Obligations.EveryIssuedCommandCompletes :=
  ⟨step_total, fun s => run_ends_idle s.events s rfl⟩

end Sys2Proof.Machine
end

section
/-! Bus writes while a command is in flight (R344, R345), and writes to what is read-only (R86). -/

namespace Sys2Proof.Machine

/-- An aligned write to an input is accepted, and is dropped or has some effect `t` as BUSY is 1 or 0 (R345). -/
theorem busWrite_of_inputOffset {p : Params} (s : State) {off : BitVec 16} (d : Word) (h4 : off.toNat % 4 = 0)
    (hi : inputOffset p.bufBytes off = true) : ∃ t, busWrite p s off 4 d = ((s.writeInput t).tick, .ok) := by
  simp only [inputOffset, Bool.or_eq_true, Bool.and_eq_true, beq_iff_eq, decide_eq_true_eq] at hi
  obtain (((ho | ho) | ho) | ⟨hlo, hhi⟩) | ⟨hlo, hhi⟩ := hi
  · exact ⟨_, busWrite_reg p s .ctrl off d ho rfl⟩
  · exact ⟨_, busWrite_reg p s .inLen off d ho rfl⟩
  · exact ⟨_, busWrite_reg p s .outCap off d ho rfl⟩
  · exact ⟨_, busWrite_token p s ⟨(off.toNat - 0x20) / 4, by omega⟩ off d (by dsimp only; omega)⟩
  · exact ⟨_, busWrite_in p s (off.toNat - 0x4000) off d (by omega) (by omega) (by omega)⟩

/-- A write to a read-only register or to the OUT window is refused and changes nothing (R86, R89). -/
theorem busWrite_of_readOnlyOffset (s : State) {off : BitVec 16} (d : Word) (h : readOnlyOffset off = true) :
    busWrite hw s off 4 d = (s, .busErr) := by
  have hbus : (busWrite hw s off 4 d).2 = .busErr := (busErrorsAreExactlyThese s off 4 d).2.2 (.inr (.inr h))
  refine (busWrite_eq_or_ok hw s off 4 d).resolve_right ?_
  simp [hbus]

/-- Settles O9: CMD marks the overrun, an input marks BUSY_WR, STATUS is acknowledged as ever, and the read-only offsets
are bus errors in every state. -/
theorem writesWhileBusyAreDropped : Obligations.WritesWhileBusyAreDropped := by
  refine ⟨fun s off d hb => ⟨busWrite_cmd_busy hw d hb, fun h4 hi => ?_, ?_⟩,
    fun s off d h => busWrite_of_readOnlyOffset s d h⟩
  · obtain ⟨t, ht⟩ := busWrite_of_inputOffset s d h4 hi
    rw [ht, writeInput_busy hb]
    rfl
  · exact ⟨_, busWrite_status hw s d, statusWord_ackStatus s d⟩

end Sys2Proof.Machine
end

section
/-! Reset: what every register then reads (R381), the Reset event (R380, R382), and the buffers with no byte written
(R383). -/

namespace Sys2Proof.Machine

/-- Settles O57: nothing is listed in either buffer, and OUT_LEN is 0. -/
theorem bufferInvariantAtReset : Obligations.BufferInvariantAtReset :=
  ⟨⟨.nil, .nil, nofun, nofun, Nat.zero_le _⟩, rfl, rfl⟩

/-- The words of an all-zero 16-byte register are 0 (R41). -/
theorem wordOf_zero : ∀ k : Fin 4, wordOf 0 k.val = 0 := by decide

/-- After reset every register from TOKEN0 to DIGEST3 reads 0 (R381). -/
theorem readReg_reset (p : Params) {r : Reg} (hlo : 0x20 ≤ regOffset r) (hhi : regOffset r ≤ 0x84) :
    State.reset.readReg p r = 0 := by
  cases r with
  | id | ctrl | status | cmd | result | inLen | outCap | outLen => simp [regOffset] at hlo
  | bufsize => simp [regOffset] at hhi
  | key k | iv k | rxCksum k | digest k => exact wordOf_zero k
  | token _ | devid | stamp | rxMagic | rxTotlen | rxDevid | rxStamp => rfl

/-- Settles O22: one register of the map per clause, and for the range the register that stands at the offset. -/
theorem resetValues : Obligations.ResetValues := by
  refine ⟨busRead_reg hw _ .id _ rfl, busRead_reg hw _ .ctrl _ rfl, busRead_reg hw _ .status _ rfl,
    busRead_reg hw _ .result _ rfl, busRead_reg hw _ .inLen _ rfl, busRead_reg hw _ .outCap _ rfl,
    busRead_reg hw _ .outLen _ rfl, fun off hlo hhi h4 => ?_, busRead_reg hw _ .bufsize _ rfl, rfl, rfl, rfl, rfl⟩
  obtain ⟨r, hr⟩ := regAt_of_le (by omega) h4
  have ho := regOffset_of_regAt hr
  rw [busRead_reg hw _ r off ho.symm, readReg_reset hw (by omega) (by omega)]

/-- RESULT reads 0 after reset (R381). -/
theorem resultWord_reset : State.reset.resultWord = 0 := by decide

/-- The step of a Reset event, also with a command in flight (R380, R382). -/
theorem step_of_reset {s : State} {rest : List Event} (h : s.events = .reset :: rest) :
    step s = .next (s.setEvents rest).resetBlock := by
  simp only [step, nextTurn, h]

/-- While no command is in flight the engine has nothing to complete (R331). -/
theorem not_completesNext_of_idle {s : State} (h : s.busy = false) (rest : List Event) : ¬ s.CompletesNext rest :=
  fun ⟨hb, _⟩ => by simp [h] at hb

/-- Settles O23: the step of a Reset leaves the state after reset but for the model's own lists, and so BUSY = 0. -/
theorem resetEventClearsEverything : Obligations.ResetEventClearsEverything :=
  fun _ _ h => ⟨_, step_of_reset h, rfl, resultWord_reset, rfl, rfl, not_completesNext_of_idle rfl⟩

end Sys2Proof.Machine
end

section
/-! What raises the sticky flags CMD_OVR and BUSY_WR (R30, R31), and that a host which waits for completion raises
neither (R390, R391). -/

namespace Sys2Proof.Machine

/-- From `s` to `t` CMD_OVR is raised only while a command is in flight and if `ovr`, and BUSY_WR only while one is and if
`wr` (R30, R31). -/
def FlagsRaisedOnlyBy (s t : State) (ovr wr : Prop) : Prop :=
  (t.cmdOvr = true → s.cmdOvr = true ∨ s.busy = true ∧ ovr) ∧ (t.busyWr = true → s.busyWr = true ∨ s.busy = true ∧ wr)

/-- A write to an input raises at most BUSY_WR, and that only while a command is in flight (R31, R345). -/
theorem flags_of_writeInput {s t : State} {ovr wr : Prop} (hovr : t.cmdOvr = s.cmdOvr) (hwr : t.busyWr = s.busyWr)
    (hi : wr) : FlagsRaisedOnlyBy s (s.writeInput t) ovr wr := by
  obtain ⟨hb, e⟩ | ⟨-, e⟩ := writeInput_cases s t <;> rw [e]
  · exact ⟨.inl, fun _ => .inr ⟨hb, hi⟩⟩
  · exact ⟨fun h => .inl (hovr ▸ h), fun h => .inl (hwr ▸ h)⟩

/-- Of the registers, only CMD raises CMD_OVR and only the inputs raise BUSY_WR (R30, R31). -/
theorem flags_of_writeReg (bufBytes : Nat) (s : State) (r : Reg) (d : Word) :
    FlagsRaisedOnlyBy s (s.writeReg r d) (r = .cmd)
      (inputOffset bufBytes (BitVec.ofNat 16 (regOffset r)) = true) := by
  cases r with
  | ctrl | inLen | outCap => exact flags_of_writeInput rfl rfl rfl
  | token k => exact flags_of_writeInput (by simp) (by simp) (by fin_cases k <;> rfl)
  | status => simp +contextual [FlagsRaisedOnlyBy, State.writeReg]
  | cmd => cases hb : s.busy <;> simp +contextual [FlagsRaisedOnlyBy, State.writeReg, hb]
  | _ => exact ⟨.inl, .inl⟩

/-- A bus write raises CMD_OVR only at CMD and BUSY_WR only at an input (R30, R31). -/
theorem flags_of_busWrite (p : Params) (s : State) (off : BitVec 16) (size : Nat) (d : Word) :
    FlagsRaisedOnlyBy s (busWrite p s off size d).1 (off = 0x000C) (inputOffset p.bufBytes off = true) := by
  obtain e | ⟨r, -, ht, e⟩ | ⟨i, ht, e⟩ := busWrite_cases p s off size d <;> rw [e]
  · exact ⟨.inl, .inl⟩
  · obtain ⟨-, -, hr⟩ := busTarget_some ht
    have ho : off = BitVec.ofNat 16 (regOffset r) := by rw [← targetAt_reg hr]; simp
    obtain ⟨hovr, hwr⟩ := flags_of_writeReg p.bufBytes s r d
    rw [ho]
    exact ⟨fun h => (hovr h).imp_right fun ⟨hb, hc⟩ => ⟨hb, by rw [hc]; rfl⟩, hwr⟩
  · obtain ⟨-, -, hr⟩ := busTarget_some ht
    obtain ⟨ho, hi⟩ := targetAt_in hr
    exact flags_of_writeInput (s := s) (t := s.writeInWord i d) rfl rfl (by simp [inputOffset, ho, hi])

/-- A write that the host's duty allows raises neither flag (R390, R391). -/
theorem State.HostWaits.flags_of_busWrite {s : State} (hwaits : s.HostWaits) {off : BitVec 16} {size : Nat} {d : Word}
    {rest : List Event} (he : s.events = .write off size d :: rest) :
    FlagsRaisedOnlyBy s (busWrite hw s off size d).1 False False := by
  obtain ⟨hovr, hwr⟩ := Machine.flags_of_busWrite hw s off size d
  have hduty := hwaits off size d rest he
  refine ⟨fun h => (hovr h).imp_right fun ⟨hb, hc⟩ => ?_, fun h => (hwr h).imp_right fun ⟨hb, hi⟩ => ?_⟩
  · exact absurd hc (hduty hb).1
  · rw [(hduty hb).2] at hi
    cases hi

/-- Settles O11: of the steps only a bus write can raise a sticky flag, and not one that the host's duty allows. -/
theorem waitingHostLosesNoWrite : Obligations.WaitingHostLosesNoWrite := by
  intro s t hwaits h
  obtain ⟨-, -, rfl⟩ | ⟨rest, -, -, rfl⟩ | ⟨rest, -, rfl⟩ | ⟨off, size, rest, -, rfl⟩ | ⟨off, size, d, rest, he, rfl⟩ |
    ⟨rest, i, -, -, hx⟩ | ⟨rest, e, -, -, rfl⟩ := step_cases h
  · exact ⟨id, id⟩
  · exact ⟨id, id⟩
  · exact ⟨nofun, nofun⟩
  · exact ⟨id, id⟩
  · simpa [FlagsRaisedOnlyBy] using hwaits.flags_of_busWrite he
  · obtain ⟨-, -, -, -, -, -, hovr, hwr, -⟩ := completionFrame i _ _ hx
    rw [hovr, hwr]
    exact ⟨id, id⟩
  · exact ⟨id, id⟩

end Sys2Proof.Machine
end
